-- ==== Sys2Proof/Word.lean ====
section
/-! DEFINITION. The 64-bit word of FIRCORE (spec 00_scope.md R7: all registers and buffer elements are 64 bits wide) and the byte of the optional byte map (20_memory.md R60). -/

namespace Sys2Proof

/-- One 64-bit cell: a register, a buffer element, or a binary64 number (R7, R13). -/
abbrev Word := BitVec 64

/-- One byte of the byte-addressed map of R60 and R61. -/
abbrev Byte := BitVec 8

end Sys2Proof
end

