-- ==== Sys2Proof/Config.lean ====
section
/-! DEFINITION. What an implementation fixes (spec 00_scope.md R5, R6), the shape of the numerics parameter `NUM` (R8, R9, R13), the configuration a machine is built over, and the free values: constants with no body, so that no proof can see what they are. -/

namespace Sys2Proof

/-- `WSHAPE` (R5, R6): whether the stored window type shapes the windowed-sinc coefficients. -/
inductive WShape where
  | metadata
  | multiply
deriving DecidableEq, Repr

/-! ## The parameters that are plain data (R5) -/

/-- The counts, capacities and the switch of R5, so that a claim can name them or quantify over them. A capacity `none` is unbounded. -/
structure Params where
  /-- number of filter slots -/
  NF : Nat
  /-- number of window slots -/
  NW : Nat
  /-- number of sequence buffers -/
  NB : Nat
  /-- largest coefficient count of a filter or window -/
  MAXN : Option Nat
  /-- capacity of one sequence buffer, in elements -/
  MAXSIG : Option Nat
  WSHAPE : WShape
deriving DecidableEq, Repr

/-- The constraints of R5. An unbounded `MAXN` needs an unbounded `MAXSIG`, since `MAXN <= MAXSIG`. DESIGN CHOICE (log 10), safe: R5 speaks of both unbounded or of neither; a bounded `MAXN` beside an unbounded `MAXSIG` is admitted too, below `2^32` as R5's chain has it, so that it fits its field of `CAP1` (10_state.md R30). -/
structure Params.Ok (p : Params) : Prop where
  slots : 2 ≤ p.NF ∧ 2 ≤ p.NW
  indices : p.NF ≤ 16 ∧ p.NW ≤ 16 ∧ 1 ≤ p.NB ∧ p.NB ≤ 16
  maxn : ∀ n, p.MAXN = some n → n % 2 = 1 ∧ 3 ≤ n ∧ n < 2 ^ 32
  maxsig : ∀ m, p.MAXSIG = some m → m < 2 ^ 32 ∧ ∃ n, p.MAXN = some n ∧ n ≤ m

/-! ## The values of this hardware (R5) and its free values -/

namespace Config

/-- `NF` of this hardware. -/
abbrev NF : Nat := 4

/-- `NW` of this hardware. -/
abbrev NW : Nat := 4

/-- `NB` of this hardware. -/
abbrev NB : Nat := 8

/-- `MAXN` of this hardware. -/
abbrev MAXN : Nat := 1023

/-- `MAXSIG` of this hardware. -/
abbrev MAXSIG : Nat := 4096

/-- The parameters of this hardware (R5, R6). -/
abbrev params : Params :=
  { NF := NF, NW := NW, NB := NB, MAXN := some MAXN, MAXSIG := some MAXSIG, WSHAPE := .metadata }

/-- `ID` (10_state.md R31): "FIRLIB", then 0x00, then the version 7. -/
abbrev ID : Word := 0x4649524C49420007#64

/-- FREE VALUE (log 8): which naturally aligned region the platform chose (R61, 93_implementation_defined.md U12). -/
opaque baseRegion : Nat

/-- FREE VALUE (log 5): the sine of a finite binary64 number (R12, 93_implementation_defined.md U5). -/
opaque sin64 : Word → Word

/-- FREE VALUE (log 5): the cosine of a finite binary64 number (R12, U5). -/
opaque cos64 : Word → Word

/-- FREE VALUE (log 3): what an unwritten element reads as to the host, by reset count, buffer and element (10_state.md R41, U7). -/
opaque unwrittenCell : Nat → Nat → Nat → Word

/-- FREE VALUE (log 13): the quotient of a real number by zero, which R9 and R11 leave open. -/
noncomputable opaque realDivByZero : ℝ → ℝ

end Config

/-- The operations of `NUM` that can compute a NaN (93_implementation_defined.md U6). -/
inductive NumOp where
  | add | sub | mul | div | sin | cos
deriving DecidableEq, Repr

/-- FREE VALUE (log 4): sign and payload of the NaN an operation computes from its operands (U6). -/
opaque Config.nanPayload : NumOp → Word → Word → Word

/-! ## The numerics (R8, R9) -/

/-- The numeric literals of the source, all of them (R14). -/
inductive Literal where
  | eps
  | half
  | one
  | two
  | hammingA
  | hammingB
  | blackmanA
  | blackmanB
  | blackmanC
deriving DecidableEq, Repr

/-- `NUM` over numbers `α` and 64-bit cells `Cell` (R8, R9). The instances are `Machine.binary64` (R12) and `Machine.realNum` (R11). -/
structure Numerics (Cell α : Type) where
  ofInt : Int → α
  lit : Literal → α
  add : α → α → α
  sub : α → α → α
  mul : α → α → α
  div : α → α → α
  neg : α → α
  abs : α → α
  lt : α → α → Bool
  eq : α → α → Bool
  sin : α → α
  cos : α → α
  pi : α
  /-- the number a cell holds; none where the cell holds a word and words are no numbers, which cannot occur with `NUM = binary64` (R13) -/
  ofBits : Cell → Option α
  /-- a number as a cell (R13) -/
  toBits : α → Cell
  /-- the word a cell holds; none where it holds a number and numbers are no words (R13; log 14) -/
  toWord : Cell → Option Word
  /-- a 64-bit word as a cell: an integer result, or what the host writes (R13, 10_state.md R28) -/
  ofWord : Word → Cell

/-- What a machine is built over: the parameters of R5, `NUM` and `EPS` among them, and what the platform and the environment choose. This hardware's is `Machine.hardware`. -/
structure Configuration (Cell α : Type) extends Params where
  /-- `NUM` (R5, R8) -/
  num : Numerics Cell α
  /-- `EPS` (R5): the threshold of `sinc` and of `NORM` -/
  eps : α
  /-- what an unwritten element reads as to the host, by reset count, buffer and element (10_state.md R41, 93_implementation_defined.md U7; log 3) -/
  unwritten : Nat → Nat → Nat → Cell
  /-- which naturally aligned region the platform chose (20_memory.md R61, U12; log 8) -/
  baseRegion : Nat

end Sys2Proof
end

