-- ==== Sys2Proof/Syntax.lean ====
section
/-! DEFINITION. The 31 commands of spec 30_encoding.md R74 as one inductive, with the operands of each. -/

namespace Sys2Proof

/-- WindowType (10_state.md R37), the `WT` field of a command. -/
inductive WindowType where
  | rectangular
  | hamming
  | hanning
  | blackman
deriving DecidableEq, Repr

/-- An index operand: one of the 4-bit fields `A`, `B`, `C` (R70, R71). -/
abbrev Idx := BitVec 4

/-- The size operand `N` (R70, R72). -/
abbrev SizeImm := BitVec 32

/-- One command (R74). Operands stand in the assembler order of R74's operand column:
`f` names a filter slot, `w` a window slot, `b` and `c` sequence buffers. -/
inductive Instr where
  -- FIR base
  | chkfreq
  | chkord
  | chksize (n : SizeImm)
  | sinc
  | setcoef (f b : Idx)
  | norm (f : Idx)
  | getcoef (b f : Idx)
  | getsize (f : Idx)
  | gettype (f : Idx)
  | getwtype (f : Idx)
  | setwtype (f : Idx) (wt : WindowType)
  | conv (b f c : Idx)
  | convip (b f : Idx)
  | feq (f g : Idx)
  | fne (f g : Idx)
  | ffree (f : Idx)
  -- windowed-sinc and frequency-sampling filters
  | lpfCreate (f : Idx) (n : SizeImm) (wt : WindowType)
  | hpfCreate (f : Idx) (n : SizeImm) (wt : WindowType)
  | bpfCreate (f : Idx) (n : SizeImm) (wt : WindowType)
  | fsCreate (f b : Idx)
  | fsGetspec (b f : Idx)
  -- windows
  | winCreate (w : Idx) (n : SizeImm) (wt : WindowType)
  | winSetwtype (w : Idx) (wt : WindowType)
  | winApply (b w c : Idx)
  | winApplyip (b w : Idx)
  | winGetcoef (b w : Idx)
  | winGetsize (w : Idx)
  | winGetwtype (w : Idx)
  | winEq (w v : Idx)
  | winNe (w v : Idx)
  | winFree (w : Idx)
deriving DecidableEq, Repr

end Sys2Proof
end

