-- ==== Sys2Proof/WellFormed.lean ====
section
/-! DEFINITION. The checks a command's index operands must pass (spec 30_encoding.md R71, R73 step 4): a filter slot below `NF`, a window slot below `NW`, a buffer below `NB`. -/

namespace Sys2Proof

/-- A filter slot that exists (R73 step 4). -/
def Params.filterSlotOk (p : Params) (f : Idx) : Bool := decide (f.toNat < p.NF)

/-- A window slot that exists (R73 step 4). -/
def Params.windowSlotOk (p : Params) (w : Idx) : Bool := decide (w.toNat < p.NW)

/-- A sequence buffer that exists (R73 step 4). -/
def Params.bufferOk (p : Params) (b : Idx) : Bool := decide (b.toNat < p.NB)

/-- Every index operand names a slot or buffer that exists under these parameters (R71, R73 step 4). -/
def Instr.WellFormedIn (p : Params) : Instr → Bool
  | .chkfreq => true
  | .chkord => true
  | .chksize _ => true
  | .sinc => true
  | .setcoef f b => p.filterSlotOk f && p.bufferOk b
  | .norm f => p.filterSlotOk f
  | .getcoef b f => p.bufferOk b && p.filterSlotOk f
  | .getsize f => p.filterSlotOk f
  | .gettype f => p.filterSlotOk f
  | .getwtype f => p.filterSlotOk f
  | .setwtype f _ => p.filterSlotOk f
  | .conv b f c => p.bufferOk b && p.filterSlotOk f && p.bufferOk c
  | .convip b f => p.bufferOk b && p.filterSlotOk f
  | .feq f g => p.filterSlotOk f && p.filterSlotOk g
  | .fne f g => p.filterSlotOk f && p.filterSlotOk g
  | .ffree f => p.filterSlotOk f
  | .lpfCreate f _ _ => p.filterSlotOk f
  | .hpfCreate f _ _ => p.filterSlotOk f
  | .bpfCreate f _ _ => p.filterSlotOk f
  | .fsCreate f b => p.filterSlotOk f && p.bufferOk b
  | .fsGetspec b f => p.bufferOk b && p.filterSlotOk f
  | .winCreate w _ _ => p.windowSlotOk w
  | .winSetwtype w _ => p.windowSlotOk w
  | .winApply b w c => p.bufferOk b && p.windowSlotOk w && p.bufferOk c
  | .winApplyip b w => p.bufferOk b && p.windowSlotOk w
  | .winGetcoef b w => p.bufferOk b && p.windowSlotOk w
  | .winGetsize w => p.windowSlotOk w
  | .winGetwtype w => p.windowSlotOk w
  | .winEq w v => p.windowSlotOk w && p.windowSlotOk v
  | .winNe w v => p.windowSlotOk w && p.windowSlotOk v
  | .winFree w => p.windowSlotOk w

/-- Well-formed on this hardware. -/
def Instr.WellFormed (i : Instr) : Bool := i.WellFormedIn Config.params

end Sys2Proof
end

