-- ==== Sys2Proof/Decode.lean ====
section
/-! DEFINITION. The command word (spec 30_encoding.md R70), the total decoder of R73, which rejects by name, and after it the encoder of R75. -/

namespace Sys2Proof

/-- The bits `[lo + width - 1 : lo]` of a word as an unsigned integer (R7). -/
def field (w : Word) (lo width : Nat) : Nat := w.toNat / 2 ^ lo % 2 ^ width

/-- `OP = w[7:0]` (R70). -/
def opField (w : Word) : Nat := field w 0 8

/-- `A = w[11:8]` (R70). -/
def aField (w : Word) : Idx := BitVec.ofNat 4 (field w 8 4)

/-- `B = w[15:12]` (R70). -/
def bField (w : Word) : Idx := BitVec.ofNat 4 (field w 12 4)

/-- `C = w[19:16]` (R70). -/
def cField (w : Word) : Idx := BitVec.ofNat 4 (field w 16 4)

/-- `w[31:22]`, reserved (R70). -/
def reservedField (w : Word) : Nat := field w 22 10

/-- `N = w[63:32]` (R70, R72). -/
def nField (w : Word) : SizeImm := BitVec.ofNat 32 (field w 32 32)

/-- The code of a window type: 0 Rectangular, 1 Hamming, 2 Hanning, 3 Blackman (10_state.md R37). -/
def WindowType.code : WindowType → Nat
  | .rectangular => 0
  | .hamming => 1
  | .hanning => 2
  | .blackman => 3

/-- The window type of a 2-bit code; all four values are legal (R37, 60_exceptions.md R204). -/
def WindowType.ofCode (n : Nat) : WindowType :=
  match n with
  | 0 => .rectangular
  | 1 => .hamming
  | 2 => .hanning
  | _ => .blackman

/-- `WT = w[21:20]` (R70). -/
def wtField (w : Word) : WindowType := WindowType.ofCode (field w 20 2)

/-- The format names of R74: which of the fields A, B, C, WT, N a command uses. -/
inductive Format where
  | f0
  | fN
  | fA
  | fAB
  | fABC
  | fAW
  | fAWN
deriving DecidableEq, Repr

/-- Every field the format does not use is 0 (R71, R73 step 3). -/
def Format.unusedZero (f : Format) (w : Word) : Bool :=
  let noA := aField w == 0#4
  let noB := bField w == 0#4
  let noC := cField w == 0#4
  let noWT := wtField w == .rectangular
  let noN := nField w == 0#32
  match f with
  | .f0 => noA && noB && noC && noWT && noN
  | .fN => noA && noB && noC && noWT
  | .fA => noB && noC && noWT && noN
  | .fAB => noC && noWT && noN
  | .fABC => noWT && noN
  | .fAW => noB && noC && noN
  | .fAWN => noB && noC

/-- The `mask` column of R74 for a format. -/
def Format.mask : Format → Word
  | .f0 => 0xFFFFFFFFFFFFFFFF#64
  | .fN => 0x00000000FFFFFFFF#64
  | .fA => 0xFFFFFFFFFFFFF0FF#64
  | .fAB => 0xFFFFFFFFFFFF00FF#64
  | .fABC => 0xFFFFFFFFFFF000FF#64
  | .fAW => 0xFFFFFFFFFFCFF0FF#64
  | .fAWN => 0x00000000FFCFF0FF#64

/-- The `format` column of R74. -/
def Instr.format : Instr → Format
  | .chkfreq => .f0
  | .chkord => .f0
  | .chksize _ => .fN
  | .sinc => .f0
  | .setcoef _ _ => .fAB
  | .norm _ => .fA
  | .getcoef _ _ => .fAB
  | .getsize _ => .fA
  | .gettype _ => .fA
  | .getwtype _ => .fA
  | .setwtype _ _ => .fAW
  | .conv _ _ _ => .fABC
  | .convip _ _ => .fAB
  | .feq _ _ => .fAB
  | .fne _ _ => .fAB
  | .ffree _ => .fA
  | .lpfCreate _ _ _ => .fAWN
  | .hpfCreate _ _ _ => .fAWN
  | .bpfCreate _ _ _ => .fAWN
  | .fsCreate _ _ => .fAB
  | .fsGetspec _ _ => .fAB
  | .winCreate _ _ _ => .fAWN
  | .winSetwtype _ _ => .fAW
  | .winApply _ _ _ => .fABC
  | .winApplyip _ _ => .fAB
  | .winGetcoef _ _ => .fAB
  | .winGetsize _ => .fA
  | .winGetwtype _ => .fA
  | .winEq _ _ => .fAB
  | .winNe _ _ => .fAB
  | .winFree _ => .fA

/-- The `OP` column of R74. -/
def Instr.opcode : Instr → Nat
  | .chkfreq => 0x10
  | .chkord => 0x11
  | .chksize _ => 0x12
  | .sinc => 0x13
  | .setcoef _ _ => 0x14
  | .norm _ => 0x15
  | .getcoef _ _ => 0x16
  | .getsize _ => 0x17
  | .gettype _ => 0x18
  | .getwtype _ => 0x19
  | .setwtype _ _ => 0x1A
  | .conv _ _ _ => 0x1B
  | .convip _ _ => 0x1C
  | .feq _ _ => 0x1D
  | .fne _ _ => 0x1E
  | .ffree _ => 0x1F
  | .lpfCreate _ _ _ => 0x20
  | .hpfCreate _ _ _ => 0x21
  | .bpfCreate _ _ _ => 0x22
  | .fsCreate _ _ => 0x23
  | .fsGetspec _ _ => 0x24
  | .winCreate _ _ _ => 0x30
  | .winSetwtype _ _ => 0x31
  | .winApply _ _ _ => 0x32
  | .winApplyip _ _ => 0x33
  | .winGetcoef _ _ => 0x34
  | .winGetsize _ => 0x35
  | .winGetwtype _ => 0x36
  | .winEq _ _ => 0x37
  | .winNe _ _ => 0x38
  | .winFree _ => 0x39

/-- The command an `OP` value selects, with the operands R74's column takes from the fields `A`, `B`, `C`, `WT`, `N`; none where `OP` is not an opcode (R73 step 1, R74). -/
def selectOp (op : Nat) (a b c : Idx) (wt : WindowType) (n : SizeImm) : Option Instr :=
  match op with
  | 0x10 => some .chkfreq
  | 0x11 => some .chkord
  | 0x12 => some (.chksize n)
  | 0x13 => some .sinc
  | 0x14 => some (.setcoef a b)
  | 0x15 => some (.norm a)
  | 0x16 => some (.getcoef a b)
  | 0x17 => some (.getsize a)
  | 0x18 => some (.gettype a)
  | 0x19 => some (.getwtype a)
  | 0x1A => some (.setwtype a wt)
  | 0x1B => some (.conv a b c)
  | 0x1C => some (.convip a b)
  | 0x1D => some (.feq a b)
  | 0x1E => some (.fne a b)
  | 0x1F => some (.ffree a)
  | 0x20 => some (.lpfCreate a n wt)
  | 0x21 => some (.hpfCreate a n wt)
  | 0x22 => some (.bpfCreate a n wt)
  | 0x23 => some (.fsCreate a b)
  | 0x24 => some (.fsGetspec a b)
  | 0x30 => some (.winCreate a n wt)
  | 0x31 => some (.winSetwtype a wt)
  | 0x32 => some (.winApply a b c)
  | 0x33 => some (.winApplyip a b)
  | 0x34 => some (.winGetcoef a b)
  | 0x35 => some (.winGetsize a)
  | 0x36 => some (.winGetwtype a)
  | 0x37 => some (.winEq a b)
  | 0x38 => some (.winNe a b)
  | 0x39 => some (.winFree a)
  | _ => none

/-- Why the decoder rejects a word (R73 steps 1 to 4, R76); every reason raises IllegalCommand. -/
inductive DecodeReject where
  /-- `OP` is not one of the 31 opcodes (step 1). -/
  | undefinedOpcode
  /-- the reserved field `[31:22]` is not 0 (step 2). -/
  | reservedField
  /-- a field the command does not use is not 0 (step 3). -/
  | unusedField
  /-- an index operand is at or above its count (step 4). -/
  | indexOutOfRange
deriving DecidableEq, Repr

/-- The decode procedure of R73 under these parameters, total on 64-bit words. -/
def decodeIn (p : Params) (w : Word) : Except DecodeReject Instr :=
  match selectOp (opField w) (aField w) (bField w) (cField w) (wtField w) (nField w) with
  | none => .error .undefinedOpcode
  | some i =>
    if reservedField w ≠ 0 then .error .reservedField
    else if i.format.unusedZero w = false then .error .unusedField
    else if i.WellFormedIn p = false then .error .indexOutOfRange
    else .ok i

/-- The decoder of this hardware. -/
def decode (w : Word) : Except DecodeReject Instr := decodeIn Config.params w

/-- The encoding function of R75 on raw field values. -/
def pack (op : Nat) (a b c : Idx) (wt : WindowType) (n : SizeImm) : Word :=
  BitVec.ofNat 64 (op + a.toNat * 2 ^ 8 + b.toNat * 2 ^ 12 + c.toNat * 2 ^ 16 + wt.code * 2 ^ 20 + n.toNat * 2 ^ 32)

/-- The fields `(A, B, C, WT, N)` of a command, every unused one 0 (R74's operand column, R75). -/
def Instr.fields : Instr → Idx × Idx × Idx × WindowType × SizeImm
  | .chkfreq => (0, 0, 0, .rectangular, 0)
  | .chkord => (0, 0, 0, .rectangular, 0)
  | .chksize n => (0, 0, 0, .rectangular, n)
  | .sinc => (0, 0, 0, .rectangular, 0)
  | .setcoef f b => (f, b, 0, .rectangular, 0)
  | .norm f => (f, 0, 0, .rectangular, 0)
  | .getcoef b f => (b, f, 0, .rectangular, 0)
  | .getsize f => (f, 0, 0, .rectangular, 0)
  | .gettype f => (f, 0, 0, .rectangular, 0)
  | .getwtype f => (f, 0, 0, .rectangular, 0)
  | .setwtype f wt => (f, 0, 0, wt, 0)
  | .conv b f c => (b, f, c, .rectangular, 0)
  | .convip b f => (b, f, 0, .rectangular, 0)
  | .feq f g => (f, g, 0, .rectangular, 0)
  | .fne f g => (f, g, 0, .rectangular, 0)
  | .ffree f => (f, 0, 0, .rectangular, 0)
  | .lpfCreate f n wt => (f, 0, 0, wt, n)
  | .hpfCreate f n wt => (f, 0, 0, wt, n)
  | .bpfCreate f n wt => (f, 0, 0, wt, n)
  | .fsCreate f b => (f, b, 0, .rectangular, 0)
  | .fsGetspec b f => (b, f, 0, .rectangular, 0)
  | .winCreate w n wt => (w, 0, 0, wt, n)
  | .winSetwtype w wt => (w, 0, 0, wt, 0)
  | .winApply b w c => (b, w, c, .rectangular, 0)
  | .winApplyip b w => (b, w, 0, .rectangular, 0)
  | .winGetcoef b w => (b, w, 0, .rectangular, 0)
  | .winGetsize w => (w, 0, 0, .rectangular, 0)
  | .winGetwtype w => (w, 0, 0, .rectangular, 0)
  | .winEq w v => (w, v, 0, .rectangular, 0)
  | .winNe w v => (w, v, 0, .rectangular, 0)
  | .winFree w => (w, 0, 0, .rectangular, 0)

/-- The command word of a command (R75). -/
def encode (i : Instr) : Word :=
  match i.fields with
  | (a, b, c, wt, n) => pack i.opcode a b c wt n

/-- The command word a table row of `nbits` bits stands for: the bits above `nbits` are 0 (log 7). -/
def tableWord (nbits w : Nat) : Word := BitVec.ofNat 64 (w % 2 ^ nbits)

/-- What the decoder reads from a word of spec/opcode_table.json. -/
def decodeTableWord (nbits w : Nat) : Option Instr :=
  match decode (tableWord nbits w) with
  | .ok i => some i
  | .error _ => none

end Sys2Proof
end

