-- ==== Sys2Proof/Machine/Binary64.lean ====
section
/-! DEFINITION. `NUM = binary64` (spec 00_scope.md R12 to R14): IEEE 754 binary64 on 64-bit words, computed exactly in integers and rounded once. Computed NaNs and the values of sine and cosine are free values of Config (logs 4, 5). -/

namespace Sys2Proof.Machine

namespace Fp

/-- Bit 63 (R13). -/
def sign (w : Word) : Bool := decide (2 ^ 63 ≤ w.toNat)

/-- Bits 62:0, the encoding without its sign. -/
def magBits (w : Word) : Nat := w.toNat % 2 ^ 63

/-- Bits 62:52, the biased exponent (R13). -/
def expBits (w : Word) : Nat := magBits w / 2 ^ 52

/-- Bits 51:0, the fraction (R13). -/
def fracBits (w : Word) : Nat := w.toNat % 2 ^ 52

/-- Exponent all ones and a nonzero fraction. -/
def isNaN (w : Word) : Bool := expBits w == 2047 && fracBits w != 0

/-- Exponent all ones and a zero fraction. -/
def isInf (w : Word) : Bool := expBits w == 2047 && fracBits w == 0

/-- Neither a NaN nor an infinity. -/
def isFinite (w : Word) : Bool := expBits w != 2047

/-- A zero of either sign. -/
def isZero (w : Word) : Bool := magBits w == 0

/-- The absolute value of a finite number in units of 2^-1074, the least positive number; every finite binary64 value is a whole number of them. -/
def magUnits (w : Word) : Nat :=
  if expBits w = 0 then fracBits w else (2 ^ 52 + fracBits w) * 2 ^ (expBits w - 1)

/-- A finite number in units of 2^-1074. -/
def units (w : Word) : Int := if sign w then -(magUnits w : Int) else magUnits w

/-- A word from its sign and its bits 62:0. -/
def ofSignMag (s : Bool) (m : Nat) : Word := BitVec.ofNat 64 (if s then 2 ^ 63 + m else m)

/-- `p / q` rounded to the nearest integer, ties to even. -/
def roundHalfEven (p q : Nat) : Nat :=
  let n := p / q
  let r := p % q
  if 2 * r < q then n
  else if q < 2 * r then n + 1
  else if n % 2 = 0 then n else n + 1

/-- Bits 62:0 of the binary64 number nearest to `p / q` units of 2^-1074, ties to even; an overflow gives infinity (R12). The spacing in the binade of `p / q` is `2^k` units, and the encoding of `n · 2^k` units there is `k · 2^52 + n`. -/
def roundMag (p q : Nat) : Nat :=
  let k := Nat.log2 (p / q) - 52
  min (k * 2 ^ 52 + roundHalfEven p (q * 2 ^ k)) (2047 * 2 ^ 52)

/-- `±p / q` units of 2^-1074 rounded to binary64. -/
def round (s : Bool) (p q : Nat) : Word := ofSignMag s (roundMag p q)

/-- An infinity of the given sign. -/
def inf (s : Bool) : Word := ofSignMag s (2047 * 2 ^ 52)

/-- A zero of the given sign. -/
def zero (s : Bool) : Word := ofSignMag s 0

/-- The NaN an operation computes: its sign and payload are free, and it is a NaN (93_implementation_defined.md U6; log 4). -/
def nan (op : NumOp) (a b : Word) : Word :=
  let p := Config.nanPayload op a b
  ofSignMag (sign p) (2047 * 2 ^ 52 + (if fracBits p = 0 then 1 else fracBits p))

/-- Negation flips the sign bit (R12). -/
def neg (a : Word) : Word := ofSignMag (!sign a) (magBits a)

/-- Absolute value clears the sign bit (R12). -/
def abs (a : Word) : Word := ofSignMag false (magBits a)

/-- The position of a non-NaN word in the order of the numbers; the two zeros have one position. -/
def order (a : Word) : Int := if sign a then -(magBits a : Int) else magBits a

/-- IEEE 754 `<`: false with a NaN (R12). -/
def lt (a b : Word) : Bool := !isNaN a && !isNaN b && decide (order a < order b)

/-- IEEE 754 `=`: false with a NaN, `+0 = -0` (R12). -/
def eq (a b : Word) : Bool := !isNaN a && !isNaN b && decide (order a = order b)

/-- The sum of two finite numbers: exact, then rounded; an exact zero is `+0` unless both operands are negative (log 6). -/
def addFinite (a b : Word) : Word :=
  let z := units a + units b
  if z = 0 then zero (sign a && sign b) else round (decide (z < 0)) z.natAbs 1

/-- IEEE 754 addition (R12; log 6). -/
def add (a b : Word) : Word :=
  if isNaN a || isNaN b then nan .add a b
  else if isInf a then
    if isInf b && (sign a != sign b) then nan .add a b else a
  else if isInf b then b
  else addFinite a b

/-- IEEE 754 subtraction: the sum with the negated second operand (R12; log 6). -/
def sub (a b : Word) : Word :=
  if isNaN a || isNaN b then nan .sub a b
  else if isInf a then
    if isInf b && (sign a == sign b) then nan .sub a b else a
  else if isInf b then neg b
  else addFinite a (neg b)

/-- IEEE 754 multiplication (R12; log 6). -/
def mul (a b : Word) : Word :=
  let s := sign a != sign b
  if isNaN a || isNaN b then nan .mul a b
  else if isInf a then
    if isZero b then nan .mul a b else inf s
  else if isInf b then
    if isZero a then nan .mul a b else inf s
  else round s (magUnits a * magUnits b) (2 ^ 1074)

/-- IEEE 754 division (R12; log 6). -/
def div (a b : Word) : Word :=
  let s := sign a != sign b
  if isNaN a || isNaN b then nan .div a b
  else if isInf a then
    if isInf b then nan .div a b else inf s
  else if isInf b then zero s
  else if isZero b then
    if isZero a then nan .div a b else inf s
  else round s (magUnits a * 2 ^ 1074) (magUnits b)

/-- An integer converted to binary64; exact below 2^53 (R12). -/
def ofInt (z : Int) : Word :=
  if z = 0 then zero false else round (decide (z < 0)) (z.natAbs * 2 ^ 1074) 1

/-- The encodings of the source's literals (R14). -/
def lit : Literal → Word
  | .eps => 0x3D719799812DEA11#64
  | .half => 0x3FE0000000000000#64
  | .one => 0x3FF0000000000000#64
  | .two => 0x4000000000000000#64
  | .hammingA => 0x3FE147AE147AE148#64
  | .hammingB => 0x3FDD70A3D70A3D71#64
  | .blackmanA => 0x3FDAE147AE147AE1#64
  | .blackmanB => 0x3FE0000000000000#64
  | .blackmanC => 0x3FB47AE147AE147B#64

/-- Sine: a free function on finite numbers; of an infinity or a NaN it is a NaN (40_fir_base.md R103; log 5). -/
def sin (a : Word) : Word := if isFinite a then Config.sin64 a else nan .sin a 0#64

/-- Cosine: a free function on finite numbers; of an infinity or a NaN it is a NaN (log 5). -/
def cos (a : Word) : Word := if isFinite a then Config.cos64 a else nan .cos a 0#64

/-- `PI` (R12). -/
def pi : Word := 0x400921FB54442D18#64

end Fp

/-- `NUM = binary64`, the numerics of this hardware (R8, R12). A cell, a word and a number are the same 64 bits, so every crossing is the identity (R13). -/
def binary64 : Numerics Word Word :=
  { ofInt := Fp.ofInt
    lit := Fp.lit
    add := Fp.add
    sub := Fp.sub
    mul := Fp.mul
    div := Fp.div
    neg := Fp.neg
    abs := Fp.abs
    lt := Fp.lt
    eq := Fp.eq
    sin := Fp.sin
    cos := Fp.cos
    pi := Fp.pi
    ofBits := fun w => some w
    toBits := fun a => a
    toWord := fun w => some w
    ofWord := fun w => w }

end Sys2Proof.Machine
end

