-- ==== Sys2Proof/Machine/Hardware.lean ====
section
/-! DEFINITION. The configuration of this hardware (spec 00_scope.md R5). -/

namespace Sys2Proof.Machine

/-- This hardware: the parameters of R5's table, `NUM = binary64` and `EPS = lit(1e-12)`, with the free values of logs 3 and 8. -/
abbrev hardware : Configuration Word Word :=
  { toParams := Config.params
    num := binary64
    eps := binary64.lit .eps
    unwritten := Config.unwrittenCell
    baseRegion := Config.baseRegion }

end Sys2Proof.Machine
end

