-- ==== Sys2Proof/Machine/State.lean ====
section
/-! DEFINITION. The state of FIRCORE (spec 10_state.md R20 to R43), the host's transactions (20_memory.md R50), and why a step can stop: over any configuration (00_scope.md R5), and `State` for this hardware's. Plain data throughout. -/

namespace Sys2Proof.Machine

/-- A status code of 60_exceptions.md R200. The reserved codes 7 and 12 to 15 have no constructor: they are never produced (R25, 93_implementation_defined.md U9). -/
inductive Status where
  | ok
  | invalidSize
  | mismatchedSize
  | invalidParameterValue
  | invalidParameterOrder
  | normalisationFailed
  /-- allocated, raised by no command (R204) -/
  | invalidType
  | illegalCommand
  | noObject
  | wrongVariant
  | capacityExceeded
deriving DecidableEq, Repr

/-- FilterType, the tag of a filter object (R36). -/
inductive FilterType where
  | windowLowpass
  | windowHighpass
  | windowBandpass
  | frequencySampling
deriving DecidableEq, Repr

/-- The variant parameters of a filter object; the variant is the filter's type (R34, R36). -/
inductive FilterParams (α : Type) where
  | lowpass (fc : α)
  | highpass (fc : α)
  | bandpass (fl fh : α)
  | freqSampling (spectrum : List α)
deriving DecidableEq, Repr

/-- A filter object (R34); its size is the length of `coeff`. -/
structure Filter (α : Type) where
  wtype : WindowType
  coeff : List α
  params : FilterParams α
deriving DecidableEq, Repr

/-- A window object (R38); its size is the length of `coeff`. -/
structure Window (α : Type) where
  wtype : WindowType
  coeff : List α
deriving DecidableEq, Repr

/-- The written elements of one buffer (R40, R41): pairs (element index, cell), indices strictly rising. An element that is not listed is unwritten (log 1, log 2). -/
abbrev Memory (Cell : Type) := List (Nat × Cell)

/-- A sequence buffer `B[k]` (R40). -/
structure Buffer (Cell : Type) where
  len : Nat
  mem : Memory Cell
deriving DecidableEq, Repr

/-- A buffer after reset: length 0, every element unwritten (R43). -/
def Buffer.reset {Cell : Type} : Buffer Cell := { len := 0, mem := [] }

/-- A host transaction (20_memory.md R50), and its byte-mapped form for a platform that has one (R60, R61, log 8). -/
inductive Transaction (Cell : Type) where
  | regRead (idx : Nat)
  | regWrite (idx : Nat) (v : Cell)
  | bufRead (k i : Nat)
  | bufWrite (k i : Nat) (v : Cell)
  | reset
  /-- read `width` bytes at a byte address -/
  | busRead (addr width : Nat)
  /-- write the bytes, the first at the lowest address -/
  | busWrite (addr : Nat) (bytes : List Byte)
deriving DecidableEq, Repr

/-- What a host read returned (70_reset_and_hazards.md R238). -/
inductive Response (Cell : Type) where
  | cell (v : Cell)
  | bytes (bs : List Byte)
deriving DecidableEq, Repr

/-- The state of a machine of configuration `C`. `pending`, `responses` and `epoch` are the model's own (log 3, log 7); every other field is FIRCORE's. -/
structure State.Of {Cell α : Type} (C : Configuration Cell α) where
  /-- `STATUS.ERR` (R22, R25) -/
  err : Status
  /-- `RES` (R28) -/
  res : Cell
  /-- `ARG0` (R27) -/
  arg0 : Cell
  /-- `ARG1` (R27) -/
  arg1 : Cell
  /-- `F[0..NF-1]`; `none` is `empty` (R34) -/
  filters : Vector (Option (Filter α)) C.NF
  /-- `W[0..NW-1]`; `none` is `empty` (R38) -/
  windows : Vector (Option (Window α)) C.NW
  /-- `B[0..NB-1]` (R40) -/
  buffers : Vector (Buffer Cell) C.NB
  /-- the host's transactions not yet issued, the next one first (R21, R238) -/
  pending : List (Transaction Cell)
  /-- what the host's reads returned, oldest first (R238) -/
  responses : List (Response Cell)
  /-- how many `Reset` transactions there were: which free value an unwritten element reads as (log 3) -/
  epoch : Nat
deriving DecidableEq, Repr

/-- The state of this hardware: every cell and every number is a 64-bit word. -/
abbrev State : Type := State.Of hardware

/-- FIRCORE has no fatal error: an error is a status code, and no sequence of commands stops the machine (60_exceptions.md R209, R214). So there is no fault to raise. -/
inductive Fault where
deriving DecidableEq, Repr

/-- Why the model gives a step no meaning. -/
inductive Refusal where
  /-- Raised by `exec`'s arm of a command that has no meaning yet. Safe: nothing can be proved of such a step. -/
  | notModelled (mnemonic : String)
  /-- Raised by a command that would read a sequence of which an element was never written since reset (10_state.md R41, 20_memory.md R58, 93_implementation_defined.md U1; log 2). Safe: no claim holds of a step that is refused. -/
  | unwrittenElement
  /-- Raised by a command that reads a word-holding cell as a number, with `NUM = real` (00_scope.md R13). It cannot occur on this hardware, where every word is a number. Safe. -/
  | notANumber
  /-- Raised by a write of a number where the port takes a word (`CMD`, `BLEN[k]`) and by a byte-mapped read of one, with `NUM = real` (log 14). It cannot occur on this hardware. Safe. -/
  | notAWord
  /-- Raised by a byte-mapped access that is not one naturally aligned 8-byte access (20_memory.md R57, U2; log 8). Safe. -/
  | unalignedAccess
  /-- Raised by a byte-mapped access outside FIRCORE's region, which belongs to the platform, and by any where `MAXSIG` is unbounded, which has no byte map (R61; log 8). Safe. -/
  | outsideRegion
deriving DecidableEq, Repr

/-- The three outcomes of a step of a machine of configuration `C`. -/
abbrev OutcomeOf {Cell α : Type} (C : Configuration Cell α) := Host.Outcome (State.Of C) Fault Refusal

/-- The three outcomes of a step of this hardware. -/
abbrev Outcome := OutcomeOf hardware

/-- The state after reset (R43, 70_reset_and_hazards.md R230). `ARG0` and `ARG1` hold the number 0 (R27, R232; log 14), `RES` the word 0. -/
def State.Of.reset {Cell α : Type} (C : Configuration Cell α) : State.Of C :=
  { err := .ok
    res := C.num.ofWord 0#64
    arg0 := C.num.toBits (C.num.ofInt 0)
    arg1 := C.num.toBits (C.num.ofInt 0)
    filters := Vector.replicate C.NF none
    windows := Vector.replicate C.NW none
    buffers := Vector.replicate C.NB Buffer.reset
    pending := []
    responses := []
    epoch := 0 }

/-- This hardware after reset: `RES`, `ARG0` and `ARG1` are 64 zero bits (R43). -/
def State.reset : State := State.Of.reset hardware

end Sys2Proof.Machine
end

