-- ==== Sys2Proof/Machine/Flags.lean ====
section
/-! DEFINITION. The status flag of FIRCORE: `code(E)` of spec 60_exceptions.md R200, the `STATUS` register word (10_state.md R25), and the tag codes that commands report (R36, R37). There are no other flags (R22). And the test of a capacity (60_exceptions.md R208). -/

namespace Sys2Proof.Machine

/-- `code(E)` (R200). -/
def Status.code : Status → BitVec 4
  | .ok => 0#4
  | .invalidSize => 1#4
  | .mismatchedSize => 2#4
  | .invalidParameterValue => 3#4
  | .invalidParameterOrder => 4#4
  | .normalisationFailed => 5#4
  | .invalidType => 6#4
  | .illegalCommand => 8#4
  | .noObject => 9#4
  | .wrongVariant => 10#4
  | .capacityExceeded => 11#4

/-- The `STATUS` register: `ERR` in bits `[3:0]`, 0 above (R25). -/
def Status.word (e : Status) : Word := e.code.zeroExtend 64

/-- The code of a filter type (R36). -/
def FilterType.code : FilterType → Nat
  | .windowLowpass => 0
  | .windowHighpass => 1
  | .windowBandpass => 2
  | .frequencySampling => 3

/-- The type tag of a filter's parameters: each variant carries its own (R34, R36; log 12). -/
def FilterParams.type {α : Type} : FilterParams α → FilterType
  | .lowpass _ => .windowLowpass
  | .highpass _ => .windowHighpass
  | .bandpass _ _ => .windowBandpass
  | .freqSampling _ => .frequencySampling

/-- A count is within a capacity; nothing exceeds an unbounded one (R5). -/
def within (capacity : Option Nat) (n : Nat) : Bool :=
  match capacity with
  | none => true
  | some m => decide (n ≤ m)

/-- `zext_64` of a natural number that fits (00_scope.md R7, R17). -/
def zext64 (n : Nat) : Word := BitVec.ofNat 64 n

end Sys2Proof.Machine
end

