-- ==== Sys2Proof/Machine/Formulas.lean ====
section
/-! DEFINITION. The pure functions of the spec, over any numerics (00_scope.md R8 to R10): validation (40_fir_base.md R100 to R102), sinc (R103), convolution (R110), the coefficient formulas (41_window_filters.md R140 to R143, R147; 42_frequency_sampling.md R161), the windows (43_window.md R171) and the two equalities (R121, R182). Each applies the operations in the order of its pseudocode (R10). -/

namespace Sys2Proof.Machine

variable {Cell α : Type} (N : Numerics Cell α)

/-- `checkSize(n)`: none if it passes (R100). -/
def checkSize (n : Nat) : Option Status :=
  if n % 2 = 1 ∧ 3 ≤ n then none else some .invalidSize

/-- `checkFrequencyRange(fc)` (R101). -/
def checkFrequencyRange (fc : α) : Option Status :=
  if N.lt (N.ofInt 0) fc && N.lt fc (N.lit .half) then none else some .invalidParameterValue

/-- `checkFrequencyOrder(low, high)` (R102). -/
def checkFrequencyOrder (low high : α) : Option Status :=
  if N.lt low high then none else some .invalidParameterOrder

/-- A count against a capacity: `N > MAXN`, or a result's length against `MAXSIG` (60_exceptions.md R208). An unbounded capacity is never exceeded. -/
def checkCapacity (capacity : Option Nat) (n : Nat) : Option Status :=
  if within capacity n then none else some .capacityExceeded

/-- `sinc(x)` with the threshold `EPS` (R103, R5). -/
def sinc (eps x : α) : α :=
  if N.lt (N.abs x) eps then N.lit .one
  else N.div (N.sin (N.mul N.pi x)) (N.mul N.pi x)

/-- One update of R110's inner loop: `out[k] <- add(out[k], mul(x, y))`. -/
def convUpdate (out : List α) (k : Nat) (x y : α) : List α :=
  out.modify k fun o => N.add o (N.mul x y)

/-- R110's inner loop for one signal sample `x = s[n]`: all `m`, ascending. -/
def convRow (c : List α) (out : List α) (n : Nat) (x : α) : List α :=
  c.zipIdx.foldl (fun out ym => convUpdate N out (n + ym.2) x ym.1) out

/-- `conv(s, c)` (R110). -/
def conv (s c : List α) : List α :=
  s.zipIdx.foldl (fun out xn => convRow N c out xn.2 xn.1)
    (List.replicate (s.length + c.length - 1) (N.ofInt 0))

/-- The sum of `NORM`, ascending from 0 (R106). -/
def coeffSum (c : List α) : α := c.foldl N.add (N.ofInt 0)

/-- The centre index `M = (N - 1) div 2` (R141). -/
def centre (size : Nat) : Nat := (size - 1) / 2

/-- `ofInt(n - M)`: the offset of sample `n` from the centre (R141). -/
def offset (size n : Nat) : α := N.ofInt ((n : Int) - (centre size : Int))

/-- Sample `n` of `lowpass(fc, N)` (R141). -/
def lowpassSample (eps fc : α) (size n : Nat) : α :=
  let a := N.mul (N.lit .two) fc
  N.mul a (sinc N eps (N.mul a (offset N size n)))

/-- `lowpass(fc, N)` (R141). -/
def lowpass (eps fc : α) (size : Nat) : List α :=
  (List.range size).map (lowpassSample N eps fc size)

/-- Sample `n` of `highpass(fc, N)` (R142). -/
def highpassSample (eps fc : α) (size n : Nat) : α :=
  let a := N.mul (N.lit .two) fc
  let h := N.mul (N.neg a) (sinc N eps (N.mul a (offset N size n)))
  if n = centre size then N.add h (N.lit .one) else h

/-- `highpass(fc, N)` (R142). -/
def highpass (eps fc : α) (size : Nat) : List α :=
  (List.range size).map (highpassSample N eps fc size)

/-- Sample `n` of `bandpass(fl, fh, N)` (R143). -/
def bandpassSample (eps fl fh : α) (size n : Nat) : α :=
  let a := N.mul (N.lit .two) fh
  let b := N.mul (N.lit .two) fl
  N.sub (N.mul a (sinc N eps (N.mul a (offset N size n))))
    (N.mul b (sinc N eps (N.mul b (offset N size n))))

/-- `bandpass(fl, fh, N)` (R143). -/
def bandpass (eps fl fh : α) (size : Nat) : List α :=
  (List.range size).map (bandpassSample N eps fl fh size)

/-- `2π` as R161 and R171 write it: `mul(lit(2), PI)`. -/
def twoPi : α := N.mul (N.lit .two) N.pi

/-- The angle of R161 for term `k` and sample `n`. -/
def freqAngle (size k n : Nat) : α :=
  N.div (N.mul (N.mul (twoPi N) (N.ofInt (k : Int))) (offset N size n)) (N.ofInt (size : Int))

/-- The accumulated sum of R161 over `S[1], …, S[K-1]`, ascending from 0. -/
def freqAcc (rest : List α) (size n : Nat) : α :=
  (rest.zipIdx 1).foldl (fun acc xk => N.add acc (N.mul xk.1 (N.cos (freqAngle N size xk.2 n))))
    (N.ofInt 0)

/-- `freqsamp(S)` (R161), for a spectrum of at least one sample; of the empty one, which no filter holds, the empty sequence (log 9). -/
def freqsamp : List α → List α
  | [] => []
  | s0 :: rest =>
    let size := 2 * (rest.length + 1) + 1
    (List.range size).map fun n =>
      N.div (N.add s0 (N.mul (N.lit .two) (freqAcc N rest size n))) (N.ofInt (size : Int))

/-- The angle `x = 2πn/(N-1)` of R171. -/
def windowAngle (size n : Nat) : α :=
  N.div (N.mul (twoPi N) (N.ofInt (n : Int))) (N.ofInt ((size : Int) - 1))

/-- Sample `n` of `window(t, N)` (R171). -/
def windowSample (t : WindowType) (size n : Nat) : α :=
  let x := windowAngle N size n
  match t with
  | .rectangular => N.lit .one
  | .hamming => N.sub (N.lit .hammingA) (N.mul (N.lit .hammingB) (N.cos x))
  | .hanning => N.mul (N.lit .half) (N.sub (N.lit .one) (N.cos x))
  | .blackman =>
    N.add (N.sub (N.lit .blackmanA) (N.mul (N.lit .blackmanB) (N.cos x)))
      (N.mul (N.lit .blackmanC) (N.cos (N.mul (N.lit .two) x)))

/-- `window(t, N)` (R171). -/
def window (t : WindowType) (size : Nat) : List α :=
  (List.range size).map (windowSample N t size)

/-- The element-wise product of two sequences of one length, the first operand's elements first (R147, R174). -/
def pointwise (xs ys : List α) : List α := List.zipWith N.mul xs ys

/-- `shaped(ideal, t)`, the alternative `WSHAPE = multiply` (R147). -/
def shaped (ideal : List α) (t : WindowType) : List α :=
  pointwise N ideal (window N t ideal.length)

/-- `synth` of a windowed variant, by `WSHAPE` (R140, R147). -/
def shapeBy (shape : WShape) (ideal : List α) (t : WindowType) : List α :=
  match shape with
  | .metadata => ideal
  | .multiply => shaped N ideal t

/-- `a` and `b` are equal in length and element by element under `NUM.eq` (R121). -/
def coeffEq (a b : List α) : Bool :=
  a.length == b.length && (List.zip a b).all fun p => N.eq p.1 p.2

/-- `synth(v)` of a filter with these parameters, window type and size (R140, R147). -/
def synth (C : Configuration Cell α) (p : FilterParams α) (t : WindowType) (size : Nat) : List α :=
  match p with
  | .lowpass fc => shapeBy C.num C.WSHAPE (lowpass C.num C.eps fc size) t
  | .highpass fc => shapeBy C.num C.WSHAPE (highpass C.num C.eps fc size) t
  | .bandpass fl fh => shapeBy C.num C.WSHAPE (bandpass C.num C.eps fl fh size) t
  | .freqSampling spectrum => freqsamp C.num spectrum

/-- `feq(a, b)`: only the coefficients are compared (R121). -/
def feq (a b : Filter α) : Bool := coeffEq N a.coeff b.coeff

/-- `weq(a, b)`: the types and the sizes are compared, no coefficient (R182). -/
def weq (a b : Window α) : Bool := a.wtype == b.wtype && a.coeff.length == b.coeff.length

end Sys2Proof.Machine
end

