-- ==== Sys2Proof/Machine/Ops.lean ====
section
/-! DEFINITION. The named operations over FIRCORE's state: buffer elements, buffers, slots, registers, and the two ways a command ends, an error among them (spec 60_exceptions.md R209). -/

namespace Sys2Proof.Machine

/-! ## Buffer elements (R40, R41) -/

section
variable {Cell : Type}

/-- The canonical form of a buffer's written elements: indices strictly rising, so none twice. -/
abbrev Memory.wf (m : Memory Cell) : Prop := (m.map Prod.fst).Pairwise (· < ·)

/-- The cell of element `i`; none if it is unwritten (R41). -/
def Memory.load : Memory Cell → Nat → Option Cell
  | [], _ => none
  | (j, w) :: m, i => if i = j then some w else Memory.load m i

/-- `mem[i] <- v`, which marks the element written (R41, R55). -/
def Memory.store : Memory Cell → Nat → Cell → Memory Cell
  | [], i, v => [(i, v)]
  | (j, w) :: m, i, v =>
    if i < j then (i, v) :: (j, w) :: m
    else if i = j then (i, v) :: m
    else (j, w) :: Memory.store m i v

/-- `mem[i + n] <- vs[n]` for every `n < |vs|` (R59). -/
def Memory.storeFrom : Memory Cell → Nat → List Cell → Memory Cell
  | m, _, [] => m
  | m, i, v :: vs => Memory.storeFrom (Memory.store m i v) (i + 1) vs

/-- `[mem[i], …, mem[i + n - 1]]`; none if one of them is unwritten (R41, R58). -/
def Memory.readFrom (m : Memory Cell) : Nat → Nat → Option (List Cell)
  | _, 0 => some []
  | i, n + 1 =>
    match Memory.load m i, Memory.readFrom m (i + 1) n with
    | some v, some vs => some (v :: vs)
    | _, _ => none

end

variable {Cell α : Type} {C : Configuration Cell α}

/-- The cells of a sequence read as numbers; none if one of them holds a word that is no number (R13, R58). -/
def numbers (N : Numerics Cell α) : List Cell → Option (List α)
  | [] => some []
  | c :: cs =>
    match N.ofBits c, numbers N cs with
    | some x, some xs => some (x :: xs)
    | _, _ => none

/-! ## Slots and buffers (R34, R38, R40) -/

/-- `F[f]`; none if the slot is `empty` (R34). -/
def State.Of.filterAt (s : State.Of C) (f : Idx) : Option (Filter α) := (s.filters[f.toNat]?).join

/-- `F[f] <- v` (R39). -/
def State.Of.setFilter (s : State.Of C) (f : Idx) (v : Option (Filter α)) : State.Of C :=
  { s with filters := s.filters.setIfInBounds f.toNat v }

/-- `W[w]`; none if the slot is `empty` (R38). -/
def State.Of.windowAt (s : State.Of C) (w : Idx) : Option (Window α) := (s.windows[w.toNat]?).join

/-- `W[w] <- v` (R39). -/
def State.Of.setWindow (s : State.Of C) (w : Idx) (v : Option (Window α)) : State.Of C :=
  { s with windows := s.windows.setIfInBounds w.toNat v }

/-- `B[k]` (R40). A buffer that does not exist reads as one after reset: the decoder lets no command name it, and the host port asks first (R56, R73). -/
def State.Of.bufferAt (s : State.Of C) (k : Nat) : Buffer Cell := (s.buffers[k]?).getD Buffer.reset

/-- `B[k] <- b` as a whole record. -/
def State.Of.setBuffer (s : State.Of C) (k : Nat) (b : Buffer Cell) : State.Of C :=
  { s with buffers := s.buffers.setIfInBounds k b }

/-- `BLEN[k]`, as a command reads it (R32). -/
def State.Of.bufLen (s : State.Of C) (b : Idx) : Nat := (s.bufferAt b.toNat).len

/-- The cells of the sequence that `B[b]` holds; none if one of them is unwritten (R40, R41). -/
def State.Of.cells (s : State.Of C) (b : Idx) : Option (List Cell) :=
  Memory.readFrom (s.bufferAt b.toNat).mem 0 (s.bufLen b)

/-- `seq(B[b])`; none if an element of it is unwritten, or holds a word that is no number (R58, R41, R13). -/
def State.Of.seq (s : State.Of C) (b : Idx) : Option (List α) :=
  (s.cells b).bind (numbers C.num)

/-- `B[b] <- xs` for a sequence of numbers: elements `0 .. |xs| - 1` and the length; the elements above keep their value (R59). -/
def State.Of.writeBuf (s : State.Of C) (b : Idx) (xs : List α) : State.Of C :=
  s.setBuffer b.toNat
    { len := xs.length, mem := Memory.storeFrom (s.bufferAt b.toNat).mem 0 (xs.map C.num.toBits) }

/-- `RES <- v` (R28). -/
def State.Of.setRes (s : State.Of C) (v : Cell) : State.Of C := { s with res := v }

/-- `RES <- zext_64(n)`: an integer result is a word (R28, R13). -/
def State.Of.setResNat (s : State.Of C) (n : Nat) : State.Of C := s.setRes (C.num.ofWord (zext64 n))

/-- `STATUS.ERR <- e` (R22). -/
def State.Of.setErr (s : State.Of C) (e : Status) : State.Of C := { s with err := e }

/-! ## The end of a command -/

/-- `raise E` (R7, R209): the status code is written and nothing else changes; no control is transferred. -/
def raise (e : Status) (s : State.Of C) : OutcomeOf C := .next (s.setErr e)

/-- A command that completes: `STATUS.ERR <- 0` together with the effects of `s` (R7, R209). There is nothing to return from (R214). -/
def complete (s : State.Of C) : OutcomeOf C := .next (s.setErr .ok)

/-! ## Registers as the host sees them (10_state.md R23) -/

/-- The bit `CAP0[24]` of a `WSHAPE` (R29). -/
def wshapeBit : WShape → Nat
  | .metadata => 0
  | .multiply => 1

/-- `CAP0` (R29). -/
def cap0 (p : Params) : Word :=
  BitVec.ofNat 64 (p.NF + p.NW * 2 ^ 8 + p.NB * 2 ^ 16 + wshapeBit p.WSHAPE * 2 ^ 24)

/-- `CAP1` (R30): an unbounded capacity reads `0xFFFFFFFF`. -/
def cap1 (p : Params) : Word :=
  BitVec.ofNat 64 (p.MAXN.getD 0xFFFFFFFF + p.MAXSIG.getD 0xFFFFFFFF * 2 ^ 32)

/-- `RegRead(idx)` (20_memory.md R51, 10_state.md R23, R33). -/
def State.Of.regRead (s : State.Of C) (idx : Nat) : Cell :=
  if idx = 1 then C.num.ofWord s.err.word
  else if idx = 2 then s.res
  else if idx = 3 then s.arg0
  else if idx = 4 then s.arg1
  else if idx = 5 then C.num.ofWord (cap0 C.toParams)
  else if idx = 6 then C.num.ofWord (cap1 C.toParams)
  else if idx = 7 then C.num.ofWord Config.ID
  else if 16 ≤ idx ∧ idx < 16 + C.NB then C.num.ofWord (zext64 (s.bufferAt (idx - 16)).len)
  else C.num.ofWord 0#64

/-- `BLEN[k] <- n`: a length above `MAXSIG` is ignored (R32, R52). -/
def State.Of.setLen (s : State.Of C) (k n : Nat) : State.Of C :=
  if within C.MAXSIG n then s.setBuffer k { s.bufferAt k with len := n } else s

/-- `RegWrite(idx, v)` for the indices whose write stores a cell, and for those it leaves alone (R52, R33). -/
def State.Of.setArg (s : State.Of C) (idx : Nat) (v : Cell) : State.Of C :=
  if idx = 3 then { s with arg0 := v }
  else if idx = 4 then { s with arg1 := v }
  else s

/-! ## Buffer elements as the host sees them -/

/-- Element `i` of buffer `k` exists: `k < NB` and `i < MAXSIG` (R54, R56). -/
def Params.hasElement (p : Params) (k i : Nat) : Bool := decide (k < p.NB) && within p.MAXSIG (i + 1)

/-- `BufRead(k, i)` (R54, R56); an unwritten element reads as a free value (R41, U7; log 3). -/
def State.Of.bufRead (s : State.Of C) (k i : Nat) : Cell :=
  if Params.hasElement C.toParams k i then
    (Memory.load (s.bufferAt k).mem i).getD (C.unwritten s.epoch k i)
  else C.num.ofWord 0#64

/-- `BufWrite(k, i, v)` (R55, R56). -/
def State.Of.bufWrite (s : State.Of C) (k i : Nat) (v : Cell) : State.Of C :=
  if Params.hasElement C.toParams k i then
    s.setBuffer k { s.bufferAt k with mem := Memory.store (s.bufferAt k).mem i v }
  else s

/-- The `Reset` transaction (70_reset_and_hazards.md R230): every piece of FIRCORE's state to its reset value. The host's list and what it has read are not FIRCORE's (log 7), and what unwritten elements read as is free anew (log 3). -/
def State.Of.resetInput (s : State.Of C) : State.Of C :=
  { State.Of.reset C with pending := s.pending, responses := s.responses, epoch := s.epoch + 1 }

/-- A read's value is handed to the host (R238). -/
def State.Of.respond (s : State.Of C) (r : Response Cell) : State.Of C := { s with responses := s.responses ++ [r] }

end Sys2Proof.Machine
end

