-- ==== Sys2Proof/Machine/Operands.lean ====
section
/-! DEFINITION. How a command obtains its operands (spec 30_encoding.md R72, 20_memory.md R58) and how it ends early: the shared shapes every command's meaning is written with, in the order of its rule's pseudocode (60_exceptions.md R213). -/

namespace Sys2Proof.Machine

variable {Cell α : Type} {C : Configuration Cell α}

/-- The filter object a command reads or modifies; `NoObject` if the slot is empty (R206). -/
def withFilter (s : State.Of C) (f : Idx) (k : Filter α → OutcomeOf C) : OutcomeOf C :=
  match s.filterAt f with
  | none => raise .noObject s
  | some v => k v

/-- The window object a command reads or modifies; `NoObject` if the slot is empty (R206). -/
def withWindow (s : State.Of C) (w : Idx) (k : Window α → OutcomeOf C) : OutcomeOf C :=
  match s.windowAt w with
  | none => raise .noObject s
  | some v => k v

/-- A validation: its error is raised, else the command goes on (R213). -/
def validate (s : State.Of C) (v : Option Status) (k : OutcomeOf C) : OutcomeOf C :=
  match v with
  | some e => raise e s
  | none => k

/-- A test whose failure raises an error. -/
def require (s : State.Of C) (c : Bool) (e : Status) (k : OutcomeOf C) : OutcomeOf C :=
  if c then k else raise e s

/-- `ofBits(cell)` of a register a command reads as a number; refused if the cell holds a word that is none (R13). -/
def withNum (c : Cell) (k : α → OutcomeOf C) : OutcomeOf C :=
  match C.num.ofBits c with
  | none => .refused .notANumber
  | some x => k x

/-- `s <- seq(B[b])`, where the pseudocode of a command reads it. The command is refused if one of its elements is unwritten (R41, R58, U1; log 2), or holds a word that is no number (R13). -/
def withSeq (s : State.Of C) (b : Idx) (k : List α → OutcomeOf C) : OutcomeOf C :=
  match s.cells b with
  | none => .refused .unwrittenElement
  | some cs =>
    match numbers C.num cs with
    | none => .refused .notANumber
    | some xs => k xs

end Sys2Proof.Machine
end

