-- ==== Sys2Proof/Machine/FirBase.lean ====
section
/-! DEFINITION. The commands of the FIR base (spec 40_fir_base.md R104 to R120). -/

namespace Sys2Proof.Machine

variable {Cell α : Type} {C : Configuration Cell α}

/-- `CHKFREQ` (R118). -/
def execChkfreq (s : State.Of C) : OutcomeOf C :=
  withNum s.arg0 fun fc => validate s (checkFrequencyRange C.num fc) (complete s)

/-- `CHKORD` (R119). -/
def execChkord (s : State.Of C) : OutcomeOf C :=
  withNum s.arg0 fun low => withNum s.arg1 fun high =>
    validate s (checkFrequencyOrder C.num low high) (complete s)

/-- `CHKSIZE n` (R120). -/
def execChksize (n : SizeImm) (s : State.Of C) : OutcomeOf C :=
  validate s (checkSize n.toNat) (complete s)

/-- `SINC` (R104). -/
def execSinc (s : State.Of C) : OutcomeOf C :=
  withNum s.arg0 fun x => complete (s.setRes (C.num.toBits (sinc C.num C.eps x)))

/-- `SETCOEF fA, bB` (R105). -/
def execSetcoef (f b : Idx) (s : State.Of C) : OutcomeOf C :=
  withFilter s f fun v =>
  withSeq s b fun xs =>
  require s (xs.length == v.coeff.length) .mismatchedSize <|
    complete (s.setFilter f (some { v with coeff := xs }))

/-- `NORM fA` (R106). -/
def execNorm (f : Idx) (s : State.Of C) : OutcomeOf C :=
  withFilter s f fun v =>
    let sum := coeffSum C.num v.coeff
    require s (!C.num.lt (C.num.abs sum) C.eps) .normalisationFailed <|
      complete (s.setFilter f (some { v with coeff := v.coeff.map fun c => C.num.div c sum }))

/-- `GETCOEF bA, fB` (R107). -/
def execGetcoef (b f : Idx) (s : State.Of C) : OutcomeOf C :=
  withFilter s f fun v => complete (s.writeBuf b v.coeff)

/-- `GETSIZE fA` (R108). -/
def execGetsize (f : Idx) (s : State.Of C) : OutcomeOf C :=
  withFilter s f fun v => complete (s.setResNat v.coeff.length)

/-- `GETTYPE fA` (R116). -/
def execGettype (f : Idx) (s : State.Of C) : OutcomeOf C :=
  withFilter s f fun v => complete (s.setResNat v.params.type.code)

/-- `GETWTYPE fA` (R117). -/
def execGetwtype (f : Idx) (s : State.Of C) : OutcomeOf C :=
  withFilter s f fun v => complete (s.setResNat v.wtype.code)

/-- `SETWTYPE fA, wt` (R109). -/
def execSetwtype (f : Idx) (wt : WindowType) (s : State.Of C) : OutcomeOf C :=
  withFilter s f fun v =>
    complete (s.setFilter f
      (some { v with wtype := wt, coeff := synth C v.params wt v.coeff.length }))

/-- The part `CONV` and `CONVIP` share, in the order of their pseudocode: the convolution of buffer `c` with filter `f`, computed whole (R111, R112). -/
def withConv (s : State.Of C) (f c : Idx) (k : List α → OutcomeOf C) : OutcomeOf C :=
  withFilter s f fun v =>
  withSeq s c fun xs =>
  require s (xs.length != 0 && v.coeff.length != 0) .invalidSize <|
  validate s (checkCapacity C.MAXSIG (xs.length + v.coeff.length - 1)) <|
    k (conv C.num xs v.coeff)

/-- `CONV bA, fB, bC` (R111). -/
def execConv (b f c : Idx) (s : State.Of C) : OutcomeOf C :=
  withConv s f c fun ys => complete (s.writeBuf b ys)

/-- `CONVIP bA, fB` (R112). -/
def execConvip (b f : Idx) (s : State.Of C) : OutcomeOf C :=
  withConv s f b fun ys => complete ((s.writeBuf b ys).setResNat ys.length)

/-- `FEQ fA, fB` (R113). -/
def execFeq (f g : Idx) (s : State.Of C) : OutcomeOf C :=
  withFilter s f fun u => withFilter s g fun v => complete (s.setResNat (feq C.num u v).toNat)

/-- `FNE fA, fB` (R114). -/
def execFne (f g : Idx) (s : State.Of C) : OutcomeOf C :=
  withFilter s f fun u => withFilter s g fun v => complete (s.setResNat (!feq C.num u v).toNat)

/-- `FFREE fA` (R115). -/
def execFfree (f : Idx) (s : State.Of C) : OutcomeOf C :=
  withFilter s f fun _ => complete (s.setFilter f none)

end Sys2Proof.Machine
end

