-- ==== Sys2Proof/Machine/FrequencySampling.lean ====
section
/-! DEFINITION. The frequency-sampling commands (spec 42_frequency_sampling.md R162, R163). -/

namespace Sys2Proof.Machine

variable {Cell α : Type} {C : Configuration Cell α}

/-- `FS.CREATE fA, bB` (R162): the size is `2K + 1`. -/
def execFsCreate (f b : Idx) (s : State.Of C) : OutcomeOf C :=
  withSeq s b fun spectrum =>
  validate s (checkSize (2 * spectrum.length + 1)) <|
  validate s (checkCapacity C.MAXN (2 * spectrum.length + 1)) <|
    complete (s.setFilter f
      (some { wtype := .rectangular, coeff := freqsamp C.num spectrum, params := .freqSampling spectrum }))

/-- `FS.GETSPEC bA, fB` (R163). -/
def execFsGetspec (b f : Idx) (s : State.Of C) : OutcomeOf C :=
  withFilter s f fun v =>
    match v.params with
    | .freqSampling spectrum => complete (s.writeBuf b spectrum)
    | .lowpass _ => raise .wrongVariant s
    | .highpass _ => raise .wrongVariant s
    | .bandpass _ _ => raise .wrongVariant s

end Sys2Proof.Machine
end

