-- ==== Sys2Proof/Machine/WindowCommands.lean ====
section
/-! DEFINITION. The window commands (spec 43_window.md R172 to R181). -/

namespace Sys2Proof.Machine

variable {Cell α : Type} {C : Configuration Cell α}

/-- `WIN.CREATE wA, n, wt` (R172). -/
def execWinCreate (w : Idx) (n : SizeImm) (wt : WindowType) (s : State.Of C) : OutcomeOf C :=
  validate s (checkSize n.toNat) <|
  validate s (checkCapacity C.MAXN n.toNat) <|
    complete (s.setWindow w (some { wtype := wt, coeff := window C.num wt n.toNat }))

/-- `WIN.SETWTYPE wA, wt` (R173). -/
def execWinSetwtype (w : Idx) (wt : WindowType) (s : State.Of C) : OutcomeOf C :=
  withWindow s w fun v =>
    complete (s.setWindow w (some { wtype := wt, coeff := window C.num wt v.coeff.length }))

/-- The part `WIN.APPLY` and `WIN.APPLYIP` share, in the order of their pseudocode: the signal of buffer `c` times window `w`, signal first (R174, R175). -/
def withApply (s : State.Of C) (w c : Idx) (k : List α → OutcomeOf C) : OutcomeOf C :=
  withWindow s w fun v =>
  withSeq s c fun xs =>
  require s (xs.length == v.coeff.length) .mismatchedSize <|
    k (pointwise C.num xs v.coeff)

/-- `WIN.APPLY bA, wB, bC` (R174). -/
def execWinApply (b w c : Idx) (s : State.Of C) : OutcomeOf C :=
  withApply s w c fun ys => complete (s.writeBuf b ys)

/-- `WIN.APPLYIP bA, wB` (R175). -/
def execWinApplyip (b w : Idx) (s : State.Of C) : OutcomeOf C :=
  withApply s w b fun ys => complete ((s.writeBuf b ys).setResNat ys.length)

/-- `WIN.GETCOEF bA, wB` (R176). -/
def execWinGetcoef (b w : Idx) (s : State.Of C) : OutcomeOf C :=
  withWindow s w fun v => complete (s.writeBuf b v.coeff)

/-- `WIN.GETSIZE wA` (R177). -/
def execWinGetsize (w : Idx) (s : State.Of C) : OutcomeOf C :=
  withWindow s w fun v => complete (s.setResNat v.coeff.length)

/-- `WIN.GETWTYPE wA` (R178). -/
def execWinGetwtype (w : Idx) (s : State.Of C) : OutcomeOf C :=
  withWindow s w fun v => complete (s.setResNat v.wtype.code)

/-- `WIN.EQ wA, wB` (R179). -/
def execWinEq (w v : Idx) (s : State.Of C) : OutcomeOf C :=
  withWindow s w fun x => withWindow s v fun y => complete (s.setResNat (weq x y).toNat)

/-- `WIN.NE wA, wB` (R180). -/
def execWinNe (w v : Idx) (s : State.Of C) : OutcomeOf C :=
  withWindow s w fun x => withWindow s v fun y => complete (s.setResNat (!weq x y).toNat)

/-- `WIN.FREE wA` (R181). -/
def execWinFree (w : Idx) (s : State.Of C) : OutcomeOf C :=
  withWindow s w fun _ => complete (s.setWindow w none)

end Sys2Proof.Machine
end

