-- ==== Sys2Proof/Machine/WindowFilters.lean ====
section
/-! DEFINITION. The windowed-sinc create commands (spec 41_window_filters.md R144 to R146, R149). -/

namespace Sys2Proof.Machine

variable {Cell α : Type} {C : Configuration Cell α}

/-- The end of a create: the slot receives the complete object, replacing any it held (R149, 10_state.md R39). -/
def createFilter (s : State.Of C) (f : Idx) (p : FilterParams α) (wt : WindowType) (size : Nat) : OutcomeOf C :=
  complete (s.setFilter f (some { wtype := wt, coeff := synth C p wt size, params := p }))

/-- `LPF.CREATE` and `HPF.CREATE` but for the parameters they store: the checks in order (R144, R145, R149). -/
def createOneCutoff (s : State.Of C) (f : Idx) (n : SizeImm) (wt : WindowType) (p : α → FilterParams α) : OutcomeOf C :=
  withNum s.arg0 fun fc =>
  validate s (checkSize n.toNat) <|
  validate s (checkFrequencyRange C.num fc) <|
  validate s (checkCapacity C.MAXN n.toNat) <|
    createFilter s f (p fc) wt n.toNat

/-- `LPF.CREATE fA, n, wt` (R144). -/
def execLpfCreate (f : Idx) (n : SizeImm) (wt : WindowType) (s : State.Of C) : OutcomeOf C :=
  createOneCutoff s f n wt .lowpass

/-- `HPF.CREATE fA, n, wt` (R145). -/
def execHpfCreate (f : Idx) (n : SizeImm) (wt : WindowType) (s : State.Of C) : OutcomeOf C :=
  createOneCutoff s f n wt .highpass

/-- `BPF.CREATE fA, n, wt` (R146). -/
def execBpfCreate (f : Idx) (n : SizeImm) (wt : WindowType) (s : State.Of C) : OutcomeOf C :=
  withNum s.arg0 fun fl => withNum s.arg1 fun fh =>
  validate s (checkSize n.toNat) <|
  validate s (checkFrequencyRange C.num fl) <|
  validate s (checkFrequencyRange C.num fh) <|
  validate s (checkFrequencyOrder C.num fl fh) <|
  validate s (checkCapacity C.MAXN n.toNat) <|
    createFilter s f (.bandpass fl fh) wt n.toNat

end Sys2Proof.Machine
end

