-- ==== Sys2Proof/Machine/Dispatch.lean ====
section
/-! DEFINITION. One arm per command (spec 30_encoding.md R74): its meaning, called by its full name. -/

namespace Sys2Proof.Machine

def exec (i : Instr) (s : State) : Host.Outcome State Fault Refusal :=
  match i with
  | .chkfreq => Sys2Proof.Machine.execChkfreq s
  | .chkord => Sys2Proof.Machine.execChkord s
  | .chksize n => Sys2Proof.Machine.execChksize n s
  | .sinc => Sys2Proof.Machine.execSinc s
  | .setcoef f b => Sys2Proof.Machine.execSetcoef f b s
  | .norm f => Sys2Proof.Machine.execNorm f s
  | .getcoef b f => Sys2Proof.Machine.execGetcoef b f s
  | .getsize f => Sys2Proof.Machine.execGetsize f s
  | .gettype f => Sys2Proof.Machine.execGettype f s
  | .getwtype f => Sys2Proof.Machine.execGetwtype f s
  | .setwtype f wt => Sys2Proof.Machine.execSetwtype f wt s
  | .conv b f c => Sys2Proof.Machine.execConv b f c s
  | .convip b f => Sys2Proof.Machine.execConvip b f s
  | .feq f g => Sys2Proof.Machine.execFeq f g s
  | .fne f g => Sys2Proof.Machine.execFne f g s
  | .ffree f => Sys2Proof.Machine.execFfree f s
  | .lpfCreate f n wt => Sys2Proof.Machine.execLpfCreate f n wt s
  | .hpfCreate f n wt => Sys2Proof.Machine.execHpfCreate f n wt s
  | .bpfCreate f n wt => Sys2Proof.Machine.execBpfCreate f n wt s
  | .fsCreate f b => Sys2Proof.Machine.execFsCreate f b s
  | .fsGetspec b f => Sys2Proof.Machine.execFsGetspec b f s
  | .winCreate w n wt => Sys2Proof.Machine.execWinCreate w n wt s
  | .winSetwtype w wt => Sys2Proof.Machine.execWinSetwtype w wt s
  | .winApply b w c => Sys2Proof.Machine.execWinApply b w c s
  | .winApplyip b w => Sys2Proof.Machine.execWinApplyip b w s
  | .winGetcoef b w => Sys2Proof.Machine.execWinGetcoef b w s
  | .winGetsize w => Sys2Proof.Machine.execWinGetsize w s
  | .winGetwtype w => Sys2Proof.Machine.execWinGetwtype w s
  | .winEq w v => Sys2Proof.Machine.execWinEq w v s
  | .winNe w v => Sys2Proof.Machine.execWinNe w v s
  | .winFree w => Sys2Proof.Machine.execWinFree w s

end Sys2Proof.Machine
end

