-- ==== Sys2Proof/Machine/HostPort.lean ====
section
/-! DEFINITION. The host port (spec 20_memory.md R50 to R61): what one transaction does, the write to `CMD` that executes a command (10_state.md R24), and the byte-addressed map. How a command is executed is an argument, `run`. -/

/-! ## Where the byte map lies (R61) -/

namespace Sys2Proof

/-- `STRIDE`: the smallest power of two not less than `MAXSIG` (R61); none where `MAXSIG` is unbounded, for then there is no byte map. -/
def Params.stride (p : Params) : Option Nat :=
  p.MAXSIG.map fun m => 2 ^ (Nat.log2 (m - 1) + 1)

/-- `BUFOFF`: `8 · 16 · STRIDE` (R61). -/
def bufOff (stride : Nat) : Nat := 8 * 16 * stride

/-- The size in bytes of the region of R61: `2 · BUFOFF`. -/
def regionBytes (stride : Nat) : Nat := 2 * bufOff stride

/-- `BASE` (R61): naturally aligned. -/
def Configuration.base {Cell α : Type} (C : Configuration Cell α) (stride : Nat) : Nat :=
  C.baseRegion * regionBytes stride

/-- `BASE` of this hardware (R61): a naturally aligned byte address the platform chooses. -/
def Config.BASE : Nat := Config.baseRegion * regionBytes 4096

end Sys2Proof

namespace Sys2Proof.Machine

/-! ## Bytes and byte addresses (R60, R61) -/

/-- The bytes of a word, bits `[7:0]` at the lowest address (R60). -/
def wordBytes (w : Word) : List Byte :=
  (List.range 8).map fun j => BitVec.ofNat 8 (w.toNat / 2 ^ (8 * j))

/-- The value of a byte sequence, the first byte least significant (R60). -/
def bytesNat : List Byte → Nat
  | [] => 0
  | b :: bs => b.toNat + 256 * bytesNat bs

/-- The word whose bytes these are (R60). -/
def bytesWord (bs : List Byte) : Word := BitVec.ofNat 64 (bytesNat bs)

/-- What a byte offset from `BASE` names (R61). -/
inductive BusTarget where
  | register (idx : Nat)
  | reserved
  | element (k i : Nat)
deriving DecidableEq, Repr

/-- The byte-address map of R61, for an offset that is a multiple of 8 inside the region. -/
def busTarget (stride offset : Nat) : BusTarget :=
  if offset < 8 * 32 then .register (offset / 8)
  else if offset < bufOff stride then .reserved
  else .element ((offset - bufOff stride) / 8 / stride) ((offset - bufOff stride) / 8 % stride)

variable {Cell α : Type} {C : Configuration Cell α}

/-- A byte-mapped access of `width` bytes at `addr`: outside the region it is the platform's, with an unbounded `MAXSIG` there is no region, and anything but a naturally aligned 8-byte access has no meaning (R57, R61, U2; log 8). -/
def onBus (addr width : Nat) (k : BusTarget → OutcomeOf C) : OutcomeOf C :=
  match C.stride with
  | none => .refused .outsideRegion
  | some stride =>
    if addr < C.base stride ∨ C.base stride + regionBytes stride ≤ addr then .refused .outsideRegion
    else if width ≠ 8 ∨ addr % 8 ≠ 0 then .refused .unalignedAccess
    else k (busTarget stride (addr - C.base stride))

/-! ## Transactions (R50) -/

/-- How a command is executed. -/
abbrev Executor {Cell α : Type} (C : Configuration Cell α) := Instr → State.Of C → OutcomeOf C

/-- A cell where the port takes a 64-bit word; refused if it holds a number that is none (log 14). -/
def withWord (v : Cell) (k : Word → OutcomeOf C) : OutcomeOf C :=
  match C.num.toWord v with
  | none => .refused .notAWord
  | some w => k w

/-- A write of `w` to `CMD`: the command `w` encodes is executed to its end; a word the decoder rejects raises IllegalCommand (R24, R73, R76, 60_exceptions.md R205). -/
def command (run : Executor C) (w : Word) (s : State.Of C) : OutcomeOf C :=
  match decodeIn C.toParams w with
  | .error _ => raise .illegalCommand s
  | .ok i => run i s

/-- `RegWrite(idx, v)` (R52, R53): to `CMD` it executes a command, to `BLEN[k]` it stores a length. -/
def writeRegister (run : Executor C) (idx : Nat) (v : Cell) (s : State.Of C) : OutcomeOf C :=
  if idx = 0 then withWord v fun w => command run w s
  else if 16 ≤ idx ∧ idx < 16 + C.NB then withWord v fun w => .next (s.setLen (idx - 16) w.toNat)
  else .next (s.setArg idx v)

/-- The cell a byte-mapped read returns (R61): a reserved offset reads 0. -/
def busCell (s : State.Of C) : BusTarget → Cell
  | .register idx => s.regRead idx
  | .reserved => C.num.ofWord 0#64
  | .element k i => s.bufRead k i

/-- A byte-mapped write (R61): a reserved offset ignores it. -/
def busWrite (run : Executor C) (s : State.Of C) (v : Cell) : BusTarget → OutcomeOf C
  | .register idx => writeRegister run idx v s
  | .reserved => .next s
  | .element k i => .next (s.bufWrite k i v)

/-- What one transaction does (R50). -/
def perform (run : Executor C) (t : Transaction Cell) (s : State.Of C) : OutcomeOf C :=
  match t with
  | .regRead idx => .next (s.respond (.cell (s.regRead idx)))
  | .regWrite idx v => writeRegister run idx v s
  | .bufRead k i => .next (s.respond (.cell (s.bufRead k i)))
  | .bufWrite k i v => .next (s.bufWrite k i v)
  | .reset => .next s.resetInput
  | .busRead addr width => onBus addr width fun t =>
      withWord (busCell s t) fun w => .next (s.respond (.bytes (wordBytes w)))
  | .busWrite addr bytes => onBus addr bytes.length fun t =>
      busWrite run s (C.num.ofWord (bytesWord bytes)) t

/-- One step: the host's next transaction, performed to its end (R62, 70_reset_and_hazards.md R233). With no transaction left FIRCORE is idle and keeps its state (60_exceptions.md R216, R238; log 7). -/
def stepWith (run : Executor C) (s : State.Of C) : OutcomeOf C :=
  match s.pending with
  | [] => .next s
  | t :: rest => perform run t { s with pending := rest }

end Sys2Proof.Machine
end

