-- ==== Sys2Proof/Machine/Step.lean ====
section
/-! DEFINITION. One step of this hardware. -/

namespace Sys2Proof.Machine

/-- One step: the host's next transaction, a command of it executed by `exec` (spec 70_reset_and_hazards.md R233). -/
def step (s : State) : Host.Outcome State Fault Refusal := stepWith exec s

/-- The host is about to write this word of the opcode table to `CMD`: the very next step executes it (log 7). -/
def State.withFetchWord (s : State) (nbits w : Nat) : State :=
  { s with pending := .regWrite 0 (tableWord nbits w) :: s.pending }

end Sys2Proof.Machine
end

