-- ==== Sys2Proof/Machine/Assembly.lean ====
section
/-! DEFINITION. The assembly of spec 30_encoding.md R78 and the pseudo-instructions of R79, as the host transactions they stand for. -/

namespace Sys2Proof.Machine

/-- A pseudo-instruction: the create overload without a window type (R79). -/
inductive Pseudo where
  | lpfCreate (f : Idx) (n : SizeImm)
  | hpfCreate (f : Idx) (n : SizeImm)
  | bpfCreate (f : Idx) (n : SizeImm)
  | winCreate (w : Idx) (n : SizeImm)
deriving DecidableEq, Repr

/-- The expansion of R79: window type Rectangular. -/
def Pseudo.expand : Pseudo → Instr
  | .lpfCreate f n => .lpfCreate f n .rectangular
  | .hpfCreate f n => .hpfCreate f n .rectangular
  | .bpfCreate f n => .bpfCreate f n .rectangular
  | .winCreate w n => .winCreate w n .rectangular

/-- A line of R78's assembly, its numbers already as the cells they are stored as. -/
inductive AsmLine (Cell : Type) where
  | command (i : Instr)
  | pseudo (p : Pseudo)
  | wrArg0 (v : Cell)
  | wrArg1 (v : Cell)
  | wrBlen (k : Nat) (n : Nat)
  | rd (idx : Nat)
  | bw (k i : Nat) (v : Cell)
  | br (k i : Nat)
  | load (k : Nat) (vs : List Cell)
deriving DecidableEq, Repr

variable {Cell α : Type}

/-- The host transactions a line stands for (R78, R79); `LOAD bk, [v0, …]` writes the elements, then the length. -/
def AsmLine.expand (line : AsmLine Cell) (N : Numerics Cell α) : List (Transaction Cell) :=
  match line with
  | .command i => [.regWrite 0 (N.ofWord (encode i))]
  | .pseudo p => [.regWrite 0 (N.ofWord (encode p.expand))]
  | .wrArg0 v => [.regWrite 3 v]
  | .wrArg1 v => [.regWrite 4 v]
  | .wrBlen k n => [.regWrite (16 + k) (N.ofWord (BitVec.ofNat 64 n))]
  | .rd idx => [.regRead idx]
  | .bw k i v => [.bufWrite k i v]
  | .br k i => [.bufRead k i]
  | .load k vs =>
    vs.zipIdx.map (fun vi => .bufWrite k vi.2 vi.1) ++
      [.regWrite (16 + k) (N.ofWord (BitVec.ofNat 64 vs.length))]

/-- The transactions of a program: its lines in order (R78, 70_reset_and_hazards.md R238). -/
def assemble (lines : List (AsmLine Cell)) (N : Numerics Cell α) : List (Transaction Cell) :=
  lines.flatMap fun line => line.expand N

end Sys2Proof.Machine
end

