-- ==== Sys2Proof/Machine/RealNumerics.lean ====
section
/-! DEFINITION. `NUM = real` (spec 00_scope.md R11, R13): the exact reference instance of the numerics, its cells, and the machine configuration over it. -/

namespace Sys2Proof.Machine

/-- A cell with `NUM = real`: a 64-bit word, for an integer result, or a number (R13). -/
inductive RealCell where
  | word (w : Word)
  | num (x : ℝ)
deriving Inhabited

/-- The number a cell holds; a word is none (R13). -/
def RealCell.ofBits : RealCell → Option ℝ
  | .word _ => none
  | .num x => some x

/-- The word a cell holds; a number is none (log 14). -/
def RealCell.toWord : RealCell → Option Word
  | .word w => some w
  | .num _ => none

/-- The decimal text of a literal as the source prints it: (digits, decimal places) (R14). -/
def Literal.decimal : Literal → Nat × Nat
  | .eps => (1, 12)
  | .half => (5, 1)
  | .one => (10, 1)
  | .two => (2, 0)
  | .hammingA => (54, 2)
  | .hammingB => (46, 2)
  | .blackmanA => (42, 2)
  | .blackmanB => (50, 2)
  | .blackmanC => (8, 2)

open Classical in
/-- The quotient of two real numbers. R9 calls `div` total and R11 exact, and neither gives a value at a zero divisor: that one is a free value (log 13). No rule divides by zero (R16). -/
noncomputable def realDiv (a b : ℝ) : ℝ := if b = 0 then Config.realDivByZero a else a / b

open Classical in
/-- `NUM = real`: every operation is the exact mathematical one (R11); the crossings are the injection and the projection of a cell's two kinds (R13). -/
noncomputable def realNum : Numerics RealCell ℝ :=
  { ofInt := fun z => (z : ℝ)
    lit := fun l => ((Literal.decimal l).1 : ℝ) / 10 ^ (Literal.decimal l).2
    add := fun a b => a + b
    sub := fun a b => a - b
    mul := fun a b => a * b
    div := realDiv
    neg := fun a => -a
    abs := fun a => |a|
    lt := fun a b => decide (a < b)
    eq := fun a b => decide (a = b)
    sin := Real.sin
    cos := Real.cos
    pi := Real.pi
    ofBits := RealCell.ofBits
    toBits := .num
    toWord := RealCell.toWord
    ofWord := .word }

/-- FREE VALUE (log 3): what an unwritten element reads as to the host with `NUM = real`. -/
noncomputable opaque unwrittenRealCell : Nat → Nat → Nat → RealCell

/-- A machine with `NUM = real` and these parameters (R5, R11, R13): its registers and buffer elements hold numbers. -/
noncomputable def realConfiguration (p : Params) : Configuration RealCell ℝ :=
  { toParams := p
    num := realNum
    eps := realNum.lit .eps
    unwritten := unwrittenRealCell
    baseRegion := Config.baseRegion }

end Sys2Proof.Machine
end

