-- ==== Sys2Proof/Machine/EveryConfiguration.lean ====
section
/-! DEFINITION. The machine of any configuration (spec 00_scope.md R5), so that a claim can quantify over the parameters, `NUM` among them: the same meanings as this hardware's `exec`, which is `execOf` at `hardware`. -/

namespace Sys2Proof.Machine

variable {Cell α : Type} {C : Configuration Cell α}

/-- Every command of 30_encoding.md R74 in a machine of configuration `C`. -/
def execOf (i : Instr) (s : State.Of C) : OutcomeOf C :=
  match i with
  | .chkfreq => execChkfreq s
  | .chkord => execChkord s
  | .chksize n => execChksize n s
  | .sinc => execSinc s
  | .setcoef f b => execSetcoef f b s
  | .norm f => execNorm f s
  | .getcoef b f => execGetcoef b f s
  | .getsize f => execGetsize f s
  | .gettype f => execGettype f s
  | .getwtype f => execGetwtype f s
  | .setwtype f wt => execSetwtype f wt s
  | .conv b f c => execConv b f c s
  | .convip b f => execConvip b f s
  | .feq f g => execFeq f g s
  | .fne f g => execFne f g s
  | .ffree f => execFfree f s
  | .lpfCreate f n wt => execLpfCreate f n wt s
  | .hpfCreate f n wt => execHpfCreate f n wt s
  | .bpfCreate f n wt => execBpfCreate f n wt s
  | .fsCreate f b => execFsCreate f b s
  | .fsGetspec b f => execFsGetspec b f s
  | .winCreate w n wt => execWinCreate w n wt s
  | .winSetwtype w wt => execWinSetwtype w wt s
  | .winApply b w c => execWinApply b w c s
  | .winApplyip b w => execWinApplyip b w s
  | .winGetcoef b w => execWinGetcoef b w s
  | .winGetsize w => execWinGetsize w s
  | .winGetwtype w => execWinGetwtype w s
  | .winEq w v => execWinEq w v s
  | .winNe w v => execWinNe w v s
  | .winFree w => execWinFree w s

/-- One step of a machine of configuration `C`. -/
def stepOf (s : State.Of C) : OutcomeOf C := stepWith execOf s

/-- The machine of configuration `C`; that of this hardware is `Sys2Proof.core`. -/
def machineOf (C : Configuration Cell α) : Host.Core :=
  { State := State.Of C
    Fault := Fault
    Refusal := Refusal
    step := stepOf
    reset := State.Of.reset C }

/-- The machine with `NUM = real` and these parameters (R5, R11, R13). -/
noncomputable def realMachine (p : Params) : Host.Core := machineOf (realConfiguration p)

end Sys2Proof.Machine
end

