-- ==== Sys2Proof/Machine/NamedProperties.lean ====
section
/-! DEFINITION. The named properties of `NUM` (spec 00_scope.md R15), over any numerics. A claim that needs one takes it as a premise. -/

namespace Sys2Proof.Numerics

variable {Cell α : Type} (N : Numerics Cell α)

/-- One number: equal, or NaNs both, which are the numbers that do not equal themselves. The payload of a computed NaN is open (93_implementation_defined.md U6), so the `=` of R15 asks for no payload (log 15). -/
def Same (a b : α) : Prop := a = b ∨ N.eq a a = false ∧ N.eq b b = false

/-- A finite number: its difference from itself is 0, which neither an infinity's nor a NaN's is (log 15). -/
def Finite (a : α) : Prop := N.eq (N.sub a a) (N.ofInt 0) = true

/-- `SinOdd` (R15). -/
def SinOdd : Prop := ∀ t, N.Same (N.sin (N.neg t)) (N.neg (N.sin t))

/-- `CosEven` (R15). -/
def CosEven : Prop := ∀ t, N.Same (N.cos (N.neg t)) (N.cos t)

/-- `CosZero` (R15). -/
def CosZero : Prop := N.cos (N.ofInt 0) = N.lit .one

/-- `CosTwoPiN3` (R15): the cosines of `2π·2/2` and of `2π·1/2`. -/
def CosTwoPiN3 : Prop :=
  N.cos (N.div (N.mul (N.mul (N.lit .two) N.pi) (N.ofInt 2)) (N.ofInt 2)) = N.lit .one ∧
    N.cos (N.div (N.mul (N.mul (N.lit .two) N.pi) (N.ofInt 1)) (N.ofInt 2)) = N.neg (N.lit .one)

/-- `MulOne` (R15). -/
def MulOne : Prop := ∀ a, N.Same (N.mul a (N.lit .one)) a

/-- `DivSelf` (R15). -/
def DivSelf : Prop := ∀ a, N.Finite a → N.eq a (N.ofInt 0) = false → N.div a a = N.lit .one

/-- `AddZero` (R15): the sum is the number, but that the sign of a zero may differ. -/
def AddZero : Prop :=
  ∀ a, N.Same (N.add (N.ofInt 0) a) a ∨
    N.eq (N.add (N.ofInt 0) a) (N.ofInt 0) = true ∧ N.eq a (N.ofInt 0) = true

end Sys2Proof.Numerics
end

