-- ==== Sys2Proof/Safety.lean ====
section
/-! DEFINITION. What a well-formed state is (the invariants of spec 10_state.md R32, R35, R38, R41 and 60_exceptions.md R204), a safe run, and the frames in whose terms statements say what a command leaves unchanged. -/

namespace Sys2Proof.Machine

variable {Cell α : Type}

/-- A size a filter or window may have (R35 item 1, R38). -/
def SizeOk (p : Params) (n : Nat) : Prop := n % 2 = 1 ∧ 3 ≤ n ∧ within p.MAXN n = true

/-- A cutoff lies strictly inside (0, 0.5) (R35 item 2). -/
def CutoffOk (N : Numerics Cell α) (c : α) : Prop :=
  N.lt (N.ofInt 0) c = true ∧ N.lt c (N.lit .half) = true

/-- The parameters of a filter of this size (R35 items 1 to 3). -/
def ParamsOk (N : Numerics Cell α) (size : Nat) : FilterParams α → Prop
  | .lowpass fc => CutoffOk N fc
  | .highpass fc => CutoffOk N fc
  | .bandpass fl fh => CutoffOk N fl ∧ CutoffOk N fh ∧ N.lt fl fh = true
  | .freqSampling spectrum => 1 ≤ spectrum.length ∧ size = 2 * spectrum.length + 1

/-- The invariants of a filter object (R35 items 1 to 4). -/
def FilterOk (C : Configuration Cell α) (v : Filter α) : Prop :=
  SizeOk C.toParams v.coeff.length ∧ ParamsOk C.num v.coeff.length v.params

/-- The invariants of a window object (R38): its coefficients are always those of its type and size. -/
def WindowOk (C : Configuration Cell α) (v : Window α) : Prop :=
  SizeOk C.toParams v.coeff.length ∧ v.coeff = window C.num v.wtype v.coeff.length

/-- The invariants of a buffer: its length is at most `MAXSIG` (R32, R40), its written elements are in canonical form and are elements that exist. -/
def BufferOk (p : Params) (b : Buffer Cell) : Prop :=
  within p.MAXSIG b.len = true ∧ Memory.wf b.mem ∧ ∀ c ∈ b.mem, within p.MAXSIG (c.1 + 1) = true

variable {C : Configuration Cell α}

/-- The invariant of every reachable state. -/
structure State.Of.Inv (s : State.Of C) : Prop where
  status : s.err ≠ .invalidType
  filters : ∀ f v, s.filterAt f = some v → FilterOk C v
  windows : ∀ w v, s.windowAt w = some v → WindowOk C v
  buffers : ∀ k, BufferOk C.toParams (s.bufferAt k)

/-- A run of `n` steps of this hardware is safe if it ends in a state, neither in a fault nor in a refusal, and that state is well-formed. -/
def SafeRun (n : Nat) (s : State) : Prop := ∃ t : State, Sys2Proof.core.run n s = .next t ∧ t.Inv

/-- Buffer `b` holds the sequence of cells `xs`: its length is that of `xs` and each element below it is written with its cell (R40, R59). -/
def BufferHolds (t : State.Of C) (b : Idx) (xs : List Cell) : Prop :=
  t.bufLen b = xs.length ∧ ∀ i, i < xs.length → Memory.load (t.bufferAt b.toNat).mem i = xs[i]?

/-- What a command can write besides `STATUS.ERR`: the **Writes** entry of its rule. -/
inductive Dest where
  | statusOnly
  | res
  | filter (f : Idx)
  | window (w : Idx)
  | buffer (b : Idx)
  | bufferAndRes (b : Idx)
deriving DecidableEq, Repr

/-- The **Writes** entry of each command's rule (R104 to R120, R144 to R146, R162, R163, R172 to R181). -/
def writesOf : Instr → Dest
  | .chkfreq => .statusOnly
  | .chkord => .statusOnly
  | .chksize _ => .statusOnly
  | .sinc => .res
  | .setcoef f _ => .filter f
  | .norm f => .filter f
  | .getcoef b _ => .buffer b
  | .getsize _ => .res
  | .gettype _ => .res
  | .getwtype _ => .res
  | .setwtype f _ => .filter f
  | .conv b _ _ => .buffer b
  | .convip b _ => .bufferAndRes b
  | .feq _ _ => .res
  | .fne _ _ => .res
  | .ffree f => .filter f
  | .lpfCreate f _ _ => .filter f
  | .hpfCreate f _ _ => .filter f
  | .bpfCreate f _ _ => .filter f
  | .fsCreate f _ => .filter f
  | .fsGetspec b _ => .buffer b
  | .winCreate w _ _ => .window w
  | .winSetwtype w _ => .window w
  | .winApply b _ _ => .buffer b
  | .winApplyip b _ => .bufferAndRes b
  | .winGetcoef b _ => .buffer b
  | .winGetsize _ => .res
  | .winGetwtype _ => .res
  | .winEq _ _ => .res
  | .winNe _ _ => .res
  | .winFree w => .window w

/-- `t` differs from `s` at most in `STATUS.ERR`. -/
def OnlyStatus (s t : State.Of C) : Prop := t = { s with err := t.err }

/-- `t` differs from `s` at most in `STATUS.ERR` and `RES`. -/
def OnlyRes (s t : State.Of C) : Prop := t = { s with err := t.err, res := t.res }

/-- `t` differs from `s` at most in `STATUS.ERR` and filter slot `f`. -/
def OnlyFilter (f : Idx) (s t : State.Of C) : Prop :=
  t = { s with err := t.err, filters := t.filters } ∧ ∀ g, g ≠ f → t.filterAt g = s.filterAt g

/-- `t` differs from `s` at most in `STATUS.ERR` and window slot `w`. -/
def OnlyWindow (w : Idx) (s t : State.Of C) : Prop :=
  t = { s with err := t.err, windows := t.windows } ∧ ∀ v, v ≠ w → t.windowAt v = s.windowAt v

/-- Of the buffers, `t` differs from `s` at most in the length of buffer `b` and its elements below `n`:
every other buffer keeps its length, and every element that is not one of those reads as before, with the same written mark. -/
def BuffersBut (b : Idx) (n : Nat) (s t : State.Of C) : Prop :=
  (∀ k, k ≠ b.toNat → (t.bufferAt k).len = (s.bufferAt k).len) ∧
    ∀ k i, ¬(k = b.toNat ∧ i < n) →
      Memory.load (t.bufferAt k).mem i = Memory.load (s.bufferAt k).mem i

/-- `t` differs from `s` at most in `STATUS.ERR` and in buffer `b`: its length and its elements below `n`. -/
def OnlyBuffer (b : Idx) (n : Nat) (s t : State.Of C) : Prop :=
  t = { s with err := t.err, buffers := t.buffers } ∧ BuffersBut b n s t

/-- As `OnlyBuffer`, and `RES` may differ too. -/
def OnlyBufferRes (b : Idx) (n : Nat) (s t : State.Of C) : Prop :=
  t = { s with err := t.err, res := t.res, buffers := t.buffers } ∧ BuffersBut b n s t

end Sys2Proof.Machine
end

