-- ==== Sys2Proof/Certificates/Slice0/Obligations.lean ====
section
/-! DEFINITION. The statements for the provers. They say what FIRCORE does in the words of the spec's rules. -/

open Sys2Proof Sys2Proof.Machine

/-! ## Reset and the host port -/

/-- R43: what reset leaves. -/
def Obligations.ResetLeavesTheSpecifiedState : Prop :=
  State.reset.err = .ok ∧ State.reset.res = 0#64 ∧ State.reset.arg0 = 0#64 ∧ State.reset.arg1 = 0#64 ∧
  (∀ f, State.reset.filterAt f = none) ∧ (∀ w, State.reset.windowAt w = none) ∧
  (∀ k, k < Config.NB → (State.reset.bufferAt k).len = 0) ∧
  (∀ k i, k < Config.NB → i < Config.MAXSIG →
    Memory.load (State.reset.bufferAt k).mem i = none ∧ State.reset.bufRead k i = Config.unwrittenCell 0 k i) ∧
  State.reset.regRead 0 = 0#64 ∧
  (∀ idx, 8 ≤ idx ∧ idx < 16 ∨ 16 + Config.NB ≤ idx → State.reset.regRead idx = 0#64) ∧
  State.reset.regRead 5 = 0x0000000000080404#64 ∧ State.reset.regRead 6 = 0x00001000000003FF#64 ∧
  State.reset.regRead 7 = 0x4649524C49420007#64

/-- R230, R231: `Reset` puts FIRCORE's state to its reset values; the kept `pending` and `responses` and the advanced `epoch` are the model's own (logs 3, 7). With no transaction FIRCORE is idle and keeps its state: R216, R238 (log 7). -/
def Obligations.ResetTransactionAndIdle : Prop :=
  ∀ (s : State) (rest : List (Transaction Word)),
    (s.pending = .reset :: rest →
      step s = .next { State.reset with pending := rest, responses := s.responses, epoch := s.epoch + 1 }) ∧
    (s.pending = [] → step s = .next s)

/-- A step runs the decoded command: R24, R73. `withFetchWord` is the model's way to place a table word (log 7). -/
def Obligations.StepExecutesTheCommandWritten : Prop :=
  ∀ (s : State) (w : Word) (i : Instr) (rest : List (Transaction Word)), decode w = .ok i →
    (s.pending = .regWrite 0 w :: rest → step s = exec i { s with pending := rest }) ∧
    step (s.withFetchWord 64 w.toNat) = exec i s

/-- R51, with the registers of R23. -/
def Obligations.RegisterReadReturnsRegister : Prop :=
  ∀ (s : State) (idx : Nat) (rest : List (Transaction Word)), s.pending = .regRead idx :: rest →
    ∃ v, step s = .next { s with pending := rest, responses := s.responses ++ [.cell v] } ∧
      (idx = 0 → v = 0#64) ∧
      (idx = 1 → v = s.err.code.zeroExtend 64) ∧
      (idx = 2 → v = s.res) ∧
      (idx = 3 → v = s.arg0) ∧
      (idx = 4 → v = s.arg1) ∧
      (idx = 5 → v = 0x0000000000080404#64) ∧
      (idx = 6 → v = 0x00001000000003FF#64) ∧
      (idx = 7 → v = 0x4649524C49420007#64) ∧
      (8 ≤ idx → idx < 16 → v = 0#64) ∧
      (∀ k, k < Config.NB → idx = 16 + k → v = BitVec.ofNat 64 (s.bufferAt k).len) ∧
      (16 + Config.NB ≤ idx → v = 0#64)

/-- R52: a register write; to `CMD` it executes the command `v` encodes, or raises IllegalCommand. -/
def Obligations.RegisterWriteStoresRegister : Prop :=
  ∀ (s : State) (idx : Nat) (v : Word) (rest : List (Transaction Word)), s.pending = .regWrite idx v :: rest →
    (idx = 0 → ∀ i, decode v = .ok i → step s = exec i { s with pending := rest }) ∧
    (idx = 0 → (∀ i, decode v ≠ .ok i) → step s = .next { s with pending := rest, err := .illegalCommand }) ∧
    (idx ≠ 0 →
      ∃ t, step s = .next t ∧ t = { s with pending := rest, arg0 := t.arg0, arg1 := t.arg1, buffers := t.buffers } ∧
        (t.arg0 = if idx = 3 then v else s.arg0) ∧
        (t.arg1 = if idx = 4 then v else s.arg1) ∧
        ∀ k, (t.bufferAt k).mem = (s.bufferAt k).mem ∧
          (t.bufferAt k).len =
            if idx = 16 + k ∧ k < Config.NB ∧ v.toNat ≤ Config.MAXSIG then v.toNat else (s.bufferAt k).len)

/-- R54, R55 and R56; the value of an unwritten element is a free value (log 3). -/
def Obligations.BufferTransactions : Prop :=
  ∀ (s : State) (k i : Nat) (rest : List (Transaction Word)),
    (s.pending = .bufRead k i :: rest →
      ∃ v, step s = .next { s with pending := rest, responses := s.responses ++ [.cell v] } ∧
        (k < Config.NB → i < Config.MAXSIG → ∀ x, Memory.load (s.bufferAt k).mem i = some x → v = x) ∧
        (k < Config.NB → i < Config.MAXSIG → Memory.load (s.bufferAt k).mem i = none →
          v = Config.unwrittenCell s.epoch k i) ∧
        (Config.NB ≤ k ∨ Config.MAXSIG ≤ i → v = 0#64)) ∧
    (∀ v, s.pending = .bufWrite k i v :: rest →
      ∃ t, step s = .next t ∧ t = { s with pending := rest, buffers := t.buffers } ∧
        (∀ j, (t.bufferAt j).len = (s.bufferAt j).len) ∧
        ∀ j n, Memory.load (t.bufferAt j).mem n =
          if j = k ∧ n = i ∧ k < Config.NB ∧ i < Config.MAXSIG then some v else Memory.load (s.bufferAt j).mem n)

/-- R60, R61: a byte-mapped access inside the region is the transaction its offset names, its bytes little-endian (log 8). -/
def Obligations.ByteMapCarriesTransactions : Prop :=
  (∀ (v : Word) (j : Nat), j < 8 → (wordBytes v)[j]? = some (BitVec.extractLsb' (8 * j) 8 v)) ∧
  (∀ v : Word, bytesWord (wordBytes v) = v) ∧
  (∀ (s : State) (idx : Nat) (v : Word) (rest : List (Transaction Word)), idx < 32 →
    step { s with pending := .busWrite (Config.BASE + 8 * idx) (wordBytes v) :: rest } =
      step { s with pending := .regWrite idx v :: rest } ∧
    step { s with pending := .busRead (Config.BASE + 8 * idx) 8 :: rest } =
      .next { s with pending := rest, responses := s.responses ++ [.bytes (wordBytes (s.regRead idx))] }) ∧
  (∀ (s : State) (k i : Nat) (v : Word) (rest : List (Transaction Word)), k < 16 → i < 4096 →
    step { s with pending := .busWrite (Config.BASE + 0x80000 + k * 0x8000 + 8 * i) (wordBytes v) :: rest } =
      step { s with pending := .bufWrite k i v :: rest } ∧
    step { s with pending := .busRead (Config.BASE + 0x80000 + k * 0x8000 + 8 * i) 8 :: rest } =
      .next { s with pending := rest, responses := s.responses ++ [.bytes (wordBytes (s.bufRead k i))] }) ∧
  (∀ (s : State) (off : Nat) (v : Word) (rest : List (Transaction Word)), off % 8 = 0 → 0x100 ≤ off → off < 0x80000 →
    step { s with pending := .busWrite (Config.BASE + off) (wordBytes v) :: rest } = .next { s with pending := rest } ∧
    step { s with pending := .busRead (Config.BASE + off) 8 :: rest } =
      .next { s with pending := rest, responses := s.responses ++ [.bytes (wordBytes 0#64)] })

/-- R57 (93_implementation_defined.md U2) and R61: an access that is not a naturally aligned 8-byte one is refused, and so is one outside the region (log 8). -/
def Obligations.ByteMapRefusesOtherAccesses : Prop :=
  ∀ (s : State) (addr width : Nat) (bytes : List Byte) (rest : List (Transaction Word)),
    (Config.BASE ≤ addr → addr < Config.BASE + 0x100000 → width ≠ 8 ∨ addr % 8 ≠ 0 →
      step { s with pending := .busRead addr width :: rest } = .refused .unalignedAccess) ∧
    (Config.BASE ≤ addr → addr < Config.BASE + 0x100000 → bytes.length ≠ 8 ∨ addr % 8 ≠ 0 →
      step { s with pending := .busWrite addr bytes :: rest } = .refused .unalignedAccess) ∧
    (addr < Config.BASE ∨ Config.BASE + 0x100000 ≤ addr →
      step { s with pending := .busRead addr width :: rest } = .refused .outsideRegion ∧
      step { s with pending := .busWrite addr bytes :: rest } = .refused .outsideRegion)

/-- R78, R55: the transactions of `LOAD bk, [v0, …]` leave the buffer holding the sequence and change nothing else but the elements written. -/
def Obligations.LoadFillsBuffer : Prop :=
  ∀ (s : State) (b : Idx) (vs : List Word), b.toNat < Config.NB → vs.length ≤ Config.MAXSIG →
    ∃ t : State, Sys2Proof.core.run (vs.length + 1) { s with pending := (AsmLine.load b.toNat vs).expand binary64 } = .next t ∧
      BufferHolds t b vs ∧ BuffersBut b vs.length s t ∧ t = { s with pending := [], buffers := t.buffers }

/-! ## Encoding -/

/-- R75: decoding inverts encoding, for every well-formed command with every operand. -/
def Obligations.DecodeInvertsEncode : Prop :=
  ∀ i : Instr, i.WellFormed = true → decode (encode i) = .ok i

/-- R75, the other direction: a word has at most one meaning, and it is the encoding of it. -/
def Obligations.EncodeInvertsDecode : Prop :=
  ∀ (w : Word) (i : Instr), decode w = .ok i → i.WellFormed = true ∧ encode i = w

/-- R73: steps 1 to 4 accept a word exactly when it matches the row of its opcode and its index operands are in range. -/
def Obligations.DecodeAcceptsExactlyTheTableWords : Prop :=
  ∀ (w : Word) (i : Instr), decode w = .ok i ↔
    selectOp (opField w) (aField w) (bField w) (cField w) (wtField w) (nField w) = some i ∧
      w &&& i.format.mask = BitVec.ofNat 64 i.opcode ∧ i.WellFormed = true

/-- R76, R205: every rejected word raises IllegalCommand and changes nothing else, and each kind of illegal word is rejected. -/
def Obligations.IllegalWordsRaiseIllegalCommand : Prop :=
  ∀ (w : Word) (s : State) (rest : List (Transaction Word)), s.pending = .regWrite 0 w :: rest →
    ((∀ i, decode w ≠ .ok i) → step s = .next { s with pending := rest, err := .illegalCommand }) ∧
    ((∀ i : Instr, i.opcode ≠ opField w) → step s = .next { s with pending := rest, err := .illegalCommand }) ∧
    (reservedField w ≠ 0 → step s = .next { s with pending := rest, err := .illegalCommand }) ∧
    (∀ i, selectOp (opField w) (aField w) (bField w) (cField w) (wtField w) (nField w) = some i →
      i.format.unusedZero w = false ∨ i.WellFormed = false →
        step s = .next { s with pending := rest, err := .illegalCommand })

/-- Words of R75's examples and of R74's table, written out, and the commands they stand for. -/
def Obligations.DecodeReadsWrittenOutWords : Prop :=
  decode 0x0000000500000020#64 = .ok (.lpfCreate 0#4 5#32 .rectangular) ∧
  decode 0x0000001500300222#64 = .ok (.bpfCreate 2#4 21#32 .blackman) ∧
  decode 0x000000000001021B#64 = .ok (.conv 2#4 0#4 1#4) ∧
  decode 0x0000000300200130#64 = .ok (.winCreate 1#4 3#32 .hanning) ∧
  decode 0x0000000000003524#64 = .ok (.fsGetspec 5#4 3#4) ∧
  decode 0x0000000000000000#64 = .error .undefinedOpcode

/-! ## The validation functions and the number format -/

/-- R100, R101, R102: the validation functions, for any numerics; then what they say of binary64, which is derived from R12 and R13. There a NaN, a zero of either sign, a negative number, an infinity and 0.5 fail the range check, and every positive encoding below that of 0.5 passes; equal cutoffs and NaNs fail the order check. -/
def Obligations.ValidationFunctions : Prop :=
  (∀ n : Nat, (n % 2 = 1 ∧ 3 ≤ n → checkSize n = none) ∧
    (¬(n % 2 = 1 ∧ 3 ≤ n) → checkSize n = some .invalidSize)) ∧
  (∀ (Cell α : Type) (N : Numerics Cell α) (c lo hi : α),
    (N.lt (N.ofInt 0) c = true ∧ N.lt c (N.lit .half) = true → checkFrequencyRange N c = none) ∧
    (¬(N.lt (N.ofInt 0) c = true ∧ N.lt c (N.lit .half) = true) →
      checkFrequencyRange N c = some .invalidParameterValue) ∧
    (N.lt lo hi = true → checkFrequencyOrder N lo hi = none) ∧
    (N.lt lo hi = false → checkFrequencyOrder N lo hi = some .invalidParameterOrder)) ∧
  (∀ c : Word,
    (0 < c.toNat ∧ c.toNat < 0x3FE0000000000000 → checkFrequencyRange binary64 c = none) ∧
    (¬(0 < c.toNat ∧ c.toNat < 0x3FE0000000000000) →
      checkFrequencyRange binary64 c = some .invalidParameterValue)) ∧
  (∀ lo hi : Word, lo = hi ∨ Fp.isNaN lo = true ∨ Fp.isNaN hi = true →
    checkFrequencyOrder binary64 lo hi = some .invalidParameterOrder)

/-- R12, R13: a comparison with a NaN is false and an operation with a NaN operand gives a NaN; the two zeros are equal; `lt` is a strict order whose incomparable numbers are the equal ones; negation and absolute value touch bit 63 alone. That a NaN operand gives a NaN is R103's and 93_implementation_defined.md's remark from general knowledge; IEEE 754's own rules are the model's reading of R12 (log 6). -/
def Obligations.Binary64NaNAndOrder : Prop :=
  (∀ a b : Word, Fp.isNaN a = true ∨ Fp.isNaN b = true →
    binary64.lt a b = false ∧ binary64.eq a b = false ∧
    Fp.isNaN (binary64.add a b) = true ∧ Fp.isNaN (binary64.sub a b) = true ∧
    Fp.isNaN (binary64.mul a b) = true ∧ Fp.isNaN (binary64.div a b) = true) ∧
  binary64.eq 0x0000000000000000#64 0x8000000000000000#64 = true ∧
  (∀ a b c : Word, binary64.lt a b = true → binary64.lt b c = true → binary64.lt a c = true) ∧
  (∀ a b : Word, Fp.isNaN a = false → Fp.isNaN b = false →
    (binary64.eq a b = true ↔ binary64.lt a b = false ∧ binary64.lt b a = false)) ∧
  ∀ a : Word, binary64.neg a = a ^^^ 0x8000000000000000#64 ∧ binary64.abs a = a &&& 0x7FFFFFFFFFFFFFFF#64

/-- R14: the literals of the source. Their encodings are the spec's inference (`[derived: from rule R12, nearest binary64 to each decimal]`), and here each is also the binary64 number nearest to the decimal text. -/
def Obligations.LiteralsAreTheNearestNumbers : Prop :=
  binary64.lit .eps = 0x3D719799812DEA11#64 ∧ binary64.lit .half = 0x3FE0000000000000#64 ∧
  binary64.lit .one = 0x3FF0000000000000#64 ∧ binary64.lit .two = 0x4000000000000000#64 ∧
  binary64.lit .hammingA = 0x3FE147AE147AE148#64 ∧ binary64.lit .hammingB = 0x3FDD70A3D70A3D71#64 ∧
  binary64.lit .blackmanA = 0x3FDAE147AE147AE1#64 ∧ binary64.lit .blackmanB = 0x3FE0000000000000#64 ∧
  binary64.lit .blackmanC = 0x3FB47AE147AE147B#64 ∧
  ∀ l : Literal, binary64.lit l =
    Fp.round false ((Literal.decimal l).1 * 2 ^ 1074) (10 ^ (Literal.decimal l).2)

/-! ## Commands of the FIR base -/

/-- R118, R119, R120: the three validation commands run to completion with their verdict and change nothing else. -/
def Obligations.ChecksReportTheirVerdict : Prop :=
  ∀ (s : State) (n : SizeImm) (range order size : Status),
    range = (if binary64.lt (binary64.ofInt 0) s.arg0 = true ∧ binary64.lt s.arg0 (binary64.lit .half) = true
      then .ok else .invalidParameterValue) →
    order = (if binary64.lt s.arg0 s.arg1 = true then .ok else .invalidParameterOrder) →
    size = (if n.toNat % 2 = 1 ∧ 3 ≤ n.toNat then .ok else .invalidSize) →
    exec .chkfreq s = .next { s with err := range } ∧
    exec .chkord s = .next { s with err := order } ∧
    exec (.chksize n) s = .next { s with err := size }

/-- R104 with R103: the value of `SINC`; of an infinity or a NaN it is a NaN. -/
def Obligations.SincWritesItsValue : Prop :=
  ∀ (s : State) (x v : Word), x = s.arg0 →
    v = (if binary64.lt (binary64.abs x) (binary64.lit .eps) = true then binary64.lit .one
      else binary64.div (binary64.sin (binary64.mul binary64.pi x)) (binary64.mul binary64.pi x)) →
    exec .sinc s = .next { s with err := .ok, res := v } ∧
    (Fp.isFinite x = false → Fp.isNaN v = true)

/-- R105: `SETCOEF` replaces the coefficients if the lengths agree; else it raises MismatchedSize and changes nothing. The sequence is read first, as its pseudocode has it (log 2). -/
def Obligations.SetcoefReplacesOnlyMatchingLength : Prop :=
  ∀ (s : State) (f b : Idx) v, s.filterAt f = some v →
    (∀ xs, s.seq b = some xs → xs.length = v.coeff.length →
      ∃ t, exec (.setcoef f b) s = .next t ∧ t.err = .ok ∧
        t.filterAt f = some { v with coeff := xs } ∧ OnlyFilter f s t) ∧
    (∀ xs, s.seq b = some xs → xs.length ≠ v.coeff.length → exec (.setcoef f b) s = .next { s with err := .mismatchedSize })

/-- R106: `NORM` divides every coefficient by the ascending sum, unless the sum's size is below 1e-12. -/
def Obligations.NormDividesBySum : Prop :=
  ∀ (s : State) (f : Idx) v sum, s.filterAt f = some v →
    sum = v.coeff.foldl binary64.add (binary64.ofInt 0) →
    (binary64.lt (binary64.abs sum) (binary64.lit .eps) = true →
      exec (.norm f) s = .next { s with err := .normalisationFailed }) ∧
    (binary64.lt (binary64.abs sum) (binary64.lit .eps) = false →
      ∃ t, exec (.norm f) s = .next t ∧ t.err = .ok ∧
        t.filterAt f = some { v with coeff := v.coeff.map fun c => binary64.div c sum } ∧ OnlyFilter f s t)

/-- R107, R108, R116, R117 with the codes of R36 and R37: `GETCOEF` copies the coefficients, bit for bit, and the three others report in `RES`. -/
def Obligations.FilterAccessors : Prop :=
  ∀ (s : State) (b f : Idx) v, s.filterAt f = some v →
    (b.toNat < Config.NB → ∃ t, exec (.getcoef b f) s = .next t ∧ t.err = .ok ∧
      BufferHolds t b v.coeff ∧ OnlyBuffer b v.coeff.length s t) ∧
    exec (.getsize f) s = .next { s with err := .ok, res := BitVec.ofNat 64 v.coeff.length } ∧
    exec (.gettype f) s = .next { s with err := .ok, res :=
      match v.params with
      | .lowpass _ => 0#64
      | .highpass _ => 1#64
      | .bandpass _ _ => 2#64
      | .freqSampling _ => 3#64 } ∧
    exec (.getwtype f) s = .next { s with err := .ok, res :=
      match v.wtype with
      | .rectangular => 0#64
      | .hamming => 1#64
      | .hanning => 2#64
      | .blackman => 3#64 }

/-- R109, R140, R147: `SETWTYPE` stores the tag and synthesises again from the stored parameters. On this hardware the tag enters no formula; in a configuration (R5) with `WSHAPE = multiply` it shapes the windowed variants. -/
def Obligations.SetwtypeResynthesises : Prop :=
  (∀ (s : State) (f : Idx) (wt : WindowType) v, s.filterAt f = some v →
    ∃ t, exec (.setwtype f wt) s = .next t ∧ t.err = .ok ∧ OnlyFilter f s t ∧
      t.filterAt f = some { v with wtype := wt, coeff :=
        match v.params with
        | .lowpass fc => lowpass binary64 (binary64.lit .eps) fc v.coeff.length
        | .highpass fc => highpass binary64 (binary64.lit .eps) fc v.coeff.length
        | .bandpass fl fh => bandpass binary64 (binary64.lit .eps) fl fh v.coeff.length
        | .freqSampling spectrum => freqsamp binary64 spectrum }) ∧
  ∀ (Cell α : Type) (C : Configuration Cell α) (s : State.Of C) (f : Idx) (wt : WindowType) v shaped,
    s.filterAt f = some v →
    shaped = (fun ideal : List α =>
      if C.WSHAPE = .multiply then List.zipWith C.num.mul ideal (window C.num wt v.coeff.length) else ideal) →
    ∃ t, execOf (.setwtype f wt) s = .next t ∧ t.err = .ok ∧ OnlyFilter f s t ∧
      t.filterAt f = some { v with wtype := wt, coeff :=
        match v.params with
        | .lowpass fc => shaped (lowpass C.num C.eps fc v.coeff.length)
        | .highpass fc => shaped (highpass C.num C.eps fc v.coeff.length)
        | .bandpass fl fh => shaped (bandpass C.num C.eps fl fh v.coeff.length)
        | .freqSampling spectrum => freqsamp C.num spectrum }

/-- R111, R112: `CONV` into another or the same buffer, and `CONVIP` in place. -/
def Obligations.ConvolutionCommands : Prop :=
  ∀ (s : State) (b f c : Idx) v xs, b.toNat < Config.NB → s.filterAt f = some v →
    xs ≠ [] → v.coeff ≠ [] → xs.length + v.coeff.length - 1 ≤ Config.MAXSIG →
    (s.seq c = some xs →
      ∃ t, exec (.conv b f c) s = .next t ∧ t.err = .ok ∧
        BufferHolds t b (conv binary64 xs v.coeff) ∧ OnlyBuffer b (xs.length + v.coeff.length - 1) s t) ∧
    (s.seq b = some xs →
      ∃ t, exec (.convip b f) s = .next t ∧ t.err = .ok ∧
        t.res = BitVec.ofNat 64 (xs.length + v.coeff.length - 1) ∧
        BufferHolds t b (conv binary64 xs v.coeff) ∧ OnlyBufferRes b (xs.length + v.coeff.length - 1) s t)

/-- R111, R112, R213: the errors of the two convolutions, in the order of their tests. -/
def Obligations.ConvErrorsInOrder : Prop :=
  ∀ (s : State) (b f c : Idx) v xs, s.filterAt f = some v →
    (s.seq c = some xs → xs = [] ∨ v.coeff = [] → exec (.conv b f c) s = .next { s with err := .invalidSize }) ∧
    (s.seq b = some xs → xs = [] ∨ v.coeff = [] → exec (.convip b f) s = .next { s with err := .invalidSize }) ∧
    (s.seq c = some xs → xs ≠ [] → v.coeff ≠ [] → Config.MAXSIG < xs.length + v.coeff.length - 1 →
      exec (.conv b f c) s = .next { s with err := .capacityExceeded }) ∧
    (s.seq b = some xs → xs ≠ [] → v.coeff ≠ [] → Config.MAXSIG < xs.length + v.coeff.length - 1 →
      exec (.convip b f) s = .next { s with err := .capacityExceeded })

/-- R235: with one buffer as source and destination, `CONV` leaves what `CONVIP` leaves but for `RES`, and `WIN.APPLY` what `WIN.APPLYIP` leaves. -/
def Obligations.SameBufferEqualsInPlace : Prop :=
  ∀ (s t : State) (b x : Idx),
    (exec (.convip b x) s = .next t → exec (.conv b x b) s = .next { t with res := s.res }) ∧
    (exec (.winApplyip b x) s = .next t → exec (.winApply b x b) s = .next { t with res := s.res })

/-- R115, R181: the free commands empty the slot. -/
def Obligations.FreeEmptiesTheSlot : Prop :=
  ∀ (s : State) (x : Idx),
    (s.filterAt x ≠ none → ∃ t, exec (.ffree x) s = .next t ∧ t.err = .ok ∧
      t.filterAt x = none ∧ OnlyFilter x s t) ∧
    (s.windowAt x ≠ none → ∃ t, exec (.winFree x) s = .next t ∧ t.err = .ok ∧
      t.windowAt x = none ∧ OnlyWindow x s t)

/-! ## Filter creation -/

/-- R144, R145, R146, R149: the windowed creates. -/
def Obligations.WindowedCreates : Prop :=
  ∀ (s : State) (f : Idx) (n : SizeImm) (wt : WindowType),
    f.toNat < Config.NF → SizeOk Config.params n.toNat → CutoffOk binary64 s.arg0 →
    (∃ t, exec (.lpfCreate f n wt) s = .next t ∧ t.err = .ok ∧ OnlyFilter f s t ∧
      t.filterAt f = some { wtype := wt, coeff := lowpass binary64 (binary64.lit .eps) s.arg0 n.toNat, params := .lowpass s.arg0 }) ∧
    (∃ t, exec (.hpfCreate f n wt) s = .next t ∧ t.err = .ok ∧ OnlyFilter f s t ∧
      t.filterAt f = some { wtype := wt, coeff := highpass binary64 (binary64.lit .eps) s.arg0 n.toNat, params := .highpass s.arg0 }) ∧
    (CutoffOk binary64 s.arg1 → binary64.lt s.arg0 s.arg1 = true →
      ∃ t, exec (.bpfCreate f n wt) s = .next t ∧ t.err = .ok ∧ OnlyFilter f s t ∧
        t.filterAt f = some
          { wtype := wt, coeff := bandpass binary64 (binary64.lit .eps) s.arg0 s.arg1 n.toNat, params := .bandpass s.arg0 s.arg1 })

/-- R149, R213: the errors of the windowed creates, in the order of their tests. -/
def Obligations.CreateErrorsInOrder : Prop :=
  ∀ (s : State) (f : Idx) (n : SizeImm) (wt : WindowType),
    (¬(n.toNat % 2 = 1 ∧ 3 ≤ n.toNat) →
      exec (.lpfCreate f n wt) s = .next { s with err := .invalidSize } ∧
      exec (.hpfCreate f n wt) s = .next { s with err := .invalidSize } ∧
      exec (.bpfCreate f n wt) s = .next { s with err := .invalidSize }) ∧
    (n.toNat % 2 = 1 ∧ 3 ≤ n.toNat → ¬CutoffOk binary64 s.arg0 →
      exec (.lpfCreate f n wt) s = .next { s with err := .invalidParameterValue } ∧
      exec (.hpfCreate f n wt) s = .next { s with err := .invalidParameterValue } ∧
      exec (.bpfCreate f n wt) s = .next { s with err := .invalidParameterValue }) ∧
    (n.toNat % 2 = 1 ∧ 3 ≤ n.toNat → CutoffOk binary64 s.arg0 → Config.MAXN < n.toNat →
      exec (.lpfCreate f n wt) s = .next { s with err := .capacityExceeded } ∧
      exec (.hpfCreate f n wt) s = .next { s with err := .capacityExceeded }) ∧
    (n.toNat % 2 = 1 ∧ 3 ≤ n.toNat → CutoffOk binary64 s.arg0 → ¬CutoffOk binary64 s.arg1 →
      exec (.bpfCreate f n wt) s = .next { s with err := .invalidParameterValue }) ∧
    (n.toNat % 2 = 1 ∧ 3 ≤ n.toNat → CutoffOk binary64 s.arg0 → CutoffOk binary64 s.arg1 → binary64.lt s.arg0 s.arg1 = false →
      exec (.bpfCreate f n wt) s = .next { s with err := .invalidParameterOrder }) ∧
    (n.toNat % 2 = 1 ∧ 3 ≤ n.toNat → CutoffOk binary64 s.arg0 → CutoffOk binary64 s.arg1 → binary64.lt s.arg0 s.arg1 = true →
      Config.MAXN < n.toNat → exec (.bpfCreate f n wt) s = .next { s with err := .capacityExceeded })

/-- R162: frequency-sampling creation and its errors. -/
def Obligations.FrequencySamplingCreate : Prop :=
  ∀ (s : State) (f b : Idx) xs, f.toNat < Config.NF → s.seq b = some xs →
    (xs = [] → exec (.fsCreate f b) s = .next { s with err := .invalidSize }) ∧
    (Config.MAXN < 2 * xs.length + 1 → exec (.fsCreate f b) s = .next { s with err := .capacityExceeded }) ∧
    (xs ≠ [] → 2 * xs.length + 1 ≤ Config.MAXN →
      ∃ t, exec (.fsCreate f b) s = .next t ∧ t.err = .ok ∧ OnlyFilter f s t ∧
        t.filterAt f = some { wtype := .rectangular, coeff := freqsamp binary64 xs, params := .freqSampling xs } ∧
        (freqsamp binary64 xs).length = 2 * xs.length + 1)

/-- R163: the stored spectrum is copied; a filter of another type gives WrongVariant. -/
def Obligations.GetspecCopiesTheSpectrum : Prop :=
  ∀ (s : State) (b f : Idx) v, b.toNat < Config.NB → s.filterAt f = some v →
    (∀ xs, v.params = .freqSampling xs →
      ∃ t, exec (.fsGetspec b f) s = .next t ∧ t.err = .ok ∧ BufferHolds t b xs ∧ OnlyBuffer b xs.length s t) ∧
    ((∀ xs, v.params ≠ .freqSampling xs) → exec (.fsGetspec b f) s = .next { s with err := .wrongVariant })

/-! ## Window commands -/

/-- R172, R173: window creation, its errors in order, and the change of type. -/
def Obligations.WindowCreateAndRetype : Prop :=
  ∀ (s : State) (w : Idx) (n : SizeImm) (wt : WindowType),
    (w.toNat < Config.NW → SizeOk Config.params n.toNat →
      ∃ t, exec (.winCreate w n wt) s = .next t ∧ t.err = .ok ∧ OnlyWindow w s t ∧
        t.windowAt w = some { wtype := wt, coeff := window binary64 wt n.toNat }) ∧
    (¬(n.toNat % 2 = 1 ∧ 3 ≤ n.toNat) → exec (.winCreate w n wt) s = .next { s with err := .invalidSize }) ∧
    (n.toNat % 2 = 1 ∧ 3 ≤ n.toNat → Config.MAXN < n.toNat →
      exec (.winCreate w n wt) s = .next { s with err := .capacityExceeded }) ∧
    (∀ v, s.windowAt w = some v →
      ∃ t, exec (.winSetwtype w wt) s = .next t ∧ t.err = .ok ∧ OnlyWindow w s t ∧
        t.windowAt w = some { wtype := wt, coeff := window binary64 wt v.coeff.length })

/-- R174, R175: the product of signal and window, into another buffer or in place, and the mismatch. -/
def Obligations.WindowApplyMultipliesElementwise : Prop :=
  ∀ (s : State) (b w c : Idx) v, s.windowAt w = some v →
    (∀ xs ys, b.toNat < Config.NB → s.seq c = some xs → xs.length = v.coeff.length →
      ys = List.zipWith binary64.mul xs v.coeff →
      ∃ t, exec (.winApply b w c) s = .next t ∧ t.err = .ok ∧ BufferHolds t b ys ∧
        OnlyBuffer b v.coeff.length s t) ∧
    (∀ xs ys, b.toNat < Config.NB → s.seq b = some xs → xs.length = v.coeff.length →
      ys = List.zipWith binary64.mul xs v.coeff →
      ∃ t, exec (.winApplyip b w) s = .next t ∧ t.err = .ok ∧ BufferHolds t b ys ∧
        t.res = BitVec.ofNat 64 v.coeff.length ∧ OnlyBufferRes b v.coeff.length s t) ∧
    (∀ xs, s.seq c = some xs → xs.length ≠ v.coeff.length →
      exec (.winApply b w c) s = .next { s with err := .mismatchedSize }) ∧
    (∀ xs, s.seq b = some xs → xs.length ≠ v.coeff.length →
      exec (.winApplyip b w) s = .next { s with err := .mismatchedSize })

/-- R176, R177, R178. -/
def Obligations.WindowAccessors : Prop :=
  ∀ (s : State) (b w : Idx) v, b.toNat < Config.NB → s.windowAt w = some v →
    (∃ t, exec (.winGetcoef b w) s = .next t ∧ t.err = .ok ∧
      BufferHolds t b v.coeff ∧ OnlyBuffer b v.coeff.length s t) ∧
    exec (.winGetsize w) s = .next { s with err := .ok, res := BitVec.ofNat 64 v.coeff.length } ∧
    exec (.winGetwtype w) s = .next { s with err := .ok, res :=
      match v.wtype with
      | .rectangular => 0#64
      | .hamming => 1#64
      | .hanning => 2#64
      | .blackman => 3#64 }

/-! ## The two equalities -/

/-- R121 and R182, as the commands of R113, R114, R179 and R180 report them: filter equality compares the coefficients alone, window equality the type and the size alone. That equal windows have equal coefficients is the spec's inference from R171; it needs the invariant. -/
def Obligations.EqualityContracts : Prop :=
  (∀ (s : State) (f g : Idx) u v, s.filterAt f = some u → s.filterAt g = some v →
    ∃ r : Bool, (r = true ↔ u.coeff.length = v.coeff.length ∧
        ∀ (n : Nat) x y, u.coeff[n]? = some x → v.coeff[n]? = some y → binary64.eq x y = true) ∧
      exec (.feq f g) s = .next { s with err := .ok, res := if r then 1#64 else 0#64 } ∧
      exec (.fne f g) s = .next { s with err := .ok, res := if r then 0#64 else 1#64 }) ∧
  (∀ (s : State) (w v : Idx) x y, s.windowAt w = some x → s.windowAt v = some y →
    exec (.winEq w v) s = .next { s with err := .ok, res :=
      if x.wtype = y.wtype ∧ x.coeff.length = y.coeff.length then 1#64 else 0#64 } ∧
    exec (.winNe w v) s = .next { s with err := .ok, res :=
      if x.wtype = y.wtype ∧ x.coeff.length = y.coeff.length then 0#64 else 1#64 } ∧
    (s.Inv → x.wtype = y.wtype → x.coeff.length = y.coeff.length → x.coeff = y.coeff))

/-! ## Errors -/

/-- R200: `code(E)`. -/
def Obligations.StatusCodes : Prop :=
  Status.code .ok = 0#4 ∧ Status.code .invalidSize = 1#4 ∧ Status.code .mismatchedSize = 2#4 ∧
  Status.code .invalidParameterValue = 3#4 ∧ Status.code .invalidParameterOrder = 4#4 ∧
  Status.code .normalisationFailed = 5#4 ∧ Status.code .invalidType = 6#4 ∧
  Status.code .illegalCommand = 8#4 ∧ Status.code .noObject = 9#4 ∧
  Status.code .wrongVariant = 10#4 ∧ Status.code .capacityExceeded = 11#4 ∧
  ∀ e : Status, e.code ≠ 7#4 ∧ e.code.toNat < 12

/-- R206: a command that names an empty slot as source or receiver raises NoObject; a create never does, whatever its destination slot holds. That NoObject comes before the read of a source with unwritten elements, where R41 leaves the result open, is the model's order, from the pseudocode (R213; log 2). -/
def Obligations.EmptySlotRaisesNoObject : Prop :=
  ∀ (s : State) (x y b c : Idx) (n : SizeImm) (wt : WindowType),
    (s.filterAt x = none → ∀ i ∈ [Instr.setcoef x b, .norm x, .getcoef b x, .getsize x, .gettype x, .getwtype x,
        .setwtype x wt, .conv b x c, .convip b x, .feq x y, .feq y x, .fne x y, .fne y x, .ffree x, .fsGetspec b x],
      exec i s = .next { s with err := .noObject }) ∧
    (s.windowAt x = none → ∀ i ∈ [Instr.winSetwtype x wt, .winApply b x c, .winApplyip b x, .winGetcoef b x,
        .winGetsize x, .winGetwtype x, .winEq x y, .winEq y x, .winNe x y, .winNe y x, .winFree x],
      exec i s = .next { s with err := .noObject }) ∧
    (∀ i ∈ [Instr.lpfCreate x n wt, .hpfCreate x n wt, .bpfCreate x n wt, .fsCreate x b, .winCreate x n wt],
      ∀ t, exec i s = .next t → t.err ≠ .noObject)

/-- R41, R58 (93_implementation_defined.md U1): a command that reads a sequence with an unwritten element is refused, whatever the lengths; a command of an empty slot raises NoObject first (log 2). -/
def Obligations.UnwrittenSourceIsRefused : Prop :=
  ∀ (s : State) (b x c : Idx), s.seq c = none →
    (s.filterAt x ≠ none → ∀ i ∈ [Instr.setcoef x c, .conv b x c, .convip c x],
      exec i s = .refused .unwrittenElement) ∧
    exec (.fsCreate x c) s = .refused .unwrittenElement ∧
    (s.windowAt x ≠ none → ∀ i ∈ [Instr.winApply b x c, .winApplyip c x],
      exec i s = .refused .unwrittenElement)

/-- R209, R26: a command that raises an error changes `STATUS.ERR` and nothing else, on this hardware and in every configuration (R5); where both capacities are unbounded no command raises CapacityExceeded (R208). -/
def Obligations.FailingCommandChangesOnlyStatus : Prop :=
  (∀ (i : Instr) (s t : State), exec i s = .next t → t.err ≠ .ok → OnlyStatus s t) ∧
  ∀ (Cell α : Type) (C : Configuration Cell α) (i : Instr) (s t : State.Of C), execOf i s = .next t →
    (t.err ≠ .ok → OnlyStatus s t) ∧ (C.MAXN = none → C.MAXSIG = none → t.err ≠ .capacityExceeded)

/-- R232, R214: the machine never faults, and a command is refused only for an unwritten element: where every source can be read, it answers a next state. In every other configuration (R5) it is refused only for that or for a word it would read as a number (R13). -/
def Obligations.CommandsAlwaysAnswer : Prop :=
  (∀ (i : Instr) (s : State),
    ((∃ t, exec i s = .next t) ∨ exec i s = .refused .unwrittenElement) ∧
    ((∀ b : Idx, ∃ xs, s.seq b = some xs) → ∃ t, exec i s = .next t)) ∧
  ∀ (Cell α : Type) (C : Configuration Cell α) (i : Instr) (s : State.Of C),
    ((∃ t, execOf i s = .next t) ∨ execOf i s = .refused .unwrittenElement ∨ execOf i s = .refused .notANumber) ∧
    ((∀ b : Idx, ∃ xs, s.seq b = some xs) → (∃ x, C.num.ofBits s.arg0 = some x) →
      (∃ x, C.num.ofBits s.arg1 = some x) → ∃ t, execOf i s = .next t)

/-- R22: no command's behaviour depends on the status of an earlier command. -/
def Obligations.StatusIsNotRead : Prop :=
  ∀ (i : Instr) (s : State) (e : Status), exec i { s with err := e } = exec i s

/-- R204: no step makes the status InvalidType. -/
def Obligations.InvalidTypeIsNeverRaised : Prop :=
  (∀ (i : Instr) (s t : State), exec i s = .next t → t.err ≠ .invalidType) ∧
  (∀ s t : State, s.err ≠ .invalidType → step s = .next t → t.err ≠ .invalidType)

/-! ## Frames: what a command leaves unchanged -/

/-- R20, R28: the commands that write no object, buffer or result, and those that write `RES` alone. -/
def Obligations.StatusAndResultFrames : Prop :=
  ∀ (i : Instr) (s t : State), exec i s = .next t →
    (i ∈ [Instr.chkfreq, .chkord] ∨ (∃ n, i = .chksize n) → OnlyStatus s t) ∧
    ((i = .sinc ∨ ∃ x y, i ∈ [Instr.getsize x, .gettype x, .getwtype x, .feq x y, .fne x y,
        .winGetsize x, .winGetwtype x, .winEq x y, .winNe x y]) → OnlyRes s t)

/-- R34, R38, R39: the commands that write one filter slot and no other state, and those that write one window slot and no other state. -/
def Obligations.SlotCommandFrames : Prop :=
  ∀ (s t : State) (x b : Idx) (n : SizeImm) (wt : WindowType) (i : Instr), exec i s = .next t →
    (i ∈ [Instr.setcoef x b, .norm x, .setwtype x wt, .ffree x, .lpfCreate x n wt, .hpfCreate x n wt,
      .bpfCreate x n wt, .fsCreate x b] → OnlyFilter x s t) ∧
    (i ∈ [Instr.winCreate x n wt, .winSetwtype x wt, .winFree x] → OnlyWindow x s t)

/-- R59: the commands that write one buffer store to the elements below its new length alone, and the in-place ones also write `RES`. -/
def Obligations.BufferCommandFrames : Prop :=
  ∀ (s t : State) (b x c : Idx),
    (∀ i ∈ [Instr.getcoef b x, .conv b x c, .fsGetspec b x, .winApply b x c, .winGetcoef b x],
      exec i s = .next t → OnlyBuffer b (t.bufLen b) s t) ∧
    (∀ i ∈ [Instr.convip b x, .winApplyip b x],
      exec i s = .next t → OnlyBufferRes b (t.bufLen b) s t)

/-- R34, R36: a filter's type and parameters never change while it lives: only a create into its slot or a free of it ends them. -/
def Obligations.FilterParametersAreImmutable : Prop :=
  ∀ (s t : State) (i : Instr) (f : Idx) v, exec i s = .next t → s.filterAt f = some v →
    i ≠ .ffree f → (∀ n wt, i ≠ .lpfCreate f n wt ∧ i ≠ .hpfCreate f n wt ∧ i ≠ .bpfCreate f n wt) →
    (∀ b, i ≠ .fsCreate f b) →
    ∃ u, t.filterAt f = some u ∧ u.params = v.params

/-- R170, R38: no window command reads or writes a filter slot, and no other command reads or writes a window slot. -/
def Obligations.FiltersAndWindowsAreIndependent : Prop :=
  ∀ (i : Instr) (s t : State) (fs : Vector (Option (Machine.Filter Word)) Config.NF) (ws : Vector (Option (Window Word)) Config.NW),
    exec i s = .next t →
    (0x30 ≤ i.opcode → exec i { s with filters := fs } = .next { t with filters := fs }) ∧
    (i.opcode < 0x30 → exec i { s with windows := ws } = .next { t with windows := ws })

/-! ## Invariants -/

/-- The invariant holds after reset, on this hardware and in every configuration (R5). -/
def Obligations.ResetMeetsTheInvariant : Prop :=
  State.reset.Inv ∧ ∀ (Cell α : Type) (C : Configuration Cell α), (State.Of.reset C).Inv

/-- R35, R38, R32: every step keeps the invariants of filters, windows, buffers and status, from every state that meets them, on this hardware and in every configuration that meets the constraints of R5 (`Params.Ok`, with the mix of capacities log 10 admits), as this hardware's does. -/
def Obligations.StepKeepsTheInvariant : Prop :=
  (∀ s t : State, s.Inv → step s = .next t → t.Inv) ∧
  Config.params.Ok ∧
  ∀ (Cell α : Type) (C : Configuration Cell α), C.toParams.Ok →
    ∀ s t : State.Of C, s.Inv → stepOf s = .next t → t.Inv

/-- From a state that meets the invariant every run is safe or ends in a refusal. -/
def Obligations.RunsAreSafeUnlessRefused : Prop :=
  ∀ (n : Nat) (s : State), s.Inv → SafeRun n s ∨ ∃ r, Sys2Proof.core.run n s = .refused r

/-! ## The formulas -/

/-- R141, R142, R143, for any numerics and any threshold `EPS` (R5): length and samples. -/
def Obligations.WindowedSincFormulas : Prop :=
  ∀ (Cell α : Type) (N : Numerics Cell α) (eps fc fl fh : α) (size n : Nat), n < size → ∀ x two,
    x = N.ofInt ((n : Int) - (((size - 1) / 2 : Nat) : Int)) → two = N.lit .two →
    (lowpass N eps fc size).length = size ∧ (highpass N eps fc size).length = size ∧
    (bandpass N eps fl fh size).length = size ∧
    (lowpass N eps fc size)[n]? = some (N.mul (N.mul two fc) (sinc N eps (N.mul (N.mul two fc) x))) ∧
    (highpass N eps fc size)[n]? = some
      (if n = (size - 1) / 2
        then N.add (N.mul (N.neg (N.mul two fc)) (sinc N eps (N.mul (N.mul two fc) x))) (N.lit .one)
        else N.mul (N.neg (N.mul two fc)) (sinc N eps (N.mul (N.mul two fc) x))) ∧
    (bandpass N eps fl fh size)[n]? = some
      (N.sub (N.mul (N.mul two fh) (sinc N eps (N.mul (N.mul two fh) x)))
        (N.mul (N.mul two fl) (sinc N eps (N.mul (N.mul two fl) x))))

/-- R161, R171, for any numerics: the frequency-sampling formula for a spectrum `S[0], …, S[K-1]`, and the four windows. -/
def Obligations.FrequencySamplingAndWindowFormulas : Prop :=
  (∀ (Cell α : Type) (N : Numerics Cell α) (S : List α) (size : Nat), S ≠ [] → size = 2 * S.length + 1 →
    (freqsamp N S).length = size ∧
    ∀ n, n < size → (freqsamp N S)[n]? = some
      (N.div (N.add (S.getD 0 (N.ofInt 0)) (N.mul (N.lit .two)
        ((List.range' 1 (S.length - 1)).foldl (fun acc k => N.add acc (N.mul (S.getD k (N.ofInt 0))
          (N.cos (N.div (N.mul (N.mul (N.mul (N.lit .two) N.pi) (N.ofInt k)) (N.ofInt ((n : Int) - (S.length : Int))))
            (N.ofInt size))))) (N.ofInt 0)))) (N.ofInt size))) ∧
  (∀ (Cell α : Type) (N : Numerics Cell α) (size n : Nat), n < size → ∀ x,
    x = N.div (N.mul (N.mul (N.lit .two) N.pi) (N.ofInt n)) (N.ofInt ((size : Int) - 1)) →
    (∀ t, (window N t size).length = size) ∧
    (window N .rectangular size)[n]? = some (N.lit .one) ∧
    (window N .hamming size)[n]? = some (N.sub (N.lit .hammingA) (N.mul (N.lit .hammingB) (N.cos x))) ∧
    (window N .hanning size)[n]? = some (N.mul (N.lit .half) (N.sub (N.lit .one) (N.cos x))) ∧
    (window N .blackman size)[n]? = some
      (N.add (N.sub (N.lit .blackmanA) (N.mul (N.lit .blackmanB) (N.cos x)))
        (N.mul (N.lit .blackmanC) (N.cos (N.mul (N.lit .two) x)))))

/-- R110, for any numerics: length, and each output sample as the sum over ascending `n` from 0. -/
def Obligations.ConvolutionSamples : Prop :=
  ∀ (Cell α : Type) (N : Numerics Cell α) (s c : List α),
    (conv N s c).length = s.length + c.length - 1 ∧
    ∀ k, k < s.length + c.length - 1 →
      (conv N s c)[k]? = some
        (((List.range s.length).filter fun n => decide (n ≤ k ∧ k - n < c.length)).foldl
          (fun acc n => N.add acc (N.mul (s.getD n (N.ofInt 0)) (c.getD (k - n) (N.ofInt 0)))) (N.ofInt 0))

/-- R110 with `NUM = real`: the laws of the convolution. -/
def Obligations.RealConvolutionLaws : Prop :=
  ∀ s c : List ℝ,
    conv realNum s c = conv realNum c s ∧ conv realNum s [1] = s ∧ conv realNum s [0, 1, 0] = 0 :: (s ++ [0])

/-- R148, R161, R142, R145 with `NUM = real` and any positive threshold `EPS`: the coefficient sequences are palindromic, the highpass centre is `1 - 2·fc`, and lowpass and highpass of one cutoff sum to the unit impulse. -/
def Obligations.RealCoefficientLaws : Prop :=
  ∀ (eps fc fl fh : ℝ) (spectrum : List ℝ) (size : Nat), 0 < eps → size % 2 = 1 →
    (lowpass realNum eps fc size).reverse = lowpass realNum eps fc size ∧
    (highpass realNum eps fc size).reverse = highpass realNum eps fc size ∧
    (bandpass realNum eps fl fh size).reverse = bandpass realNum eps fl fh size ∧
    (freqsamp realNum spectrum).reverse = freqsamp realNum spectrum ∧
    (highpass realNum eps fc size)[(size - 1) / 2]? = some (1 - 2 * fc) ∧
    List.zipWith (· + ·) (lowpass realNum eps fc size) (highpass realNum eps fc size) =
      (List.range size).map fun n => if n = (size - 1) / 2 then 1 else 0

/-- R171 with `NUM = real`: every window is palindromic, its centre is 1 and its ends are 1, 0.08, 0, 0. -/
def Obligations.RealWindowShape : Prop :=
  ∀ (t : WindowType) (size : Nat), size % 2 = 1 → 3 ≤ size →
    (window realNum t size).length = size ∧
    (window realNum t size).reverse = window realNum t size ∧
    (window realNum t size)[(size - 1) / 2]? = some (1 : ℝ) ∧
    (window realNum t size)[0]? = some
      (match t with
      | .rectangular => (1 : ℝ)
      | .hamming => 8 / 100
      | .hanning => 0
      | .blackman => 0)

/-- R106 with `NUM = real`: after division by a sum that is not 0 the coefficients sum to 1. -/
def Obligations.RealNormaliseSumsToOne : Prop :=
  ∀ c : List ℝ, coeffSum realNum c ≠ 0 →
    coeffSum realNum (c.map fun x => realNum.div x (coeffSum realNum c)) = 1

/-- R148 with `NUM = binary64`: for every sine that is odd (`SinOdd`, R15) and gives a NaN for no finite argument, the coefficients of every filter that can be created are palindromic bit for bit. This hardware's numerics are such an `N`, its sine being the free value of log 5. -/
def Obligations.Binary64CoefficientsArePalindromic : Prop :=
  (binary64 = { binary64 with
    sin := fun a => if Fp.isFinite a = true then Config.sin64 a else Fp.nan .sin a 0#64 }) ∧
  ∀ (sine : Word → Word) (N : Numerics Word Word),
    N = { binary64 with sin := fun a => if Fp.isFinite a = true then sine a else Fp.nan .sin a 0#64 } →
    (∀ t, Fp.isFinite t = true → sine (Fp.neg t) = Fp.neg (sine t)) →
    (∀ t, Fp.isFinite t = true → Fp.isNaN (sine t) = false) →
    ∀ (eps fc fl fh : Word) (size : Nat), eps = binary64.lit .eps →
      SizeOk Config.params size → CutoffOk binary64 fc → CutoffOk binary64 fl → CutoffOk binary64 fh →
      (lowpass N eps fc size).reverse = lowpass N eps fc size ∧
      (highpass N eps fc size).reverse = highpass N eps fc size ∧
      (bandpass N eps fl fh size).reverse = bandpass N eps fl fh size

/-- R15: `NUM = real` has every named property; `NUM = binary64` has those of the basic operations, and its sine is odd and its cosine even exactly where the free values of log 5 are so on finite numbers. Two NaNs count as the same whatever their payloads (log 15), and binary64's own results are the model's reading of R12 (log 6). -/
def Obligations.NamedPropertiesOfTheNumerics : Prop :=
  (realNum.SinOdd ∧ realNum.CosEven ∧ realNum.CosZero ∧ realNum.CosTwoPiN3 ∧ realNum.MulOne ∧
    realNum.DivSelf ∧ realNum.AddZero) ∧
  (binary64.MulOne ∧ binary64.DivSelf ∧ binary64.AddZero) ∧
  (∀ a : Word, binary64.Finite a ↔ Fp.isFinite a = true) ∧
  (∀ a b : Word, binary64.Same a b ↔ a = b ∨ Fp.isNaN a = true ∧ Fp.isNaN b = true) ∧
  (binary64.SinOdd ↔ ∀ t : Word, Fp.isFinite t = true →
    binary64.Same (Config.sin64 (Fp.neg t)) (Fp.neg (Config.sin64 t))) ∧
  (binary64.CosEven ↔ ∀ t : Word, Fp.isFinite t = true →
    binary64.Same (Config.cos64 (Fp.neg t)) (Config.cos64 t))

/-! ## The machine over the reals -/

/-- R13, R11 with `NUM = real`: a command that reads a number reads it from a number cell and writes a number cell; one that reads a word cell as a number is refused; integer results and register constants are word cells. That a number written to `CMD` or to a length is refused is the model's choice (log 14). -/
def Obligations.RealMachineCells : Prop :=
  ∀ (p : Params) (s : State.Of (realConfiguration p)) (x : ℝ) (w : Word) (f b d : Idx) (n : SizeImm)
    (wt : WindowType) (v : Machine.Filter ℝ) (cs : List RealCell) (xs : List ℝ) (rest : List (Transaction RealCell)),
    (s.arg0 = .num x → ∀ y, y = (if |x| < 1 / 10 ^ 12 then 1 else Real.sin (Real.pi * x) / (Real.pi * x)) →
      execOf .sinc s = .next { s with err := .ok, res := .num y }) ∧
    (s.arg0 = .word w →
      ∀ i ∈ [Instr.sinc, .chkfreq, .chkord, .lpfCreate f n wt, .hpfCreate f n wt, .bpfCreate f n wt],
        execOf i s = .refused .notANumber) ∧
    (s.cells d = some (xs.map RealCell.num) → s.seq d = some xs) ∧
    (s.filterAt f = some v → s.cells d = some cs → .word w ∈ cs →
      ∀ i ∈ [Instr.setcoef f d, .conv b f d, .convip d f, .fsCreate f d], execOf i s = .refused .notANumber) ∧
    (s.filterAt f = some v → b.toNat < p.NB →
      ∃ t, execOf (.getcoef b f) s = .next t ∧ t.err = .ok ∧ BufferHolds t b (v.coeff.map RealCell.num) ∧
        OnlyBuffer b v.coeff.length s t) ∧
    (s.filterAt f = some v →
      execOf (.getsize f) s = .next { s with err := .ok, res := .word (BitVec.ofNat 64 v.coeff.length) }) ∧
    stepOf { s with pending := .regWrite 0 (.num x) :: rest } = .refused .notAWord ∧
    stepOf { s with pending := .regRead 1 :: rest } =
      .next { s with pending := rest, responses := s.responses ++ [.cell (.word (s.err.code.zeroExtend 64))] }
end

