-- ==== Sys2Proof/Laws/Formulas.lean ====
section
/-! SUPPORT. The lengths of the sequences the formulas give, what each validation answers, and that a computed NaN is a NaN. -/

namespace Sys2Proof.Machine

section
variable {Cell α : Type} (N : Numerics Cell α)

@[simp] theorem lowpass_length (eps fc : α) (n : Nat) : (lowpass N eps fc n).length = n := by simp [lowpass]
@[simp] theorem highpass_length (eps fc : α) (n : Nat) : (highpass N eps fc n).length = n := by simp [highpass]
@[simp] theorem bandpass_length (eps fl fh : α) (n : Nat) : (bandpass N eps fl fh n).length = n := by
  simp [bandpass]
@[simp] theorem window_length (t : WindowType) (n : Nat) : (window N t n).length = n := by simp [window]

theorem freqsamp_length {xs : List α} (h : xs ≠ []) :
    (freqsamp N xs).length = 2 * xs.length + 1 := by
  cases xs with
  | nil => exact absurd rfl h
  | cons a l => simp [freqsamp]

@[simp] theorem convUpdate_length (out : List α) (k : Nat) (x y : α) :
    (convUpdate N out k x y).length = out.length := by simp [convUpdate]

@[simp] theorem convRow_length (c out : List α) (n : Nat) (x : α) :
    (convRow N c out n x).length = out.length := by
  unfold convRow
  generalize c.zipIdx = l
  induction l generalizing out with
  | nil => rfl
  | cons a l ih => rw [List.foldl_cons, ih, convUpdate_length]

theorem conv_length (s c : List α) : (conv N s c).length = s.length + c.length - 1 := by
  have h : ∀ (l : List (α × Nat)) (out : List α),
      (l.foldl (fun out xn => convRow N c out xn.2 xn.1) out).length = out.length := by
    intro l
    induction l with
    | nil => intro out; rfl
    | cons a l ih => intro out; rw [List.foldl_cons, ih, convRow_length]
  rw [conv, h, List.length_replicate]

theorem pointwise_length {xs ys : List α} (h : xs.length = ys.length) :
    (pointwise N xs ys).length = ys.length := by simp [pointwise, h]

@[simp] theorem shapeBy_length (shape : WShape) (xs : List α) (t : WindowType) :
    (shapeBy N shape xs t).length = xs.length := by
  cases shape with
  | metadata => rfl
  | multiply => exact (pointwise_length N (by simp)).trans (window_length N t _)

/-- `synth` gives exactly `size` numbers (93_implementation_defined.md U10). -/
theorem synth_length (C : Configuration Cell α) {p : FilterParams α} (t : WindowType) {size : Nat}
    (h : ∀ xs, p = .freqSampling xs → xs ≠ [] ∧ size = 2 * xs.length + 1) :
    (synth C p t size).length = size := by
  cases p with
  | lowpass fc => exact (shapeBy_length ..).trans (lowpass_length ..)
  | highpass fc => exact (shapeBy_length ..).trans (highpass_length ..)
  | bandpass fl fh => exact (shapeBy_length ..).trans (bandpass_length ..)
  | freqSampling xs =>
    obtain ⟨h1, h2⟩ := h xs rfl
    rw [h2]
    exact freqsamp_length _ h1

theorem checkSize_none {n : Nat} : checkSize n = none ↔ n % 2 = 1 ∧ 3 ≤ n := by
  unfold checkSize; split <;> simp_all

/-- What `checkSize` can raise. -/
theorem checkSize_some {n : Nat} {e : Status} (h : checkSize n = some e) : e = .invalidSize := by
  unfold checkSize at h; split at h <;> simp_all

theorem checkCapacity_none {c : Option Nat} {n : Nat} : checkCapacity c n = none ↔ within c n = true := by
  unfold checkCapacity; split <;> simp_all

/-- What `checkCapacity` can raise, and when: never of an unbounded capacity (R208). -/
theorem checkCapacity_some {c : Option Nat} {n : Nat} {e : Status} (h : checkCapacity c n = some e) :
    e = .capacityExceeded ∧ ∃ m, c = some m ∧ m < n := by
  unfold checkCapacity at h
  split at h
  · cases h
  · next hw =>
    cases h
    cases c with
    | none => exact absurd rfl hw
    | some m => exact ⟨rfl, m, rfl, by simpa [within] using hw⟩

theorem checkFrequencyRange_none {c : α} :
    checkFrequencyRange N c = none ↔ N.lt (N.ofInt 0) c = true ∧ N.lt c (N.lit .half) = true := by
  unfold checkFrequencyRange
  rw [← Bool.and_eq_true]
  split
  · next h => exact ⟨fun _ => h, fun _ => rfl⟩
  · next h => exact ⟨fun h' => (by cases h'), fun h' => absurd h' h⟩

/-- What `checkFrequencyRange` can raise. -/
theorem checkFrequencyRange_some {c : α} {e : Status} (h : checkFrequencyRange N c = some e) :
    e = .invalidParameterValue := by
  unfold checkFrequencyRange at h; split at h <;> simp_all

theorem checkFrequencyOrder_none {lo hi : α} : checkFrequencyOrder N lo hi = none ↔ N.lt lo hi = true := by
  unfold checkFrequencyOrder
  split
  · next h => exact ⟨fun _ => h, fun _ => rfl⟩
  · next h => exact ⟨fun h' => (by cases h'), fun h' => absurd h' h⟩

/-- What `checkFrequencyOrder` can raise. -/
theorem checkFrequencyOrder_some {lo hi : α} {e : Status} (h : checkFrequencyOrder N lo hi = some e) :
    e = .invalidParameterOrder := by
  unfold checkFrequencyOrder at h; split at h <;> simp_all

end

/-- Within a bounded capacity. -/
@[simp] theorem within_some (m n : Nat) : within (some m) n = true ↔ n ≤ m := decide_eq_true_iff

/-- Within an unbounded one. -/
@[simp] theorem within_none (n : Nat) : within none n = true := rfl

/-- A smaller count is within whatever a larger one is. -/
theorem within_mono {c : Option Nat} {m n : Nat} (h : m ≤ n) (hn : within c n = true) : within c m = true := by
  cases c with
  | none => rfl
  | some k => simp only [within_some] at *; omega

/-- `MAXN <= MAXSIG` (R5): whatever fits an object fits a buffer. -/
theorem within_maxsig {p : Params} (h : p.Ok) {n : Nat} (hn : within p.MAXN n = true) :
    within p.MAXSIG n = true := by
  cases hm : p.MAXSIG with
  | none => rfl
  | some m =>
    obtain ⟨-, k, hk, hkm⟩ := h.maxsig m hm
    rw [hk] at hn
    simp only [within_some] at *
    omega

/-- An exponent of ones over a nonzero fraction is a NaN. -/
theorem isNaN_ofSignMag (s : Bool) (z : Nat) (h1 : 0 < z) (h2 : z < 2 ^ 52) :
    Fp.isNaN (Fp.ofSignMag s (2047 * 2 ^ 52 + z)) = true := by
  simp only [Fp.isNaN, Fp.expBits, Fp.magBits, Fp.fracBits, Fp.ofSignMag, BitVec.toNat_ofNat]
  simp only [Bool.and_eq_true, beq_iff_eq, bne_iff_ne]
  cases s <;> simp only [if_true, Bool.false_eq_true, if_false] <;> constructor <;> omega

/-- A computed NaN is a NaN, whatever its sign and payload (93_implementation_defined.md U6). -/
@[simp] theorem isNaN_nan (op : NumOp) (a b : Word) : Fp.isNaN (Fp.nan op a b) = true := by
  unfold Fp.nan
  have h : Fp.fracBits (Config.nanPayload op a b) < 2 ^ 52 := Nat.mod_lt _ (by omega)
  apply isNaN_ofSignMag <;> split <;> omega

end Sys2Proof.Machine
end

