-- ==== Sys2Proof/Laws/Binary64.lean ====
section
/-! SUPPORT. The laws of binary64: fields of a word built from sign and magnitude, negation through the operations, and the size of a rounded result. -/

namespace Sys2Proof.Machine.Fp

/-! ## Words from sign and magnitude -/

theorem magBits_lt (a : Word) : magBits a < 2 ^ 63 := Nat.mod_lt _ (by omega)

theorem ofSignMag_toNat (s : Bool) {m : Nat} (h : m < 2 ^ 63) :
    (ofSignMag s m).toNat = if s then 2 ^ 63 + m else m := by
  rw [ofSignMag, BitVec.toNat_ofNat]
  cases s <;> simp only [if_true, Bool.false_eq_true, if_false] <;> omega

@[simp] theorem sign_ofSignMag (s : Bool) {m : Nat} (h : m < 2 ^ 63) : sign (ofSignMag s m) = s := by
  rw [sign, ofSignMag_toNat s h]
  cases s <;> simp only [if_true, Bool.false_eq_true, if_false, decide_eq_true_eq, decide_eq_false_iff_not] <;> omega

@[simp] theorem magBits_ofSignMag (s : Bool) {m : Nat} (h : m < 2 ^ 63) :
    magBits (ofSignMag s m) = m := by
  rw [magBits, ofSignMag_toNat s h]
  cases s <;> simp only [if_true, Bool.false_eq_true, if_false] <;> omega

/-- The fraction is a part of the magnitude. -/
theorem fracBits_eq (a : Word) : fracBits a = magBits a % 2 ^ 52 := by
  unfold fracBits magBits; omega

/-- A word is determined by sign and magnitude. -/
theorem eq_of_sign_magBits {a b : Word} (hs : sign a = sign b) (hm : magBits a = magBits b) : a = b := by
  have ha := a.isLt
  have hb := b.isLt
  apply BitVec.eq_of_toNat_eq
  have h : 2 ^ 63 ≤ a.toNat ↔ 2 ^ 63 ≤ b.toNat := by
    simpa only [sign, decide_eq_decide] using hs
  unfold magBits at hm
  omega

/-! ## Negation -/

@[simp] theorem sign_neg (a : Word) : sign (neg a) = !sign a := sign_ofSignMag _ (magBits_lt a)
@[simp] theorem magBits_neg (a : Word) : magBits (neg a) = magBits a := magBits_ofSignMag _ (magBits_lt a)
@[simp] theorem expBits_neg (a : Word) : expBits (neg a) = expBits a := by simp [expBits]
@[simp] theorem fracBits_neg (a : Word) : fracBits (neg a) = fracBits a := by simp [fracBits_eq]
@[simp] theorem isNaN_neg (a : Word) : isNaN (neg a) = isNaN a := by simp [isNaN]
@[simp] theorem isInf_neg (a : Word) : isInf (neg a) = isInf a := by simp [isInf]
@[simp] theorem isFinite_neg (a : Word) : isFinite (neg a) = isFinite a := by simp [isFinite]
@[simp] theorem isZero_neg (a : Word) : isZero (neg a) = isZero a := by simp [isZero]
@[simp] theorem magUnits_neg (a : Word) : magUnits (neg a) = magUnits a := by simp [magUnits]
@[simp] theorem abs_neg (a : Word) : abs (neg a) = abs a := by simp [abs]

theorem neg_ofSignMag (s : Bool) {m : Nat} (h : m < 2 ^ 63) :
    neg (ofSignMag s m) = ofSignMag (!s) m := by
  rw [neg, sign_ofSignMag s h, magBits_ofSignMag s h]

/-- A finite word is neither a NaN nor an infinity. -/
theorem isFinite_iff (a : Word) : isFinite a = true ↔ isNaN a = false ∧ isInf a = false := by
  unfold isFinite isNaN isInf
  by_cases h : expBits a = 2047
  · by_cases h' : fracBits a = 0 <;> simp [h, h']
  · simp [h]

/-! ## Rounding -/

theorem roundMag_le (p q : Nat) : roundMag p q ≤ 2047 * 2 ^ 52 := Nat.min_le_right _ _

theorem roundMag_lt (p q : Nat) : roundMag p q < 2 ^ 63 :=
  lt_of_le_of_lt (roundMag_le p q) (by omega)

@[simp] theorem neg_round (s : Bool) (p q : Nat) : neg (round s p q) = round (!s) p q :=
  neg_ofSignMag s (roundMag_lt p q)

theorem roundHalfEven_le (p q : Nat) : roundHalfEven p q ≤ p / q + 1 := by
  unfold roundHalfEven
  dsimp only
  split
  · omega
  · split
    · omega
    · split <;> omega

theorem le_roundHalfEven (p q : Nat) : p / q ≤ roundHalfEven p q := by
  unfold roundHalfEven
  dsimp only
  split
  · omega
  · split
    · omega
    · split <;> omega

/-- A ratio below `2^j` rounds to an encoding of at most `2^j`. -/
theorem roundMag_le_of_lt {p q j : Nat} (hj : 53 ≤ j) (h : p / q < 2 ^ j) :
    roundMag p q ≤ (j - 51) * 2 ^ 52 := by
  unfold roundMag
  refine le_trans (Nat.min_le_left _ _) ?_
  have hlog : p / q < 2 ^ (Nat.log2 (p / q) + 1) := Nat.lt_log2_self
  have hk : Nat.log2 (p / q) ≤ j - 1 := by
    by_cases h0 : p / q = 0
    · rw [h0]; simp
    · have := (Nat.log2_lt h0).2 h
      omega
  generalize hl : Nat.log2 (p / q) = l at *
  have hd : p / (q * 2 ^ (l - 52)) < 2 ^ 53 := by
    rw [← Nat.div_div_eq_div_mul]
    apply Nat.div_lt_of_lt_mul
    refine lt_of_lt_of_le hlog ?_
    rw [← Nat.pow_add]
    exact Nat.pow_le_pow_right (by omega) (by omega)
  have hr := roundHalfEven_le p (q * 2 ^ (l - 52))
  have e : (j - 51) * 2 ^ 52 = (j - 53) * 2 ^ 52 + 2 ^ 53 := by
    rw [show j - 51 = (j - 53) + 2 by omega]; ring
  have m : (l - 52) * 2 ^ 52 ≤ (j - 53) * 2 ^ 52 := Nat.mul_le_mul_right _ (by omega)
  rw [e]
  exact Nat.add_le_add m (le_trans hr hd)

/-- A ratio of at least 1 unit does not round to zero. -/
theorem roundMag_pos {p q : Nat} (h : 1 ≤ p / q) : 0 < roundMag p q := by
  unfold roundMag
  refine lt_min ?_ (by omega)
  have hl : 2 ^ Nat.log2 (p / q) ≤ p / q := Nat.log2_self_le (by omega)
  have hr := le_roundHalfEven p (q * 2 ^ (Nat.log2 (p / q) - 52))
  have hd : 1 ≤ p / (q * 2 ^ (Nat.log2 (p / q) - 52)) := by
    rw [← Nat.div_div_eq_div_mul]
    apply (Nat.one_le_div_iff (by positivity)).2
    exact le_trans (Nat.pow_le_pow_right (by omega) (by omega)) hl
  omega

/-- A magnitude of at most the encoding of `2^j` is finite, and at most `2^j` units. -/
theorem finite_of_magBits_le {a : Word} {j : Nat} (hj : 53 ≤ j) (hj' : j ≤ 2000)
    (h : magBits a ≤ (j - 51) * 2 ^ 52) : isFinite a = true ∧ magUnits a ≤ 2 ^ j := by
  have he : expBits a ≤ j - 51 := by
    unfold expBits
    exact Nat.div_le_of_le_mul (by rw [Nat.mul_comm]; exact h)
  have hf : fracBits a < 2 ^ 52 := Nat.mod_lt _ (by omega)
  refine ⟨by simp only [isFinite, bne_iff_ne]; omega, ?_⟩
  unfold magUnits
  split
  · exact le_trans (by omega) (Nat.pow_le_pow_right (show 0 < 2 by omega) hj)
  · next h0 =>
    rcases Nat.lt_or_ge (expBits a) (j - 51) with hl | hl
    · have h1 : (2 ^ 52 + fracBits a) * 2 ^ (expBits a - 1) ≤ 2 ^ 53 * 2 ^ (j - 53) :=
        Nat.mul_le_mul (by omega) (Nat.pow_le_pow_right (by omega) (by omega))
      rwa [← Nat.pow_add, show 53 + (j - 53) = j by omega] at h1
    · have h2 : expBits a = j - 51 := by omega
      have h3 : fracBits a = 0 := by
        have := Nat.div_add_mod (magBits a) (2 ^ 52)
        rw [← fracBits_eq] at this
        change 2 ^ 52 * expBits a + _ = _ at this
        rw [h2, Nat.mul_comm] at this
        omega
      rw [h2, h3, Nat.add_zero, ← Nat.pow_add, show 52 + (j - 51 - 1) = j by omega]

/-- A word whose magnitude bits are not 0 is at least one unit. -/
theorem magUnits_pos {a : Word} (h : magBits a ≠ 0) : 1 ≤ magUnits a := by
  have hf := fracBits_eq a
  have he : expBits a = magBits a / 2 ^ 52 := rfl
  unfold magUnits
  split
  · omega
  · exact Nat.mul_pos (by omega) (Nat.two_pow_pos _)

/-- The size of a rounded ratio. -/
theorem round_finite {p q j : Nat} (s : Bool) (hj : 53 ≤ j) (hj' : j ≤ 2000) (h : p / q < 2 ^ j) :
    isFinite (round s p q) = true ∧ magUnits (round s p q) ≤ 2 ^ j :=
  finite_of_magBits_le hj hj' (by
    rw [round, magBits_ofSignMag s (roundMag_lt p q)]
    exact roundMag_le_of_lt hj h)

/-! ## Operations -/

theorem mul_finite {a b : Word} (ha : isFinite a = true) (hb : isFinite b = true) :
    mul a b = round (sign a != sign b) (magUnits a * magUnits b) (2 ^ 1074) := by
  obtain ⟨h1, h2⟩ := (isFinite_iff a).1 ha
  obtain ⟨h3, h4⟩ := (isFinite_iff b).1 hb
  unfold mul
  simp only [h1, h2, h3, h4, Bool.or_false, Bool.false_eq_true, if_false]

/-- A product with a negated factor is the product negated. -/
theorem mul_neg {a b : Word} (ha : isFinite a = true) (hb : isFinite b = true) :
    mul a (neg b) = neg (mul a b) := by
  rw [mul_finite ha hb, mul_finite ha (by simpa using hb), neg_round, sign_neg, magUnits_neg]
  congr 1
  cases sign a <;> cases sign b <;> rfl

/-- A quotient of two negated numbers is the quotient. -/
theorem div_neg_neg {a b : Word} (ha : isNaN a = false) (hb : isNaN b = false) (hi : isInf b = false)
    (h0 : isZero b = false) : div (neg a) (neg b) = div a b := by
  have hs : (sign (neg a) != sign (neg b)) = (sign a != sign b) := by
    rw [sign_neg, sign_neg]; cases sign a <;> cases sign b <;> rfl
  unfold div
  simp only [isNaN_neg, isInf_neg, isZero_neg, magUnits_neg, hs, ha, hb, hi, h0, Bool.or_false,
    Bool.false_eq_true, if_false]

/-- A nonzero integer's negation converts to the negated number. -/
theorem ofInt_neg {z : Int} (h : z ≠ 0) : ofInt (-z) = neg (ofInt z) := by
  unfold ofInt
  rw [if_neg h, if_neg (by omega), neg_round, Int.natAbs_neg]
  congr 1
  by_cases hz : z < 0
  · rw [decide_eq_true hz, decide_eq_false (by omega)]; rfl
  · rw [decide_eq_false hz, decide_eq_true (by omega)]; rfl

end Sys2Proof.Machine.Fp
end

