-- ==== Sys2Proof/Laws/Decode.lean ====
section
/-! SUPPORT. The fields of a packed word, and a word as the sum of its fields (spec 30_encoding.md R70, R75). -/

namespace Sys2Proof

@[simp] theorem WindowType.ofCode_code (t : WindowType) : WindowType.ofCode t.code = t := by
  cases t <;> rfl

theorem WindowType.code_lt (t : WindowType) : t.code < 4 := by cases t <;> decide

theorem WindowType.code_ofCode {n : Nat} (h : n < 4) : (WindowType.ofCode n).code = n := by
  have : n = 0 ∨ n = 1 ∨ n = 2 ∨ n = 3 := by omega
  rcases this with rfl | rfl | rfl | rfl <;> rfl

theorem pack_toNat {op : Nat} (h : op < 256) (a b c : Idx) (wt : WindowType) (n : SizeImm) :
    (pack op a b c wt n).toNat =
      op + a.toNat * 2 ^ 8 + b.toNat * 2 ^ 12 + c.toNat * 2 ^ 16 + wt.code * 2 ^ 20 + n.toNat * 2 ^ 32 := by
  have ha := a.isLt; have hb := b.isLt; have hc := c.isLt; have hn := n.isLt; have hw := wt.code_lt
  rw [pack, BitVec.toNat_ofNat, Nat.mod_eq_of_lt]
  omega

section
variable {op : Nat} (h : op < 256) (a b c : Idx) (wt : WindowType) (n : SizeImm)
include h

theorem opField_pack : opField (pack op a b c wt n) = op := by
  have ha := a.isLt; have hb := b.isLt; have hc := c.isLt; have hn := n.isLt; have hw := wt.code_lt
  rw [opField, field, pack_toNat h]; omega

theorem aField_pack : aField (pack op a b c wt n) = a := by
  have ha := a.isLt; have hb := b.isLt; have hc := c.isLt; have hn := n.isLt; have hw := wt.code_lt
  apply BitVec.eq_of_toNat_eq
  rw [aField, field, pack_toNat h, BitVec.toNat_ofNat]; omega

theorem bField_pack : bField (pack op a b c wt n) = b := by
  have ha := a.isLt; have hb := b.isLt; have hc := c.isLt; have hn := n.isLt; have hw := wt.code_lt
  apply BitVec.eq_of_toNat_eq
  rw [bField, field, pack_toNat h, BitVec.toNat_ofNat]; omega

theorem cField_pack : cField (pack op a b c wt n) = c := by
  have ha := a.isLt; have hb := b.isLt; have hc := c.isLt; have hn := n.isLt; have hw := wt.code_lt
  apply BitVec.eq_of_toNat_eq
  rw [cField, field, pack_toNat h, BitVec.toNat_ofNat]; omega

theorem nField_pack : nField (pack op a b c wt n) = n := by
  have ha := a.isLt; have hb := b.isLt; have hc := c.isLt; have hn := n.isLt; have hw := wt.code_lt
  apply BitVec.eq_of_toNat_eq
  rw [nField, field, pack_toNat h, BitVec.toNat_ofNat]; omega

theorem wtField_pack : wtField (pack op a b c wt n) = wt := by
  have ha := a.isLt; have hb := b.isLt; have hc := c.isLt; have hn := n.isLt; have hw := wt.code_lt
  have : field (pack op a b c wt n) 20 2 = wt.code := by rw [field, pack_toNat h]; omega
  rw [wtField, this, WindowType.ofCode_code]

theorem reservedField_pack : reservedField (pack op a b c wt n) = 0 := by
  have ha := a.isLt; have hb := b.isLt; have hc := c.isLt; have hn := n.isLt; have hw := wt.code_lt
  rw [reservedField, field, pack_toNat h]; omega

end

theorem Instr.opcode_lt (i : Instr) : i.opcode < 256 := by cases i <;> simp [Instr.opcode]

/-- A word whose reserved field is 0 is packed from its fields. -/
theorem pack_fields (w : Word) (h : reservedField w = 0) :
    pack (opField w) (aField w) (bField w) (cField w) (wtField w) (nField w) = w := by
  have hw := w.isLt
  have hwt : (wtField w).code = field w 20 2 := WindowType.code_ofCode (by simp only [field]; omega)
  apply BitVec.eq_of_toNat_eq
  rw [pack_toNat (by simp only [opField, field]; omega), hwt]
  simp only [reservedField, opField, aField, bField, cField, nField, field, BitVec.toNat_ofNat] at *
  omega

/-- What a selected command is: its opcode is the `OP` value. -/
theorem selectOp_opcode {op : Nat} {a b c : Idx} {wt : WindowType} {n : SizeImm} {i : Instr}
    (h : selectOp op a b c wt n = some i) : i.opcode = op := by
  unfold selectOp at h
  split at h <;> first | (cases h; rfl) | cases h

/-- A command's opcode selects it, from its own fields. -/
theorem selectOp_fields (i : Instr) :
    selectOp i.opcode i.fields.1 i.fields.2.1 i.fields.2.2.1 i.fields.2.2.2.1 i.fields.2.2.2.2 = some i := by
  cases i <;> rfl

/-- Everything the decoder can accept, said once. -/
theorem decodeIn_eq_ok_iff (p : Params) (w : Word) (i : Instr) :
    decodeIn p w = .ok i ↔
      selectOp (opField w) (aField w) (bField w) (cField w) (wtField w) (nField w) = some i ∧
        reservedField w = 0 ∧ i.format.unusedZero w = true ∧ i.WellFormedIn p = true := by
  unfold decodeIn
  split
  · next h => simp [h]
  · next j h =>
    rw [h]
    constructor
    · intro hd
      split at hd
      · cases hd
      · split at hd
        · cases hd
        · split at hd
          · cases hd
          · cases hd; simp_all
    · rintro ⟨hj, h1, h2, h3⟩
      cases hj
      simp [h1, h2, h3]

/-- `decodeIn_eq_ok_iff` for this hardware. -/
theorem decode_eq_ok_iff (w : Word) (i : Instr) :
    decode w = .ok i ↔
      selectOp (opField w) (aField w) (bField w) (cField w) (wtField w) (nField w) = some i ∧
        reservedField w = 0 ∧ i.format.unusedZero w = true ∧ i.WellFormed = true :=
  decodeIn_eq_ok_iff _ w i

end Sys2Proof
end

