-- ==== Sys2Proof/Laws/Memory.lean ====
section
/-! SUPPORT. The laws of buffer elements: reading after writing, and the canonical form that every operation keeps. -/

namespace Sys2Proof.Machine.Memory

variable {Cell : Type}

@[simp] theorem load_nil (i : Nat) : load ([] : Memory Cell) i = none := rfl

@[simp] theorem storeFrom_nil (m : Memory Cell) (i : Nat) : storeFrom m i [] = m := rfl

@[simp] theorem storeFrom_cons (m : Memory Cell) (i : Nat) (v : Cell) (vs : List Cell) :
    storeFrom m i (v :: vs) = storeFrom (store m i v) (i + 1) vs := rfl

@[simp] theorem readFrom_zero (m : Memory Cell) (i : Nat) : readFrom m i 0 = some [] := rfl

/-- A read after a write gives the value written at the same element, and elsewhere what was there. -/
@[simp] theorem load_store (m : Memory Cell) (i j : Nat) (v : Cell) :
    load (store m i v) j = if j = i then some v else load m j := by
  induction m with
  | nil => simp [store, load]
  | cons c m ih =>
    obtain ⟨k, w⟩ := c
    simp only [store]
    split
    · simp [load]
    · split
      · next h => subst h; simp only [load]; split <;> rfl
      · next h => simp only [load, ih]; split <;> split <;> first | rfl | omega

/-- What a sequence write leaves at each element. -/
theorem load_storeFrom (m : Memory Cell) (i : Nat) (vs : List Cell) (j : Nat) :
    load (storeFrom m i vs) j = if i ≤ j ∧ j < i + vs.length then vs[j - i]? else load m j := by
  induction vs generalizing m i with
  | nil => simp
  | cons v vs ih =>
    rw [storeFrom_cons, ih, load_store]
    by_cases h : j = i
    · subst h; simp
    · by_cases h' : i + 1 ≤ j ∧ j < i + 1 + vs.length
      · have : j - i = (j - (i + 1)) + 1 := by omega
        rw [if_pos h', if_pos (by simp; omega), this]; simp
      · rw [if_neg h', if_neg h, if_neg (by simp; omega)]

/-- An element inside the written range holds the sequence's value. -/
theorem load_storeFrom_in (m : Memory Cell) (vs : List Cell) (j : Nat) (h : j < vs.length) :
    load (storeFrom m 0 vs) j = vs[j]? := by
  rw [load_storeFrom, if_pos (by omega)]; rfl

/-- An element above the written range keeps its value and its mark. -/
theorem load_storeFrom_out (m : Memory Cell) (vs : List Cell) (j : Nat) (h : vs.length ≤ j) :
    load (storeFrom m 0 vs) j = load m j := by
  rw [load_storeFrom, if_neg (by omega)]

/-- Reading back a range that was written gives the sequence. -/
theorem readFrom_eq_some_iff (m : Memory Cell) (i n : Nat) (xs : List Cell) :
    readFrom m i n = some xs ↔ xs.length = n ∧ ∀ j < n, load m (i + j) = xs[j]? := by
  induction n generalizing i xs with
  | zero => cases xs <;> simp
  | succ n ih =>
    simp only [readFrom]
    constructor
    · intro h
      split at h
      · next v vs hv hvs =>
        obtain rfl : v :: vs = xs := by simpa using h
        obtain ⟨hl, hj⟩ := (ih _ _).1 hvs
        refine ⟨by simp [hl], fun j hjn => ?_⟩
        cases j with
        | zero => simpa using hv
        | succ j =>
          have := hj j (by omega)
          rw [show i + (j + 1) = i + 1 + j by omega, this]; simp
      · cases h
    · rintro ⟨hl, hj⟩
      cases xs with
      | nil => simp at hl
      | cons v vs =>
        have h0 : load m i = some v := by simpa using hj 0 (by omega)
        have h1 : readFrom m (i + 1) n = some vs := by
          refine (ih _ _).2 ⟨by simpa using hl, fun j hjn => ?_⟩
          have := hj (j + 1) (by omega)
          rw [show i + 1 + j = i + (j + 1) by omega, this]; simp
        rw [h0, h1]

theorem readFrom_length {m : Memory Cell} {i n : Nat} {xs : List Cell} (h : readFrom m i n = some xs) :
    xs.length = n := ((readFrom_eq_some_iff m i n xs).1 h).1

/-- A range all of whose elements are written can be read. -/
theorem readFrom_isSome (m : Memory Cell) (i n : Nat) (h : ∀ j < n, (load m (i + j)).isSome) :
    ∃ xs, readFrom m i n = some xs := by
  induction n generalizing i with
  | zero => exact ⟨[], rfl⟩
  | succ n ih =>
    obtain ⟨v, hv⟩ := Option.isSome_iff_exists.1 (h 0 (by omega))
    obtain ⟨vs, hvs⟩ := ih (i + 1) (fun j hj => by
      have := h (j + 1) (by omega)
      rwa [show i + (j + 1) = i + 1 + j by omega] at this)
    exact ⟨v :: vs, by simp only [readFrom]; rw [show i = i + 0 from rfl, hv]; simp [hvs]⟩

theorem readFrom_storeFrom (m : Memory Cell) (vs : List Cell) :
    readFrom (storeFrom m 0 vs) 0 vs.length = some vs :=
  (readFrom_eq_some_iff _ _ _ _).2 ⟨rfl, fun j hj => by simpa using load_storeFrom_in m vs j hj⟩

theorem mem_fst_store {m : Memory Cell} {i : Nat} {v : Cell} {c : Nat × Cell} (h : c ∈ store m i v) :
    c.1 = i ∨ c ∈ m := by
  induction m with
  | nil => simp [store] at h; simp [h]
  | cons d m ih =>
    obtain ⟨k, w⟩ := d
    simp only [store] at h
    split at h
    · simp at h ⊢; rcases h with rfl | h | h <;> simp_all
    · split at h
      · simp at h ⊢; rcases h with rfl | h <;> simp_all
      · simp at h ⊢
        rcases h with h | h
        · simp [h]
        · rcases ih h with h | h <;> simp [h]

/-- A write keeps the canonical form. -/
theorem wf_store {m : Memory Cell} (h : wf m) (i : Nat) (v : Cell) : wf (store m i v) := by
  induction m with
  | nil => simp [store, wf]
  | cons d m ih =>
    obtain ⟨k, w⟩ := d
    obtain ⟨hk, hm⟩ := List.pairwise_cons.1 (show List.Pairwise (· < ·) (k :: m.map Prod.fst) from h)
    simp only [store]
    split
    · next hik =>
      refine List.pairwise_cons.2 ⟨fun a ha => ?_, h⟩
      rcases List.mem_cons.1 ha with rfl | ha
      · exact hik
      · exact lt_trans hik (hk a ha)
    · split
      · next hik => subst hik; exact List.pairwise_cons.2 ⟨hk, hm⟩
      · refine List.pairwise_cons.2 ⟨fun a ha => ?_, ih hm⟩
        obtain ⟨c, hc, rfl⟩ := List.mem_map.1 ha
        rcases mem_fst_store hc with h' | h'
        · show k < c.1; omega
        · exact hk _ (List.mem_map_of_mem h')

/-- A sequence write keeps the canonical form. -/
theorem wf_storeFrom {m : Memory Cell} (h : wf m) (i : Nat) (vs : List Cell) : wf (storeFrom m i vs) := by
  induction vs generalizing m i with
  | nil => exact h
  | cons v vs ih => exact ih (wf_store h i v) (i + 1)

/-- Every element a sequence write lists was listed before or lies in the written range. -/
theorem fst_lt_storeFrom {m : Memory Cell} {n : Nat} (h : ∀ c ∈ m, c.1 < n) (i : Nat) (vs : List Cell)
    (hn : i + vs.length ≤ n) : ∀ c ∈ storeFrom m i vs, c.1 < n := by
  induction vs generalizing m i with
  | nil => exact h
  | cons v vs ih =>
    have hn' : i + (vs.length + 1) ≤ n := by simpa using hn
    refine ih (fun c hc => ?_) (i + 1) (by omega)
    rcases mem_fst_store hc with h' | h'
    · omega
    · exact h c h'

end Sys2Proof.Machine.Memory
end

