-- ==== Sys2Proof/Laws/State.lean ====
section
/-! SUPPORT. One lemma per field of State and per update of it, so that no later proof unfolds a record update. -/

namespace Sys2Proof.Machine

variable {Cell α : Type} {C : Configuration Cell α} (s : State.Of C)

@[simp] theorem State.Of.setErr_err (e : Status) : (s.setErr e).err = e := rfl
@[simp] theorem State.Of.setErr_res (e : Status) : (s.setErr e).res = s.res := rfl
@[simp] theorem State.Of.setErr_arg0 (e : Status) : (s.setErr e).arg0 = s.arg0 := rfl
@[simp] theorem State.Of.setErr_arg1 (e : Status) : (s.setErr e).arg1 = s.arg1 := rfl
@[simp] theorem State.Of.setErr_filters (e : Status) : (s.setErr e).filters = s.filters := rfl
@[simp] theorem State.Of.setErr_windows (e : Status) : (s.setErr e).windows = s.windows := rfl
@[simp] theorem State.Of.setErr_buffers (e : Status) : (s.setErr e).buffers = s.buffers := rfl
@[simp] theorem State.Of.setErr_pending (e : Status) : (s.setErr e).pending = s.pending := rfl
@[simp] theorem State.Of.setErr_responses (e : Status) : (s.setErr e).responses = s.responses := rfl
@[simp] theorem State.Of.setErr_epoch (e : Status) : (s.setErr e).epoch = s.epoch := rfl

@[simp] theorem State.Of.setRes_err (v : Cell) : (s.setRes v).err = s.err := rfl
@[simp] theorem State.Of.setRes_res (v : Cell) : (s.setRes v).res = v := rfl
@[simp] theorem State.Of.setRes_arg0 (v : Cell) : (s.setRes v).arg0 = s.arg0 := rfl
@[simp] theorem State.Of.setRes_arg1 (v : Cell) : (s.setRes v).arg1 = s.arg1 := rfl
@[simp] theorem State.Of.setRes_filters (v : Cell) : (s.setRes v).filters = s.filters := rfl
@[simp] theorem State.Of.setRes_windows (v : Cell) : (s.setRes v).windows = s.windows := rfl
@[simp] theorem State.Of.setRes_buffers (v : Cell) : (s.setRes v).buffers = s.buffers := rfl
@[simp] theorem State.Of.setRes_pending (v : Cell) : (s.setRes v).pending = s.pending := rfl
@[simp] theorem State.Of.setRes_responses (v : Cell) : (s.setRes v).responses = s.responses := rfl
@[simp] theorem State.Of.setRes_epoch (v : Cell) : (s.setRes v).epoch = s.epoch := rfl

@[simp] theorem State.Of.setResNat_res (n : Nat) : (s.setResNat n).res = C.num.ofWord (zext64 n) := rfl
@[simp] theorem State.Of.setResNat_err (n : Nat) : (s.setResNat n).err = s.err := rfl
@[simp] theorem State.Of.setResNat_arg0 (n : Nat) : (s.setResNat n).arg0 = s.arg0 := rfl
@[simp] theorem State.Of.setResNat_arg1 (n : Nat) : (s.setResNat n).arg1 = s.arg1 := rfl
@[simp] theorem State.Of.setResNat_filters (n : Nat) : (s.setResNat n).filters = s.filters := rfl
@[simp] theorem State.Of.setResNat_windows (n : Nat) : (s.setResNat n).windows = s.windows := rfl
@[simp] theorem State.Of.setResNat_buffers (n : Nat) : (s.setResNat n).buffers = s.buffers := rfl
@[simp] theorem State.Of.setResNat_pending (n : Nat) : (s.setResNat n).pending = s.pending := rfl
@[simp] theorem State.Of.setResNat_responses (n : Nat) : (s.setResNat n).responses = s.responses := rfl
@[simp] theorem State.Of.setResNat_epoch (n : Nat) : (s.setResNat n).epoch = s.epoch := rfl

@[simp] theorem State.Of.setFilter_err (f : Idx) (v : Option (Filter α)) : (s.setFilter f v).err = s.err := rfl
@[simp] theorem State.Of.setFilter_res (f : Idx) (v : Option (Filter α)) : (s.setFilter f v).res = s.res := rfl
@[simp] theorem State.Of.setFilter_arg0 (f : Idx) (v : Option (Filter α)) : (s.setFilter f v).arg0 = s.arg0 := rfl
@[simp] theorem State.Of.setFilter_arg1 (f : Idx) (v : Option (Filter α)) : (s.setFilter f v).arg1 = s.arg1 := rfl
@[simp] theorem State.Of.setFilter_filters (f : Idx) (v : Option (Filter α)) : (s.setFilter f v).filters = s.filters.setIfInBounds f.toNat v := rfl
@[simp] theorem State.Of.setFilter_windows (f : Idx) (v : Option (Filter α)) : (s.setFilter f v).windows = s.windows := rfl
@[simp] theorem State.Of.setFilter_buffers (f : Idx) (v : Option (Filter α)) : (s.setFilter f v).buffers = s.buffers := rfl
@[simp] theorem State.Of.setFilter_pending (f : Idx) (v : Option (Filter α)) : (s.setFilter f v).pending = s.pending := rfl
@[simp] theorem State.Of.setFilter_responses (f : Idx) (v : Option (Filter α)) : (s.setFilter f v).responses = s.responses := rfl
@[simp] theorem State.Of.setFilter_epoch (f : Idx) (v : Option (Filter α)) : (s.setFilter f v).epoch = s.epoch := rfl

@[simp] theorem State.Of.setWindow_err (w : Idx) (v : Option (Window α)) : (s.setWindow w v).err = s.err := rfl
@[simp] theorem State.Of.setWindow_res (w : Idx) (v : Option (Window α)) : (s.setWindow w v).res = s.res := rfl
@[simp] theorem State.Of.setWindow_arg0 (w : Idx) (v : Option (Window α)) : (s.setWindow w v).arg0 = s.arg0 := rfl
@[simp] theorem State.Of.setWindow_arg1 (w : Idx) (v : Option (Window α)) : (s.setWindow w v).arg1 = s.arg1 := rfl
@[simp] theorem State.Of.setWindow_filters (w : Idx) (v : Option (Window α)) : (s.setWindow w v).filters = s.filters := rfl
@[simp] theorem State.Of.setWindow_windows (w : Idx) (v : Option (Window α)) : (s.setWindow w v).windows = s.windows.setIfInBounds w.toNat v := rfl
@[simp] theorem State.Of.setWindow_buffers (w : Idx) (v : Option (Window α)) : (s.setWindow w v).buffers = s.buffers := rfl
@[simp] theorem State.Of.setWindow_pending (w : Idx) (v : Option (Window α)) : (s.setWindow w v).pending = s.pending := rfl
@[simp] theorem State.Of.setWindow_responses (w : Idx) (v : Option (Window α)) : (s.setWindow w v).responses = s.responses := rfl
@[simp] theorem State.Of.setWindow_epoch (w : Idx) (v : Option (Window α)) : (s.setWindow w v).epoch = s.epoch := rfl

@[simp] theorem State.Of.setBuffer_err (k : Nat) (b : Buffer Cell) : (s.setBuffer k b).err = s.err := rfl
@[simp] theorem State.Of.setBuffer_res (k : Nat) (b : Buffer Cell) : (s.setBuffer k b).res = s.res := rfl
@[simp] theorem State.Of.setBuffer_arg0 (k : Nat) (b : Buffer Cell) : (s.setBuffer k b).arg0 = s.arg0 := rfl
@[simp] theorem State.Of.setBuffer_arg1 (k : Nat) (b : Buffer Cell) : (s.setBuffer k b).arg1 = s.arg1 := rfl
@[simp] theorem State.Of.setBuffer_filters (k : Nat) (b : Buffer Cell) : (s.setBuffer k b).filters = s.filters := rfl
@[simp] theorem State.Of.setBuffer_windows (k : Nat) (b : Buffer Cell) : (s.setBuffer k b).windows = s.windows := rfl
@[simp] theorem State.Of.setBuffer_buffers (k : Nat) (b : Buffer Cell) : (s.setBuffer k b).buffers = s.buffers.setIfInBounds k b := rfl
@[simp] theorem State.Of.setBuffer_pending (k : Nat) (b : Buffer Cell) : (s.setBuffer k b).pending = s.pending := rfl
@[simp] theorem State.Of.setBuffer_responses (k : Nat) (b : Buffer Cell) : (s.setBuffer k b).responses = s.responses := rfl
@[simp] theorem State.Of.setBuffer_epoch (k : Nat) (b : Buffer Cell) : (s.setBuffer k b).epoch = s.epoch := rfl

@[simp] theorem State.Of.respond_err (r : Response Cell) : (s.respond r).err = s.err := rfl
@[simp] theorem State.Of.respond_res (r : Response Cell) : (s.respond r).res = s.res := rfl
@[simp] theorem State.Of.respond_arg0 (r : Response Cell) : (s.respond r).arg0 = s.arg0 := rfl
@[simp] theorem State.Of.respond_arg1 (r : Response Cell) : (s.respond r).arg1 = s.arg1 := rfl
@[simp] theorem State.Of.respond_filters (r : Response Cell) : (s.respond r).filters = s.filters := rfl
@[simp] theorem State.Of.respond_windows (r : Response Cell) : (s.respond r).windows = s.windows := rfl
@[simp] theorem State.Of.respond_buffers (r : Response Cell) : (s.respond r).buffers = s.buffers := rfl
@[simp] theorem State.Of.respond_pending (r : Response Cell) : (s.respond r).pending = s.pending := rfl
@[simp] theorem State.Of.respond_responses (r : Response Cell) : (s.respond r).responses = s.responses ++ [r] := rfl
@[simp] theorem State.Of.respond_epoch (r : Response Cell) : (s.respond r).epoch = s.epoch := rfl

@[simp] theorem State.Of.writeBuf_err (b : Idx) (xs : List α) : (s.writeBuf b xs).err = s.err := rfl
@[simp] theorem State.Of.writeBuf_res (b : Idx) (xs : List α) : (s.writeBuf b xs).res = s.res := rfl
@[simp] theorem State.Of.writeBuf_arg0 (b : Idx) (xs : List α) : (s.writeBuf b xs).arg0 = s.arg0 := rfl
@[simp] theorem State.Of.writeBuf_arg1 (b : Idx) (xs : List α) : (s.writeBuf b xs).arg1 = s.arg1 := rfl
@[simp] theorem State.Of.writeBuf_filters (b : Idx) (xs : List α) : (s.writeBuf b xs).filters = s.filters := rfl
@[simp] theorem State.Of.writeBuf_windows (b : Idx) (xs : List α) : (s.writeBuf b xs).windows = s.windows := rfl
@[simp] theorem State.Of.writeBuf_pending (b : Idx) (xs : List α) : (s.writeBuf b xs).pending = s.pending := rfl
@[simp] theorem State.Of.writeBuf_responses (b : Idx) (xs : List α) : (s.writeBuf b xs).responses = s.responses := rfl
@[simp] theorem State.Of.writeBuf_epoch (b : Idx) (xs : List α) : (s.writeBuf b xs).epoch = s.epoch := rfl

@[simp] theorem State.Of.resetInput_err : s.resetInput.err = (State.Of.reset C).err := rfl
@[simp] theorem State.Of.resetInput_res : s.resetInput.res = (State.Of.reset C).res := rfl
@[simp] theorem State.Of.resetInput_arg0 : s.resetInput.arg0 = (State.Of.reset C).arg0 := rfl
@[simp] theorem State.Of.resetInput_arg1 : s.resetInput.arg1 = (State.Of.reset C).arg1 := rfl
@[simp] theorem State.Of.resetInput_filters : s.resetInput.filters = (State.Of.reset C).filters := rfl
@[simp] theorem State.Of.resetInput_windows : s.resetInput.windows = (State.Of.reset C).windows := rfl
@[simp] theorem State.Of.resetInput_buffers : s.resetInput.buffers = (State.Of.reset C).buffers := rfl
@[simp] theorem State.Of.resetInput_pending : s.resetInput.pending = s.pending := rfl
@[simp] theorem State.Of.resetInput_responses : s.resetInput.responses = s.responses := rfl
@[simp] theorem State.Of.resetInput_epoch : s.resetInput.epoch = s.epoch + 1 := rfl

/-! The crossings of this hardware between a cell, a word and a number are the identity (R13). -/

@[simp] theorem binary64_ofWord (w : Word) : binary64.ofWord w = w := rfl
@[simp] theorem binary64_toWord (w : Word) : binary64.toWord w = some w := rfl
@[simp] theorem binary64_ofBits (w : Word) : binary64.ofBits w = some w := rfl
@[simp] theorem binary64_toBits (w : Word) : binary64.toBits w = w := rfl

/-- An element exists (R54, R56). -/
theorem hasElement_iff (p : Params) (k i : Nat) :
    Params.hasElement p k i = true ↔ k < p.NB ∧ within p.MAXSIG (i + 1) = true := by
  rw [Params.hasElement, Bool.and_eq_true, decide_eq_true_eq]

/-- `hasElement_iff` for this hardware. -/
@[simp] theorem hasElement_hardware (k i : Nat) :
    Params.hasElement Config.params k i = true ↔ k < Config.NB ∧ i < Config.MAXSIG :=
  (hasElement_iff _ _ _).trans (and_congr Iff.rfl (by rw [within, decide_eq_true_eq]; exact Nat.succ_le_iff))

/-- A step performs the host's next transaction. -/
theorem stepWith_cons {run : Executor C} {t : Transaction Cell} {rest : List (Transaction Cell)}
    (h : s.pending = t :: rest) : stepWith run s = perform run t { s with pending := rest } := by
  rw [stepWith, h]

/-- A step with no transaction left changes nothing. -/
theorem stepWith_nil {run : Executor C} (h : s.pending = []) : stepWith run s = .next s := by
  rw [stepWith, h]

/-- A second write of the status replaces the first. -/
@[simp] theorem State.Of.setErr_setErr (e e' : Status) : (s.setErr e).setErr e' = s.setErr e' := rfl

section
variable (s : State)

@[simp] theorem State.withFetchWord_err (n w : Nat) : (s.withFetchWord n w).err = s.err := rfl
@[simp] theorem State.withFetchWord_res (n w : Nat) : (s.withFetchWord n w).res = s.res := rfl
@[simp] theorem State.withFetchWord_arg0 (n w : Nat) : (s.withFetchWord n w).arg0 = s.arg0 := rfl
@[simp] theorem State.withFetchWord_arg1 (n w : Nat) : (s.withFetchWord n w).arg1 = s.arg1 := rfl
@[simp] theorem State.withFetchWord_filters (n w : Nat) : (s.withFetchWord n w).filters = s.filters := rfl
@[simp] theorem State.withFetchWord_windows (n w : Nat) : (s.withFetchWord n w).windows = s.windows := rfl
@[simp] theorem State.withFetchWord_buffers (n w : Nat) : (s.withFetchWord n w).buffers = s.buffers := rfl
@[simp] theorem State.withFetchWord_pending (n w : Nat) : (s.withFetchWord n w).pending = .regWrite 0 (tableWord n w) :: s.pending := rfl
@[simp] theorem State.withFetchWord_responses (n w : Nat) : (s.withFetchWord n w).responses = s.responses := rfl
@[simp] theorem State.withFetchWord_epoch (n w : Nat) : (s.withFetchWord n w).epoch = s.epoch := rfl

end

end Sys2Proof.Machine
end

