-- ==== Sys2Proof/Laws/Ops.lean ====
section
/-! SUPPORT. The laws of slots, buffers and the shared shapes of a command: what each reads after a write, and everything each shape can answer. -/

namespace Sys2Proof.Machine

variable {Cell α : Type} {C : Configuration Cell α} (s : State.Of C)

/-! ## Slots -/

theorem State.Of.filterAt_lt {f : Idx} {v : Filter α} (h : s.filterAt f = some v) :
    f.toNat < C.NF := by
  by_contra hn
  rw [State.Of.filterAt, Vector.getElem?_eq_none (by omega)] at h
  cases h

theorem State.Of.windowAt_lt {w : Idx} {v : Window α} (h : s.windowAt w = some v) :
    w.toNat < C.NW := by
  by_contra hn
  rw [State.Of.windowAt, Vector.getElem?_eq_none (by omega)] at h
  cases h

/-- A filter slot after a write to a slot. -/
theorem State.Of.filterAt_setFilter (f g : Idx) (v : Option (Filter α)) :
    (s.setFilter f v).filterAt g = if g = f ∧ f.toNat < C.NF then v else s.filterAt g := by
  simp only [State.Of.filterAt, State.Of.setFilter, Vector.getElem?_setIfInBounds]
  by_cases hg : f.toNat = g.toNat
  · have hgf : g = f := (BitVec.eq_of_toNat_eq hg).symm
    subst hgf
    by_cases hl : g.toNat < C.NF
    · simp [hl]
    · simp only [hl, if_true, if_false, and_false]
      rw [Vector.getElem?_eq_none (by omega)]
  · have : g ≠ f := fun h => hg (h ▸ rfl)
    simp [hg, this]

/-- A window slot after a write to a slot. -/
theorem State.Of.windowAt_setWindow (w x : Idx) (v : Option (Window α)) :
    (s.setWindow w v).windowAt x = if x = w ∧ w.toNat < C.NW then v else s.windowAt x := by
  simp only [State.Of.windowAt, State.Of.setWindow, Vector.getElem?_setIfInBounds]
  by_cases hg : w.toNat = x.toNat
  · have hgf : x = w := (BitVec.eq_of_toNat_eq hg).symm
    subst hgf
    by_cases hl : x.toNat < C.NW
    · simp [hl]
    · simp only [hl, if_true, if_false, and_false]
      rw [Vector.getElem?_eq_none (by omega)]
  · have : x ≠ w := fun h => hg (h ▸ rfl)
    simp [hg, this]

@[simp] theorem State.Of.filterAt_setErr (e : Status) (g : Idx) : (s.setErr e).filterAt g = s.filterAt g := rfl
@[simp] theorem State.Of.filterAt_setRes (v : Cell) (g : Idx) : (s.setRes v).filterAt g = s.filterAt g := rfl
@[simp] theorem State.Of.filterAt_setWindow (w : Idx) (v : Option (Window α)) (g : Idx) :
    (s.setWindow w v).filterAt g = s.filterAt g := rfl
@[simp] theorem State.Of.filterAt_setBuffer (k : Nat) (b : Buffer Cell) (g : Idx) :
    (s.setBuffer k b).filterAt g = s.filterAt g := rfl
@[simp] theorem State.Of.filterAt_writeBuf (b : Idx) (xs : List α) (g : Idx) :
    (s.writeBuf b xs).filterAt g = s.filterAt g := rfl
@[simp] theorem State.Of.filterAt_respond (r : Response Cell) (g : Idx) : (s.respond r).filterAt g = s.filterAt g := rfl

@[simp] theorem State.Of.windowAt_setErr (e : Status) (g : Idx) : (s.setErr e).windowAt g = s.windowAt g := rfl
@[simp] theorem State.Of.windowAt_setRes (v : Cell) (g : Idx) : (s.setRes v).windowAt g = s.windowAt g := rfl
@[simp] theorem State.Of.windowAt_setFilter (f : Idx) (v : Option (Filter α)) (g : Idx) :
    (s.setFilter f v).windowAt g = s.windowAt g := rfl
@[simp] theorem State.Of.windowAt_setBuffer (k : Nat) (b : Buffer Cell) (g : Idx) :
    (s.setBuffer k b).windowAt g = s.windowAt g := rfl
@[simp] theorem State.Of.windowAt_writeBuf (b : Idx) (xs : List α) (g : Idx) :
    (s.writeBuf b xs).windowAt g = s.windowAt g := rfl
@[simp] theorem State.Of.windowAt_respond (r : Response Cell) (g : Idx) : (s.respond r).windowAt g = s.windowAt g := rfl

/-! ## Buffers -/

/-- A buffer after a write of a whole buffer record. -/
theorem State.Of.bufferAt_setBuffer (k j : Nat) (b : Buffer Cell) :
    (s.setBuffer k b).bufferAt j = if j = k ∧ k < C.NB then b else s.bufferAt j := by
  simp only [State.Of.bufferAt, State.Of.setBuffer, Vector.getElem?_setIfInBounds]
  by_cases hk : k = j
  · subst hk
    by_cases hl : k < C.NB
    · simp [hl]
    · simp only [hl, if_true, if_false, and_false]
      rw [Vector.getElem?_eq_none (by omega)]
  · have : j ≠ k := fun h => hk h.symm
    simp [hk, this]

/-- A buffer after a sequence is written to one. -/
theorem State.Of.bufferAt_writeBuf (b : Idx) (xs : List α) (j : Nat) :
    (s.writeBuf b xs).bufferAt j =
      if j = b.toNat ∧ b.toNat < C.NB then
        { len := xs.length, mem := Memory.storeFrom (s.bufferAt b.toNat).mem 0 (xs.map C.num.toBits) }
      else s.bufferAt j := State.Of.bufferAt_setBuffer s _ _ _

@[simp] theorem State.Of.bufferAt_setErr (e : Status) (k : Nat) : (s.setErr e).bufferAt k = s.bufferAt k := rfl
@[simp] theorem State.Of.bufferAt_setRes (v : Cell) (k : Nat) : (s.setRes v).bufferAt k = s.bufferAt k := rfl
@[simp] theorem State.Of.bufferAt_setFilter (f : Idx) (v : Option (Filter α)) (k : Nat) :
    (s.setFilter f v).bufferAt k = s.bufferAt k := rfl
@[simp] theorem State.Of.bufferAt_setWindow (w : Idx) (v : Option (Window α)) (k : Nat) :
    (s.setWindow w v).bufferAt k = s.bufferAt k := rfl
@[simp] theorem State.Of.bufferAt_respond (r : Response Cell) (k : Nat) : (s.respond r).bufferAt k = s.bufferAt k := rfl

@[simp] theorem State.Of.bufferAt_setResNat (n : Nat) (k : Nat) : (s.setResNat n).bufferAt k = s.bufferAt k := rfl

/-! ## Sequences -/

/-- The numbers of some cells, cell by cell. -/
theorem numbers_eq_some_iff (N : Numerics Cell α) (cs : List Cell) (xs : List α) :
    numbers N cs = some xs ↔ cs.map N.ofBits = xs.map some := by
  induction cs generalizing xs with
  | nil => cases xs <;> simp [numbers]
  | cons c cs ih =>
    cases xs with
    | nil => simp only [numbers]; split <;> simp
    | cons x xs =>
      rw [List.map_cons, List.map_cons, List.cons.injEq, ← ih]
      cases h : N.ofBits c <;> cases h' : numbers N cs <;> simp [numbers, h, h']

theorem numbers_length {N : Numerics Cell α} {cs : List Cell} {xs : List α} (h : numbers N cs = some xs) :
    xs.length = cs.length := by
  have := congrArg List.length ((numbers_eq_some_iff N cs xs).1 h)
  simpa using this.symm

/-- Numbers put into cells and read back, where a number survives the crossing. -/
theorem numbers_map_toBits {N : Numerics Cell α} (h : ∀ a, N.ofBits (N.toBits a) = some a) (xs : List α) :
    numbers N (xs.map N.toBits) = some xs :=
  (numbers_eq_some_iff N _ _).2 (by simp [Function.comp_def, h])

/-- With `NUM = binary64` every cell is a number (R13). -/
@[simp] theorem numbers_binary64 (cs : List Word) : numbers binary64 cs = some cs :=
  (numbers_eq_some_iff _ _ _).2 rfl

theorem State.Of.cells_length {b : Idx} {cs : List Cell} (h : s.cells b = some cs) :
    cs.length = s.bufLen b := Memory.readFrom_length h

/-- `seq(B[b])` is read in two steps: the cells, then the numbers they hold. -/
theorem State.Of.seq_eq_some {b : Idx} {xs : List α} :
    s.seq b = some xs ↔ ∃ cs, s.cells b = some cs ∧ numbers C.num cs = some xs := by
  rw [State.Of.seq, Option.bind_eq_some_iff]

/-- The sequence of a buffer has the buffer's length. -/
theorem State.Of.seq_length {b : Idx} {xs : List α} (h : s.seq b = some xs) :
    xs.length = s.bufLen b := by
  obtain ⟨cs, hc, hx⟩ := s.seq_eq_some.1 h
  rw [numbers_length hx, s.cells_length hc]

/-- A buffer's cells are `cs` exactly when the length is that of `cs` and each element below it is written with its cell (R58). -/
theorem State.Of.cells_eq_some_iff (b : Idx) (cs : List Cell) :
    s.cells b = some cs ↔
      s.bufLen b = cs.length ∧ ∀ i < cs.length, Memory.load (s.bufferAt b.toNat).mem i = cs[i]? := by
  rw [State.Of.cells, Memory.readFrom_eq_some_iff]
  constructor
  · rintro ⟨h, hj⟩; exact ⟨h.symm, fun i hi => by simpa using hj i (h ▸ hi)⟩
  · rintro ⟨h, hj⟩; exact ⟨h.symm, fun i hi => by simpa using hj i (h ▸ hi)⟩

/-- A sequence written to a buffer that exists is the sequence it then holds (R59). -/
theorem State.Of.seq_writeBuf (hN : ∀ a, C.num.ofBits (C.num.toBits a) = some a) {b : Idx} (h : b.toNat < C.NB)
    (xs : List α) : (s.writeBuf b xs).seq b = some xs := by
  have hb := s.bufferAt_writeBuf b xs b.toNat
  rw [if_pos ⟨rfl, h⟩] at hb
  refine (s.writeBuf b xs).seq_eq_some.2 ⟨xs.map C.num.toBits, ?_, numbers_map_toBits hN xs⟩
  rw [State.Of.cells, State.Of.bufLen, hb]
  have := Memory.readFrom_storeFrom (s.bufferAt b.toNat).mem (xs.map C.num.toBits)
  rwa [List.length_map] at this

/-- On this hardware a sequence is its cells. -/
theorem State.seq_eq_cells (s : State) (b : Idx) : s.seq b = s.cells b := by
  rw [State.Of.seq]
  cases s.cells b with
  | none => rfl
  | some cs => exact numbers_binary64 cs

/-! ## The shared shapes of a command -/


@[simp] theorem withFilter_some {f : Idx} {v : Filter α} (h : s.filterAt f = some v) (k : Filter α → OutcomeOf C) :
    withFilter s f k = k v := by simp [withFilter, h]

@[simp] theorem withFilter_none {f : Idx} (h : s.filterAt f = none) (k : Filter α → OutcomeOf C) :
    withFilter s f k = raise .noObject s := by simp [withFilter, h]

@[simp] theorem withWindow_some {w : Idx} {v : Window α} (h : s.windowAt w = some v) (k : Window α → OutcomeOf C) :
    withWindow s w k = k v := by simp [withWindow, h]

@[simp] theorem withWindow_none {w : Idx} (h : s.windowAt w = none) (k : Window α → OutcomeOf C) :
    withWindow s w k = raise .noObject s := by simp [withWindow, h]

@[simp] theorem validate_none (k : OutcomeOf C) : validate s none k = k := rfl
@[simp] theorem validate_some (e : Status) (k : OutcomeOf C) : validate s (some e) k = raise e s := rfl
@[simp] theorem require_true (e : Status) (k : OutcomeOf C) : require s true e k = k := rfl
@[simp] theorem require_false (e : Status) (k : OutcomeOf C) : require s false e k = raise e s := rfl

theorem withSeq_some {b : Idx} {xs : List α} (h : s.seq b = some xs) (k : List α → OutcomeOf C) :
    withSeq s b k = k xs := by
  obtain ⟨cs, hc, hx⟩ := s.seq_eq_some.1 h
  simp [withSeq, hc, hx]

theorem withSeq_unwritten {b : Idx} (h : s.cells b = none) (k : List α → OutcomeOf C) :
    withSeq s b k = .refused .unwrittenElement := by simp [withSeq, h]

/-- On this hardware a sequence that cannot be read has an unwritten element. -/
theorem withSeq_none (s : State) {b : Idx} (h : s.seq b = none) (k : List Word → Outcome) :
    withSeq s b k = .refused .unwrittenElement :=
  withSeq_unwritten s ((State.seq_eq_cells s b).symm.trans h) k

theorem withNum_some {c : Cell} {x : α} (h : C.num.ofBits c = some x) (k : α → OutcomeOf C) :
    withNum c k = k x := by simp [withNum, h]

theorem withNum_none {c : Cell} (h : C.num.ofBits c = none) (k : α → OutcomeOf C) :
    withNum c k = .refused .notANumber := by simp [withNum, h]

/-- On this hardware every cell is a number. -/
@[simp] theorem withNum_hardware (c : Word) (k : Word → Outcome) :
    withNum (C := hardware) c k = k c := rfl

/-- Everything `withFilter` can answer. -/
theorem withFilter_cases (f : Idx) (k : Filter α → OutcomeOf C) :
    (s.filterAt f = none ∧ withFilter s f k = raise .noObject s) ∨
      ∃ v, s.filterAt f = some v ∧ withFilter s f k = k v := by
  cases h : s.filterAt f <;> simp [withFilter, h]

/-- Everything `withWindow` can answer. -/
theorem withWindow_cases (w : Idx) (k : Window α → OutcomeOf C) :
    (s.windowAt w = none ∧ withWindow s w k = raise .noObject s) ∨
      ∃ v, s.windowAt w = some v ∧ withWindow s w k = k v := by
  cases h : s.windowAt w <;> simp [withWindow, h]

/-- Everything `validate` can answer. -/
theorem validate_cases (v : Option Status) (k : OutcomeOf C) :
    (v = none ∧ validate s v k = k) ∨ ∃ e, v = some e ∧ validate s v k = raise e s := by
  cases v <;> simp

/-- Everything `require` can answer. -/
theorem require_cases (c : Bool) (e : Status) (k : OutcomeOf C) :
    (c = true ∧ require s c e k = k) ∨ (c = false ∧ require s c e k = raise e s) := by
  cases c <;> simp

/-- Everything `withNum` can answer. -/
theorem withNum_cases (c : Cell) (k : α → OutcomeOf C) :
    (C.num.ofBits c = none ∧ withNum c k = .refused .notANumber) ∨
      ∃ x, C.num.ofBits c = some x ∧ withNum c k = k x := by
  cases h : C.num.ofBits c <;> simp [withNum, h]

/-- Everything `withSeq` can answer. -/
theorem withSeq_cases (b : Idx) (k : List α → OutcomeOf C) :
    (s.cells b = none ∧ withSeq s b k = .refused .unwrittenElement) ∨
      (∃ cs, s.cells b = some cs ∧ numbers C.num cs = none ∧ withSeq s b k = .refused .notANumber) ∨
      ∃ xs, s.seq b = some xs ∧ withSeq s b k = k xs := by
  cases h : s.cells b with
  | none => exact .inl ⟨rfl, withSeq_unwritten s h k⟩
  | some cs =>
    cases h' : numbers C.num cs with
    | none => exact .inr (.inl ⟨cs, rfl, h', by simp [withSeq, h, h']⟩)
    | some xs =>
      have hx : s.seq b = some xs := s.seq_eq_some.2 ⟨cs, h, h'⟩
      exact .inr (.inr ⟨xs, hx, withSeq_some s hx k⟩)

@[simp] theorem raise_next (e : Status) (t : State.Of C) : raise e s = .next t ↔ t = s.setErr e := by
  simp [raise, eq_comm]

@[simp] theorem complete_next (t : State.Of C) : complete s = .next t ↔ t = s.setErr .ok := by
  simp [complete, eq_comm]

end Sys2Proof.Machine
end

