-- ==== Sys2Proof/Laws/Exec.lean ====
section
/-! SUPPORT. Said once for all commands of every configuration: how a command can end, and what it can have written when it completes. -/

namespace Sys2Proof.Machine

variable {Cell α : Type} {C : Configuration Cell α} (s : State.Of C)

/-- This hardware's commands are those of every configuration. -/
theorem exec_eq_execOf (i : Instr) (s : State) : exec i s = execOf i s := by cases i <;> rfl

/-- This hardware's step is that of every configuration. -/
theorem step_eq_stepOf (s : State) : step s = stepOf s := by
  have h : (exec : Instr → State → Outcome) = execOf := funext fun i => funext (exec_eq_execOf i)
  rw [step, stepOf, h]

/-- The state a completed command leaves, before its status is written, by the place it writes. -/
def Effect (s : State.Of C) : Dest → State.Of C → Prop
  | .statusOnly, t => t = s
  | .res, t => ∃ v, t = s.setRes v
  | .filter f, t => ∃ v, t = s.setFilter f v
  | .window w, t => ∃ v, t = s.setWindow w v
  | .buffer b, t => ∃ xs, t = s.writeBuf b xs
  | .bufferAndRes b, t => ∃ xs v, t = (s.writeBuf b xs).setRes v

/-- Why a command cannot read an operand: an unwritten element, or a word where a number is read. -/
inductive Unreadable (s : State.Of C) : Refusal → Prop where
  | unwritten (b : Idx) (h : s.cells b = none) : Unreadable s .unwrittenElement
  | sequence (b : Idx) (cs : List Cell) (h : s.cells b = some cs) (h' : numbers C.num cs = none) :
      Unreadable s .notANumber
  | argument (c : Cell) (h : c = s.arg0 ∨ c = s.arg1) (h' : C.num.ofBits c = none) : Unreadable s .notANumber

/-- On this hardware only an unwritten element is unreadable. -/
theorem Unreadable.hardware {s : State} {r : Refusal} (h : Unreadable s r) :
    r = .unwrittenElement ∧ ∃ b, s.seq b = none := by
  cases h with
  | unwritten b h => exact ⟨rfl, b, (State.seq_eq_cells s b).trans h⟩
  | sequence b cs h h' => exact absurd ((numbers_binary64 cs).symm.trans h') (by simp)
  | argument c h h' => cases h'

/-- What a command can raise: never `OK`, never `InvalidType` (R204), and `CapacityExceeded` only where a capacity is bounded (R208). -/
def Raisable (C : Configuration Cell α) (e : Status) : Prop :=
  e ≠ .ok ∧ e ≠ .invalidType ∧ (e = .capacityExceeded → C.MAXN ≠ none ∨ C.MAXSIG ≠ none)

/-- How a command can end that leaves, where it completes, a state with the property `d`. -/
inductive EndsBy (s : State.Of C) (d : State.Of C → Prop) : OutcomeOf C → Prop where
  | done (t : State.Of C) (h : d t) : EndsBy s d (complete t)
  | error (e : Status) (h : Raisable C e) : EndsBy s d (raise e s)
  | refused (r : Refusal) (h : Unreadable s r) : EndsBy s d (.refused r)

variable {s} {d : State.Of C → Prop}

theorem raisable {e : Status} (h : e ≠ .ok ∧ e ≠ .invalidType ∧ e ≠ .capacityExceeded) : Raisable C e :=
  ⟨h.1, h.2.1, fun he => absurd he h.2.2⟩

theorem endsBy_withFilter {f : Idx} {k : Filter α → OutcomeOf C}
    (h : ∀ v, s.filterAt f = some v → EndsBy s d (k v)) : EndsBy s d (withFilter s f k) := by
  rcases withFilter_cases s f k with ⟨-, he⟩ | ⟨v, hv, he⟩ <;> rw [he]
  · exact .error _ (raisable (by decide))
  · exact h v hv

theorem endsBy_withWindow {w : Idx} {k : Window α → OutcomeOf C}
    (h : ∀ v, s.windowAt w = some v → EndsBy s d (k v)) : EndsBy s d (withWindow s w k) := by
  rcases withWindow_cases s w k with ⟨-, he⟩ | ⟨v, hv, he⟩ <;> rw [he]
  · exact .error _ (raisable (by decide))
  · exact h v hv

theorem endsBy_validate {v : Option Status} {k : OutcomeOf C}
    (he : ∀ e, v = some e → Raisable C e) (h : v = none → EndsBy s d k) : EndsBy s d (validate s v k) := by
  rcases validate_cases s v k with ⟨hv, hk⟩ | ⟨e, hv, hk⟩ <;> rw [hk]
  · exact h hv
  · exact .error e (he e hv)

theorem endsBy_require {c : Bool} {e : Status} {k : OutcomeOf C}
    (he : e ≠ .ok ∧ e ≠ .invalidType ∧ e ≠ .capacityExceeded)
    (h : c = true → EndsBy s d k) : EndsBy s d (require s c e k) := by
  rcases require_cases s c e k with ⟨hc, hk⟩ | ⟨-, hk⟩ <;> rw [hk]
  · exact h hc
  · exact .error e (raisable he)

theorem endsBy_withSeq {b : Idx} {k : List α → OutcomeOf C}
    (h : ∀ xs, s.seq b = some xs → EndsBy s d (k xs)) : EndsBy s d (withSeq s b k) := by
  rcases withSeq_cases s b k with ⟨hn, he⟩ | ⟨cs, hc, hn, he⟩ | ⟨xs, hx, he⟩ <;> rw [he]
  · exact .refused _ (.unwritten b hn)
  · exact .refused _ (.sequence b cs hc hn)
  · exact h xs hx

theorem endsBy_withArg {c : Cell} (hc : c = s.arg0 ∨ c = s.arg1) {k : α → OutcomeOf C}
    (h : ∀ x, C.num.ofBits c = some x → EndsBy s d (k x)) : EndsBy s d (withNum c k) := by
  rcases withNum_cases c k with ⟨hn, he⟩ | ⟨x, hx, he⟩ <;> rw [he]
  · exact .refused _ (.argument c hc hn)
  · exact h x hx

theorem endsBy_checkSize {n : Nat} {k : OutcomeOf C} (h : checkSize n = none → EndsBy s d k) :
    EndsBy s d (validate s (checkSize n) k) :=
  endsBy_validate (fun _ he => by rw [checkSize_some he]; exact raisable (by decide)) h

theorem endsBy_checkFrequencyRange {c : α} {k : OutcomeOf C}
    (h : checkFrequencyRange C.num c = none → EndsBy s d k) :
    EndsBy s d (validate s (checkFrequencyRange C.num c) k) :=
  endsBy_validate (fun _ he => by rw [checkFrequencyRange_some _ he]; exact raisable (by decide)) h

theorem endsBy_checkFrequencyOrder {lo hi : α} {k : OutcomeOf C}
    (h : checkFrequencyOrder C.num lo hi = none → EndsBy s d k) :
    EndsBy s d (validate s (checkFrequencyOrder C.num lo hi) k) :=
  endsBy_validate (fun _ he => by rw [checkFrequencyOrder_some _ he]; exact raisable (by decide)) h

theorem endsBy_checkCapacity {c : Option Nat} (hc : c = C.MAXN ∨ c = C.MAXSIG) {n : Nat} {k : OutcomeOf C}
    (h : checkCapacity c n = none → EndsBy s d k) : EndsBy s d (validate s (checkCapacity c n) k) :=
  endsBy_validate (fun e he => by
    obtain ⟨rfl, m, hm, -⟩ := checkCapacity_some he
    refine ⟨by decide, by decide, fun _ => ?_⟩
    rcases hc with hc | hc
    · exact .inl (by rw [← hc, hm]; simp)
    · exact .inr (by rw [← hc, hm]; simp)) h

/-- The two creates of one cutoff end by the object they store. -/
theorem endsBy_createOneCutoff {f : Idx} {n : SizeImm} {wt : WindowType} {p : α → FilterParams α}
    (h : ∀ fc, checkSize n.toNat = none → checkFrequencyRange C.num fc = none →
      checkCapacity C.MAXN n.toNat = none →
      d (s.setFilter f (some { wtype := wt, coeff := synth C (p fc) wt n.toNat, params := p fc }))) :
    EndsBy s d (createOneCutoff s f n wt p) :=
  endsBy_withArg (.inl rfl) fun fc _ =>
  endsBy_checkSize fun h1 => endsBy_checkFrequencyRange fun h2 =>
  endsBy_checkCapacity (.inl rfl) fun h3 => .done _ (h fc h1 h2 h3)

/-- The shared part of the two convolutions: the length of what it computes fits a buffer. -/
theorem endsBy_withConv {f c : Idx} {k : List α → OutcomeOf C}
    (h : ∀ v xs, s.filterAt f = some v → s.seq c = some xs →
      within C.MAXSIG (xs.length + v.coeff.length - 1) = true →
      EndsBy s d (k (conv C.num xs v.coeff))) : EndsBy s d (withConv s f c k) :=
  endsBy_withFilter fun v hv => endsBy_withSeq fun xs hx =>
  endsBy_require (by decide) fun _ => endsBy_checkCapacity (.inr rfl) fun hcap =>
    h v xs hv hx (checkCapacity_none.1 hcap)

/-- The shared part of the two window applications. -/
theorem endsBy_withApply {w c : Idx} {k : List α → OutcomeOf C}
    (h : ∀ v xs, s.windowAt w = some v → s.seq c = some xs → xs.length = v.coeff.length →
      EndsBy s d (k (pointwise C.num xs v.coeff))) : EndsBy s d (withApply s w c k) :=
  endsBy_withWindow fun v hv => endsBy_withSeq fun xs hx =>
  endsBy_require (by decide) fun hl => h v xs hv hx (eq_of_beq hl)

/-- Every command completes with an effect on its destination alone, or raises an error, or is refused for an operand it cannot read. -/
theorem execOf_endsBy (i : Instr) (s : State.Of C) : EndsBy s (Effect s (writesOf i)) (execOf i s) := by
  cases i with
  | chkfreq =>
    unfold execOf execChkfreq writesOf
    exact endsBy_withArg (.inl rfl) fun _ _ => endsBy_checkFrequencyRange fun _ => .done _ rfl
  | chkord =>
    unfold execOf execChkord writesOf
    exact endsBy_withArg (.inl rfl) fun _ _ => endsBy_withArg (.inr rfl) fun _ _ =>
      endsBy_checkFrequencyOrder fun _ => .done _ rfl
  | chksize n =>
    unfold execOf execChksize writesOf
    exact endsBy_checkSize fun _ => .done _ rfl
  | sinc =>
    unfold execOf execSinc writesOf
    exact endsBy_withArg (.inl rfl) fun _ _ => .done _ ⟨_, rfl⟩
  | setcoef f b =>
    unfold execOf execSetcoef writesOf
    exact endsBy_withFilter fun _ _ => endsBy_withSeq fun _ _ => endsBy_require (by decide) fun _ =>
      .done _ ⟨_, rfl⟩
  | norm f =>
    unfold execOf execNorm writesOf
    exact endsBy_withFilter fun _ _ => endsBy_require (by decide) fun _ => .done _ ⟨_, rfl⟩
  | getcoef b f =>
    unfold execOf execGetcoef writesOf
    exact endsBy_withFilter fun _ _ => .done _ ⟨_, rfl⟩
  | getsize f =>
    unfold execOf execGetsize writesOf
    exact endsBy_withFilter fun _ _ => .done _ ⟨_, rfl⟩
  | gettype f =>
    unfold execOf execGettype writesOf
    exact endsBy_withFilter fun _ _ => .done _ ⟨_, rfl⟩
  | getwtype f =>
    unfold execOf execGetwtype writesOf
    exact endsBy_withFilter fun _ _ => .done _ ⟨_, rfl⟩
  | setwtype f wt =>
    unfold execOf execSetwtype writesOf
    exact endsBy_withFilter fun _ _ => .done _ ⟨_, rfl⟩
  | conv b f c =>
    unfold execOf execConv writesOf
    exact endsBy_withConv fun _ _ _ _ _ => .done _ ⟨_, rfl⟩
  | convip b f =>
    unfold execOf execConvip writesOf
    exact endsBy_withConv fun _ _ _ _ _ => .done _ ⟨_, _, rfl⟩
  | feq f g =>
    unfold execOf execFeq writesOf
    exact endsBy_withFilter fun _ _ => endsBy_withFilter fun _ _ => .done _ ⟨_, rfl⟩
  | fne f g =>
    unfold execOf execFne writesOf
    exact endsBy_withFilter fun _ _ => endsBy_withFilter fun _ _ => .done _ ⟨_, rfl⟩
  | ffree f =>
    unfold execOf execFfree writesOf
    exact endsBy_withFilter fun _ _ => .done _ ⟨_, rfl⟩
  | lpfCreate f n wt =>
    unfold execOf execLpfCreate writesOf
    exact endsBy_createOneCutoff fun _ _ _ _ => ⟨_, rfl⟩
  | hpfCreate f n wt =>
    unfold execOf execHpfCreate writesOf
    exact endsBy_createOneCutoff fun _ _ _ _ => ⟨_, rfl⟩
  | bpfCreate f n wt =>
    unfold execOf execBpfCreate writesOf
    exact endsBy_withArg (.inl rfl) fun _ _ => endsBy_withArg (.inr rfl) fun _ _ =>
      endsBy_checkSize fun _ => endsBy_checkFrequencyRange fun _ => endsBy_checkFrequencyRange fun _ =>
      endsBy_checkFrequencyOrder fun _ => endsBy_checkCapacity (.inl rfl) fun _ => .done _ ⟨_, rfl⟩
  | fsCreate f b =>
    unfold execOf execFsCreate writesOf
    exact endsBy_withSeq fun _ _ => endsBy_checkSize fun _ => endsBy_checkCapacity (.inl rfl) fun _ =>
      .done _ ⟨_, rfl⟩
  | fsGetspec b f =>
    unfold execOf execFsGetspec writesOf
    refine endsBy_withFilter fun v _ => ?_
    cases v.params with
    | freqSampling _ => exact .done _ ⟨_, rfl⟩
    | lowpass _ => exact .error _ (raisable (by decide))
    | highpass _ => exact .error _ (raisable (by decide))
    | bandpass _ _ => exact .error _ (raisable (by decide))
  | winCreate w n wt =>
    unfold execOf execWinCreate writesOf
    exact endsBy_checkSize fun _ => endsBy_checkCapacity (.inl rfl) fun _ => .done _ ⟨_, rfl⟩
  | winSetwtype w wt =>
    unfold execOf execWinSetwtype writesOf
    exact endsBy_withWindow fun _ _ => .done _ ⟨_, rfl⟩
  | winApply b w c =>
    unfold execOf execWinApply writesOf
    exact endsBy_withApply fun _ _ _ _ _ => .done _ ⟨_, rfl⟩
  | winApplyip b w =>
    unfold execOf execWinApplyip writesOf
    exact endsBy_withApply fun _ _ _ _ _ => .done _ ⟨_, _, rfl⟩
  | winGetcoef b w =>
    unfold execOf execWinGetcoef writesOf
    exact endsBy_withWindow fun _ _ => .done _ ⟨_, rfl⟩
  | winGetsize w =>
    unfold execOf execWinGetsize writesOf
    exact endsBy_withWindow fun _ _ => .done _ ⟨_, rfl⟩
  | winGetwtype w =>
    unfold execOf execWinGetwtype writesOf
    exact endsBy_withWindow fun _ _ => .done _ ⟨_, rfl⟩
  | winEq w v =>
    unfold execOf execWinEq writesOf
    exact endsBy_withWindow fun _ _ => endsBy_withWindow fun _ _ => .done _ ⟨_, rfl⟩
  | winNe w v =>
    unfold execOf execWinNe writesOf
    exact endsBy_withWindow fun _ _ => endsBy_withWindow fun _ _ => .done _ ⟨_, rfl⟩
  | winFree w =>
    unfold execOf execWinFree writesOf
    exact endsBy_withWindow fun _ _ => .done _ ⟨_, rfl⟩

/-- `execOf_endsBy` for this hardware. -/
theorem exec_endsBy (i : Instr) (s : State) : EndsBy s (Effect s (writesOf i)) (exec i s) :=
  exec_eq_execOf i s ▸ execOf_endsBy i s

/-- The inversion of `execOf`: a next state is an error alone, or the completion of an effect on the command's destination. -/
theorem execOf_next_cases {i : Instr} {s t : State.Of C} (h : execOf i s = .next t) :
    (∃ e, Raisable C e ∧ t = s.setErr e) ∨ ∃ u, Effect s (writesOf i) u ∧ t = u.setErr .ok := by
  have he := execOf_endsBy i s
  rw [h] at he
  generalize ho : Host.Outcome.next t = o at he
  cases he with
  | done u hu => exact .inr ⟨u, hu, (complete_next u t).1 ho.symm⟩
  | error e h1 => exact .inl ⟨e, h1, (raise_next s e t).1 ho.symm⟩
  | refused r hr => cases ho

/-- `execOf_next_cases` for this hardware. -/
theorem exec_next_cases {i : Instr} {s t : State} (h : exec i s = .next t) :
    (∃ e, e ≠ .ok ∧ e ≠ .invalidType ∧ t = s.setErr e) ∨
      ∃ u, Effect s (writesOf i) u ∧ t = u.setErr .ok := by
  rcases execOf_next_cases (exec_eq_execOf i s ▸ h) with ⟨e, he, ht⟩ | h'
  · exact .inl ⟨e, he.1, he.2.1, ht⟩
  · exact .inr h'

end Sys2Proof.Machine
end

