-- ==== Sys2Proof/Laws/Frames.lean ====
section
/-! SUPPORT. What a completed write of a slot or of a buffer leaves, in the terms of Safety's frames. -/

namespace Sys2Proof.Machine

variable {Cell α : Type} {C : Configuration Cell α} (s : State.Of C)

theorem onlyFilter_setFilter (f : Idx) (v : Option (Filter α)) :
    OnlyFilter f s ((s.setFilter f v).setErr .ok) :=
  ⟨rfl, fun g hg => by
    show (s.setFilter f v).filterAt g = _
    rw [State.Of.filterAt_setFilter, if_neg (fun h => hg h.1)]⟩

theorem onlyWindow_setWindow (w : Idx) (v : Option (Window α)) :
    OnlyWindow w s ((s.setWindow w v).setErr .ok) :=
  ⟨rfl, fun g hg => by
    show (s.setWindow w v).windowAt g = _
    rw [State.Of.windowAt_setWindow, if_neg (fun h => hg h.1)]⟩

/-- The slot written holds what was written. -/
theorem filterAt_setFilter_same {f : Idx} (v : Option (Filter α)) (h : f.toNat < C.NF) :
    ((s.setFilter f v).setErr .ok).filterAt f = v := by
  show (s.setFilter f v).filterAt f = _
  rw [State.Of.filterAt_setFilter, if_pos ⟨rfl, h⟩]

/-- The window slot written holds what was written. -/
theorem windowAt_setWindow_same {w : Idx} (v : Option (Window α)) (h : w.toNat < C.NW) :
    ((s.setWindow w v).setErr .ok).windowAt w = v := by
  show (s.setWindow w v).windowAt w = _
  rw [State.Of.windowAt_setWindow, if_pos ⟨rfl, h⟩]

/-- A sequence write touches the elements below its length alone. -/
theorem buffersBut_writeBuf (b : Idx) (xs : List α) {n : Nat} (h : n = xs.length) :
    BuffersBut b n s (s.writeBuf b xs) := by
  subst h
  refine ⟨fun k hk => ?_, fun k i hki => ?_⟩
  · rw [State.Of.bufferAt_writeBuf, if_neg (fun h => hk h.1)]
  · rw [State.Of.bufferAt_writeBuf]
    split
    · next h =>
      obtain ⟨rfl, -⟩ := h
      exact Memory.load_storeFrom_out _ _ _ (by rw [List.length_map]; by_contra hc; exact hki ⟨rfl, by omega⟩)
    · rfl

/-- The buffer written holds the sequence, each number in its cell. -/
theorem bufferHolds_writeBuf {b : Idx} (xs : List α) (h : b.toNat < C.NB) :
    BufferHolds (s.writeBuf b xs) b (xs.map C.num.toBits) := by
  have hb := s.bufferAt_writeBuf b xs b.toNat
  rw [if_pos ⟨rfl, h⟩] at hb
  refine ⟨?_, fun i hi => ?_⟩
  · rw [State.Of.bufLen, hb, List.length_map]
  · rw [hb]; exact Memory.load_storeFrom_in _ _ _ hi

/-- On this hardware a number is its cell. -/
theorem bufferHolds_hardware (s : State) {b : Idx} (xs : List Word) (h : b.toNat < Config.NB) :
    BufferHolds (s.writeBuf b xs) b xs := by
  have := bufferHolds_writeBuf s xs h
  rwa [show xs.map hardware.num.toBits = xs from List.map_id' xs] at this

end Sys2Proof.Machine
end

