-- ==== Sys2Proof/Laws/Invariant.lean ====
section
/-! SUPPORT. The operations over the state keep the invariant, each said once. -/

namespace Sys2Proof.Machine

variable {Cell α : Type} {C : Configuration Cell α} {s : State.Of C}

theorem State.Of.Inv.setErr (h : s.Inv) {e : Status} (he : e ≠ .invalidType) : (s.setErr e).Inv :=
  ⟨he, h.filters, h.windows, h.buffers⟩

theorem State.Of.Inv.setRes (h : s.Inv) (v : Cell) : (s.setRes v).Inv :=
  ⟨h.status, h.filters, h.windows, h.buffers⟩

theorem State.Of.Inv.respond (h : s.Inv) (r : Response Cell) : (s.respond r).Inv :=
  ⟨h.status, h.filters, h.windows, h.buffers⟩

theorem State.Of.Inv.setArg (h : s.Inv) (idx : Nat) (v : Cell) : (s.setArg idx v).Inv := by
  unfold State.Of.setArg
  split
  · exact ⟨h.status, h.filters, h.windows, h.buffers⟩
  split
  · exact ⟨h.status, h.filters, h.windows, h.buffers⟩
  · exact h

/-- A slot may be emptied or take an object that meets the invariants of filters. -/
theorem State.Of.Inv.setFilter (h : s.Inv) (f : Idx) {v : Option (Filter α)}
    (hv : ∀ u, v = some u → FilterOk C u) : (s.setFilter f v).Inv := by
  refine ⟨h.status, fun g u hg => ?_, h.windows, h.buffers⟩
  rw [State.Of.filterAt_setFilter] at hg
  split at hg
  · exact hv u hg
  · exact h.filters g u hg

/-- A slot may be emptied or take an object that meets the invariants of windows. -/
theorem State.Of.Inv.setWindow (h : s.Inv) (w : Idx) {v : Option (Window α)}
    (hv : ∀ u, v = some u → WindowOk C u) : (s.setWindow w v).Inv := by
  refine ⟨h.status, h.filters, fun x u hx => ?_, h.buffers⟩
  rw [State.Of.windowAt_setWindow] at hx
  split at hx
  · exact hv u hx
  · exact h.windows x u hx

theorem State.Of.Inv.setBuffer (h : s.Inv) (k : Nat) {b : Buffer Cell} (hb : BufferOk C.toParams b) :
    (s.setBuffer k b).Inv := by
  refine ⟨h.status, h.filters, h.windows, fun j => ?_⟩
  rw [State.Of.bufferAt_setBuffer]
  split
  · exact hb
  · exact h.buffers j

theorem State.Of.Inv.setLen (h : s.Inv) (k n : Nat) : (s.setLen k n).Inv := by
  unfold State.Of.setLen
  split
  · next hn => exact h.setBuffer _ ⟨hn, (h.buffers _).2⟩
  · exact h

/-- Every element a sequence write lists exists, where its length is within the capacity. -/
theorem within_storeFrom {c : Option Nat} {m : Memory Cell} (h : ∀ d ∈ m, within c (d.1 + 1) = true)
    {vs : List Cell} (hv : within c vs.length = true) :
    ∀ d ∈ Memory.storeFrom m 0 vs, within c (d.1 + 1) = true := by
  cases c with
  | none => exact fun _ _ => rfl
  | some n =>
    simp only [within_some] at *
    exact Memory.fst_lt_storeFrom h 0 vs (by omega)

/-- A sequence that fits may be written to a buffer. -/
theorem State.Of.Inv.writeBuf (h : s.Inv) (b : Idx) {xs : List α} (hx : within C.MAXSIG xs.length = true) :
    (s.writeBuf b xs).Inv := by
  obtain ⟨-, h2, h3⟩ := h.buffers b.toNat
  exact h.setBuffer b.toNat
    ⟨hx, Memory.wf_storeFrom h2 _ _, within_storeFrom h3 (by rwa [List.length_map])⟩

theorem State.Of.Inv.bufWrite (h : s.Inv) (k i : Nat) (v : Cell) : (s.bufWrite k i v).Inv := by
  unfold State.Of.bufWrite
  split
  · next hc =>
    obtain ⟨h1, h2, h3⟩ := h.buffers k
    refine h.setBuffer k ⟨h1, Memory.wf_store h2 _ _, fun c hcm => ?_⟩
    rcases Memory.mem_fst_store hcm with h' | h'
    · rw [h']; exact ((Bool.and_eq_true _ _).mp hc).2
    · exact h3 c h'
  · exact h

/-- A machine within R5's constraints meets the invariant after reset. -/
theorem State.Of.reset_inv (C : Configuration Cell α) : (State.Of.reset C).Inv := by
  have hb : ∀ k, (State.Of.reset C).bufferAt k = Buffer.reset := by
    intro k
    unfold State.Of.bufferAt State.Of.reset
    by_cases hk : k < C.NB
    · simp [hk]
    · rw [Vector.getElem?_eq_none (by omega)]; rfl
  refine ⟨(fun h => nomatch h), fun f v h => ?_, fun w v h => ?_, fun k => ?_⟩
  · unfold State.Of.filterAt State.Of.reset at h
    simp only [Vector.getElem?_replicate] at h
    split at h <;> cases h
  · unfold State.Of.windowAt State.Of.reset at h
    simp only [Vector.getElem?_replicate] at h
    split at h <;> cases h
  · rw [hb k]
    refine ⟨?_, List.Pairwise.nil, fun c hc => by cases hc⟩
    cases C.MAXSIG <;> simp [Buffer.reset]

end Sys2Proof.Machine
end

