-- ==== Sys2Proof/Laws/PerInstr.lean ====
section
/-! SUPPORT. The family Encoding: the fields of a command's word are the command's own (spec 30_encoding.md R70, R74, R75), one lemma per constructor of Instr. -/

namespace Sys2Proof.Laws.Encoding

/-- The word of a command holds its opcode and its fields, and 0 in the reserved bits. -/
def Statement (i : Instr) : Prop :=
  opField (encode i) = i.opcode ∧
    (aField (encode i), bField (encode i), cField (encode i), wtField (encode i), nField (encode i)) = i.fields ∧
    reservedField (encode i) = 0

/-- The fields of a packed word, said once for every command. -/
theorem ofPack (i : Instr) : Statement i := by
  have h := i.opcode_lt
  unfold Statement encode
  exact ⟨opField_pack h .., by
    rw [aField_pack h, bField_pack h, cField_pack h, wtField_pack h, nField_pack h],
    reservedField_pack h ..⟩

theorem chkfreq : Statement .chkfreq := ofPack _
theorem chkord : Statement .chkord := ofPack _
theorem chksize (n : SizeImm) : Statement (.chksize n) := ofPack _
theorem sinc : Statement .sinc := ofPack _
theorem setcoef (f b : Idx) : Statement (.setcoef f b) := ofPack _
theorem norm (f : Idx) : Statement (.norm f) := ofPack _
theorem getcoef (b f : Idx) : Statement (.getcoef b f) := ofPack _
theorem getsize (f : Idx) : Statement (.getsize f) := ofPack _
theorem gettype (f : Idx) : Statement (.gettype f) := ofPack _
theorem getwtype (f : Idx) : Statement (.getwtype f) := ofPack _
theorem setwtype (f : Idx) (wt : WindowType) : Statement (.setwtype f wt) := ofPack _
theorem conv (b f c : Idx) : Statement (.conv b f c) := ofPack _
theorem convip (b f : Idx) : Statement (.convip b f) := ofPack _
theorem feq (f g : Idx) : Statement (.feq f g) := ofPack _
theorem fne (f g : Idx) : Statement (.fne f g) := ofPack _
theorem ffree (f : Idx) : Statement (.ffree f) := ofPack _
theorem lpfCreate (f : Idx) (n : SizeImm) (wt : WindowType) : Statement (.lpfCreate f n wt) := ofPack _
theorem hpfCreate (f : Idx) (n : SizeImm) (wt : WindowType) : Statement (.hpfCreate f n wt) := ofPack _
theorem bpfCreate (f : Idx) (n : SizeImm) (wt : WindowType) : Statement (.bpfCreate f n wt) := ofPack _
theorem fsCreate (f b : Idx) : Statement (.fsCreate f b) := ofPack _
theorem fsGetspec (b f : Idx) : Statement (.fsGetspec b f) := ofPack _
theorem winCreate (w : Idx) (n : SizeImm) (wt : WindowType) : Statement (.winCreate w n wt) := ofPack _
theorem winSetwtype (w : Idx) (wt : WindowType) : Statement (.winSetwtype w wt) := ofPack _
theorem winApply (b w c : Idx) : Statement (.winApply b w c) := ofPack _
theorem winApplyip (b w : Idx) : Statement (.winApplyip b w) := ofPack _
theorem winGetcoef (b w : Idx) : Statement (.winGetcoef b w) := ofPack _
theorem winGetsize (w : Idx) : Statement (.winGetsize w) := ofPack _
theorem winGetwtype (w : Idx) : Statement (.winGetwtype w) := ofPack _
theorem winEq (w v : Idx) : Statement (.winEq w v) := ofPack _
theorem winNe (w v : Idx) : Statement (.winNe w v) := ofPack _
theorem winFree (w : Idx) : Statement (.winFree w) := ofPack _

end Sys2Proof.Laws.Encoding
end

