-- ==== Sys2Proof/Laws/Port.lean ====
section
/-! SUPPORT. The laws of the host port: the byte map's addresses, the bytes of a word, everything a byte-mapped access can answer, and a run's first step. -/

namespace Sys2Proof.Machine

variable {Cell α : Type} {C : Configuration Cell α}

theorem regionBytes_eq : regionBytes 4096 = 0x100000 := by decide

/-- `STRIDE` is the smallest power of two not less than `MAXSIG` (R61). -/
theorem stride_eq {p : Params} {m : Nat} (h : p.MAXSIG = some m) (hm : 3 ≤ m) :
    ∃ k, p.stride = some (2 ^ k) ∧ m ≤ 2 ^ k ∧ ∀ j, m ≤ 2 ^ j → 2 ^ k ≤ 2 ^ j := by
  refine ⟨Nat.log2 (m - 1) + 1, by rw [Params.stride, h]; rfl, ?_, fun j hj => ?_⟩
  · have := Nat.lt_log2_self (n := m - 1)
    omega
  · have h1 : 2 ^ Nat.log2 (m - 1) ≤ m - 1 := Nat.log2_self_le (by omega)
    have h2 : 2 ^ Nat.log2 (m - 1) < 2 ^ j := by omega
    have h3 := (Nat.pow_lt_pow_iff_right (by omega : 1 < 2)).1 h2
    exact Nat.pow_le_pow_right (by omega) h3

/-- `BASE` is naturally aligned, so a multiple of 8 (R61). -/
theorem base_mod_eight (stride : Nat) : C.base stride % 8 = 0 := by
  have h : 8 ∣ regionBytes stride := ⟨2 * (16 * stride), by unfold regionBytes bufOff; ring⟩
  exact Nat.mod_eq_zero_of_dvd (h.mul_left C.baseRegion)

@[simp] theorem wordBytes_length (v : Word) : (wordBytes v).length = 8 := by simp [wordBytes]

/-- The offset of a register (R61). -/
theorem busTarget_register (stride idx : Nat) (h : idx < 32) : busTarget stride (8 * idx) = .register idx := by
  unfold busTarget
  rw [if_pos (by omega), Nat.mul_div_cancel_left _ (by omega)]

/-- The offset of a buffer element (R61). -/
theorem busTarget_element {stride : Nat} (k i : Nat) (hs : 2 ≤ stride) (hi : i < stride) :
    busTarget stride (bufOff stride + 8 * (k * stride + i)) = .element k i := by
  unfold busTarget bufOff
  rw [if_neg (by omega), if_neg (by omega), Nat.add_sub_cancel_left, Nat.mul_div_cancel_left _ (by omega)]
  congr 1
  · rw [Nat.mul_comm, Nat.mul_add_div (by omega), Nat.div_eq_of_lt hi, Nat.add_zero]
  · rw [Nat.mul_comm, Nat.mul_add_mod, Nat.mod_eq_of_lt hi]

/-- The offsets between the registers and the buffers are reserved (R61). -/
theorem busTarget_reserved (stride off : Nat) (h : 0x100 ≤ off) (h' : off < bufOff stride) :
    busTarget stride off = .reserved := by
  unfold busTarget
  rw [if_neg (by omega), if_pos h']

/-- Everything a byte-mapped access can answer. -/
theorem onBus_cases (addr width : Nat) (k : BusTarget → OutcomeOf C) :
    onBus addr width k = .refused .outsideRegion ∨ onBus addr width k = .refused .unalignedAccess ∨
      ∃ t, onBus addr width k = k t := by
  unfold onBus
  split
  · exact .inl rfl
  · next stride _ =>
    by_cases h1 : addr < C.base stride ∨ C.base stride + regionBytes stride ≤ addr
    · exact .inl (if_pos h1)
    · by_cases h2 : width ≠ 8 ∨ addr % 8 ≠ 0
      · exact .inr (.inl ((if_neg h1).trans (if_pos h2)))
      · exact .inr (.inr ⟨_, (if_neg h1).trans (if_neg h2)⟩)

/-- An aligned 8-byte access inside the region reaches what its offset names. -/
theorem onBus_inside {stride : Nat} (hs : C.stride = some stride) (off : Nat) (h : off < regionBytes stride)
    (h8 : off % 8 = 0) (k : BusTarget → OutcomeOf C) :
    onBus (C.base stride + off) 8 k = k (busTarget stride off) := by
  have hb := base_mod_eight (C := C) stride
  unfold onBus
  rw [hs]
  simp only
  rw [if_neg (by omega), if_neg (by omega), Nat.add_sub_cancel_left]

/-- Everything `withWord` can answer. -/
theorem withWord_cases (v : Cell) (k : Word → OutcomeOf C) :
    (C.num.toWord v = none ∧ withWord v k = .refused .notAWord) ∨
      ∃ w, C.num.toWord v = some w ∧ withWord v k = k w := by
  cases h : C.num.toWord v <;> simp [withWord, h]

/-- Everything a write to `CMD` can do (R24, R73, R76). -/
theorem command_cases (run : Executor C) (w : Word) (s : State.Of C) :
    command run w s = raise .illegalCommand s ∨
      ∃ i, decodeIn C.toParams w = .ok i ∧ command run w s = run i s := by
  unfold command
  cases h : decodeIn C.toParams w with
  | error e => exact .inl rfl
  | ok i => exact .inr ⟨i, rfl, rfl⟩

/-- The first step of a run of this hardware. -/
theorem run_succ (t : State) (n : Nat) :
    Sys2Proof.core.run (n + 1) t =
      match step t with
      | .next t' => Sys2Proof.core.run n t'
      | .fault f => .fault f
      | .refused r => .refused r := by
  have h : ∀ (M : Host.Core) (s : M.State), M.run (n + 1) s =
      (match M.step s with
      | .next s' => M.run n s'
      | .fault f => .fault f
      | .refused r => .refused r) := fun _ _ => rfl
  refine (h Sys2Proof.core t).trans ?_
  have e : Sys2Proof.core.step t = step t := rfl
  rw [e]
  cases step t <;> rfl

end Sys2Proof.Machine
end

