-- ==== Sys2Proof/Laws/Relate.lean ====
section
/-! SUPPORT. How the answers of one command in two states are related: each shared shape carries a relation between outcomes through, where the two states agree on what the shape reads. -/

namespace Sys2Proof.Machine

variable {Cell α : Type} {C : Configuration Cell α}

/-- A relation between the outcomes in `s'` and in `s` that holds wherever a command ends early. -/
structure Relates (Q : OutcomeOf C → OutcomeOf C → Prop) (s' s : State.Of C) : Prop where
  error : ∀ e, Q (raise e s') (raise e s)
  refused : ∀ x, Q (.refused x) (.refused x)

variable {Q : OutcomeOf C → OutcomeOf C → Prop} {s' s : State.Of C} (r : Relates Q s' s)
include r

theorem Relates.withFilter {f : Idx} {k' k : Filter α → OutcomeOf C} (h : s'.filterAt f = s.filterAt f)
    (hk : ∀ v, Q (k' v) (k v)) : Q (Machine.withFilter s' f k') (Machine.withFilter s f k) := by
  rcases withFilter_cases s f k with ⟨hn, he⟩ | ⟨v, hv, he⟩ <;> rw [he]
  · rw [withFilter_none s' (h.trans hn)]; exact r.error _
  · rw [withFilter_some s' (h.trans hv)]; exact hk v

theorem Relates.withWindow {w : Idx} {k' k : Window α → OutcomeOf C} (h : s'.windowAt w = s.windowAt w)
    (hk : ∀ v, Q (k' v) (k v)) : Q (Machine.withWindow s' w k') (Machine.withWindow s w k) := by
  rcases withWindow_cases s w k with ⟨hn, he⟩ | ⟨v, hv, he⟩ <;> rw [he]
  · rw [withWindow_none s' (h.trans hn)]; exact r.error _
  · rw [withWindow_some s' (h.trans hv)]; exact hk v

theorem Relates.validate {v : Option Status} {k' k : OutcomeOf C} (hk : Q k' k) :
    Q (Machine.validate s' v k') (Machine.validate s v k) := by
  cases v with
  | none => exact hk
  | some e => exact r.error e

theorem Relates.require {c : Bool} {e : Status} {k' k : OutcomeOf C} (hk : Q k' k) :
    Q (Machine.require s' c e k') (Machine.require s c e k) := by
  cases c with
  | false => exact r.error e
  | true => exact hk

theorem Relates.withNum {c' c : Cell} {k' k : α → OutcomeOf C} (h : c' = c) (hk : ∀ x, Q (k' x) (k x)) :
    Q (Machine.withNum c' k') (Machine.withNum c k) := by
  subst h
  rcases withNum_cases c' k with ⟨hn, he⟩ | ⟨x, hx, he⟩ <;> rw [he]
  · rw [withNum_none hn]; exact r.refused _
  · rw [withNum_some hx]; exact hk x

theorem Relates.withSeq {b : Idx} {k' k : List α → OutcomeOf C} (h : s'.cells b = s.cells b)
    (hk : ∀ xs, Q (k' xs) (k xs)) : Q (Machine.withSeq s' b k') (Machine.withSeq s b k) := by
  unfold Machine.withSeq
  rw [h]
  cases s.cells b with
  | none => exact r.refused _
  | some cs =>
    cases h' : numbers C.num cs with
    | none => simpa only [h'] using r.refused _
    | some xs => simpa only [h'] using hk xs

end Sys2Proof.Machine
end

