-- ==== Sys2Proof/Tests/Slice0.lean ====
section
/-! SUPPORT. The model's own tests: one step each on small states. Words are written out from spec 30_encoding.md R74 and R75 and results are those of spec 95_test_vectors.md (V1 to V12), which the spec derives outside this model; a theorem named witness_… shows operands that meet a statement's hypotheses. -/

namespace Sys2Proof.Tests

set_option Elab.async false

open Sys2Proof.Machine

/-! ## Helpers -/

/-- The next state of an outcome, if it is one. -/
def nextOf : Outcome → Option State
  | .next t => some t
  | .fault _ => none
  | .refused _ => none

/-- The refusal of an outcome, if it is one. -/
def refusalOf : Outcome → Option Refusal
  | .next _ => none
  | .fault _ => none
  | .refused r => some r

/-- The status and result a command leaves. -/
def statusRes (i : Instr) (s : State) : Option (Status × Word) :=
  (nextOf (exec i s)).map fun t => (t.err, t.res)

/-- The status a command leaves. -/
def statusOf (i : Instr) (s : State) : Option Status := (nextOf (exec i s)).map fun t => t.err

/-- The status and the contents of one buffer that a command leaves. -/
def bufferOf (i : Instr) (s : State) (k : Nat) : Option (Status × Buffer Word) :=
  (nextOf (exec i s)).map fun t => (t.err, t.bufferAt k)

/-- The status and one filter slot that a command leaves. -/
def filterOf (i : Instr) (s : State) (f : Idx) : Option (Status × Option (Machine.Filter Word)) :=
  (nextOf (exec i s)).map fun t => (t.err, t.filterAt f)

/-- The status and one window slot that a command leaves. -/
def windowOf (i : Instr) (s : State) (w : Idx) : Option (Status × Option (Window Word)) :=
  (nextOf (exec i s)).map fun t => (t.err, t.windowAt w)

/-- What the decoder makes of a word, its errors by name. -/
def decoded (w : Word) : Option Instr :=
  match decode w with
  | .ok i => some i
  | .error _ => none

/-- Why the decoder rejects a word. -/
def rejected (w : Word) : Option DecodeReject :=
  match decode w with
  | .ok _ => none
  | .error e => some e

/-! ### Numbers of 95_test_vectors.md section 0 -/

abbrev n0 : Word := 0x0000000000000000#64
abbrev nm0 : Word := 0x8000000000000000#64
abbrev n01 : Word := 0x3FB999999999999A#64
abbrev n02 : Word := 0x3FC999999999999A#64
abbrev n025 : Word := 0x3FD0000000000000#64
abbrev n03 : Word := 0x3FD3333333333333#64
abbrev n0375 : Word := 0x3FD8000000000000#64
abbrev n04 : Word := 0x3FD999999999999A#64
abbrev n05 : Word := 0x3FE0000000000000#64
abbrev n1 : Word := 0x3FF0000000000000#64
abbrev n2 : Word := 0x4000000000000000#64
abbrev n3 : Word := 0x4008000000000000#64
abbrev n5 : Word := 0x4014000000000000#64
abbrev n6 : Word := 0x4018000000000000#64
abbrev nm1 : Word := 0xBFF0000000000000#64
abbrev nInf : Word := 0x7FF0000000000000#64
abbrev nNaN : Word := 0x7FF8000000000000#64

/-- A lowpass of cutoff 0.25 whose coefficients were set. -/
def lpf (coeff : List Word) : Machine.Filter Word :=
  { wtype := .hamming, coeff := coeff, params := .lowpass n025 }

/-- The frequency-sampling filter of the spectrum [1] (V6). -/
def fsOne : Machine.Filter Word :=
  { wtype := .rectangular
    coeff := [0x3FD5555555555555#64, 0x3FD5555555555555#64, 0x3FD5555555555555#64]
    params := .freqSampling [n1] }

/-- The rectangular window of size 3 (V7). -/
def rect3 : Window Word := { wtype := .rectangular, coeff := [n1, n1, n1] }

/-- A state with objects: `f0` = [1, 1, 1], `f3` frequency sampling, `w0` rectangular, `b1` = [1, 2, 3], `b4` with two unwritten elements, four long buffers of which nothing is written. -/
def demo : State :=
  { State.reset with
    res := 0x77#64
    arg0 := n01
    arg1 := n025
    filters := #v[some (lpf [n1, n1, n1]), none, none, some fsOne]
    windows := #v[some rect3, none, none, none]
    buffers := #v[Buffer.reset, { len := 3, mem := [(0, n1), (1, n2), (2, n3)] }, Buffer.reset,
      { len := 1, mem := [(0, n1)] }, { len := 3, mem := [(0, n1)] }, { len := 4095, mem := [] },
      { len := 4096, mem := [] }, { len := 512, mem := [] }] }

/-- `demo` with other coefficients in `f0`. -/
def demoCoeff (coeff : List Word) : State := demo.setFilter 0#4 (some (lpf coeff))

/-- `demo` with other arguments. -/
def demoArgs (a b : Word) : State := { demo with arg0 := a, arg1 := b }

/-! ## WellFormed: an ill-formed term for each check -/

theorem test_wf_filter_slot_refused : (Instr.getsize 4#4).WellFormed = false := by decide
theorem test_wf_filter_slot_last : (Instr.getsize 3#4).WellFormed = true := by decide
theorem test_wf_window_slot_refused : (Instr.winCreate 4#4 3#32 .blackman).WellFormed = false := by decide
theorem test_wf_window_slot_last : (Instr.winCreate 3#4 3#32 .blackman).WellFormed = true := by decide
theorem test_wf_buffer_refused : (Instr.conv 0#4 0#4 8#4).WellFormed = false := by decide
theorem test_wf_buffer_last : (Instr.conv 7#4 3#4 7#4).WellFormed = true := by decide

/-! ## Decoding: a word of R74's encoding for every constructor -/

theorem test_decode_checks :
    decoded 0x0000000000000010#64 = some .chkfreq ∧ decoded 0x0000000000000011#64 = some .chkord ∧
    decoded 0xFFFFFFFF00000012#64 = some (.chksize 4294967295#32) ∧
    decoded 0x0000000000000013#64 = some .sinc := by decide

theorem test_decode_filter_base :
    decoded 0x0000000000007014#64 = some (.setcoef 0#4 7#4) ∧
    decoded 0x0000000000000015#64 = some (.norm 0#4) ∧
    decoded 0x0000000000003116#64 = some (.getcoef 1#4 3#4) ∧
    decoded 0x0000000000000317#64 = some (.getsize 3#4) ∧
    decoded 0x0000000000000118#64 = some (.gettype 1#4) ∧
    decoded 0x0000000000000219#64 = some (.getwtype 2#4) ∧
    decoded 0x000000000010001A#64 = some (.setwtype 0#4 .hamming) ∧
    decoded 0x000000000007021B#64 = some (.conv 2#4 0#4 7#4) ∧
    decoded 0x000000000000011C#64 = some (.convip 1#4 0#4) ∧
    decoded 0x000000000000101D#64 = some (.feq 0#4 1#4) ∧
    decoded 0x000000000000101E#64 = some (.fne 0#4 1#4) ∧
    decoded 0x000000000000031F#64 = some (.ffree 3#4) := by decide

theorem test_decode_creates :
    decoded 0x0000000500000020#64 = some (.lpfCreate 0#4 5#32 .rectangular) ∧
    decoded 0x0000000500200121#64 = some (.hpfCreate 1#4 5#32 .hanning) ∧
    decoded 0x0000001500300222#64 = some (.bpfCreate 2#4 21#32 .blackman) ∧
    decoded 0x0000000000005323#64 = some (.fsCreate 3#4 5#4) ∧
    decoded 0x0000000000003524#64 = some (.fsGetspec 5#4 3#4) := by decide

theorem test_decode_windows :
    decoded 0x0000000300200130#64 = some (.winCreate 1#4 3#32 .hanning) ∧
    decoded 0x0000000000100031#64 = some (.winSetwtype 0#4 .hamming) ∧
    decoded 0x0000000000071132#64 = some (.winApply 1#4 1#4 7#4) ∧
    decoded 0x0000000000000033#64 = some (.winApplyip 0#4 0#4) ∧
    decoded 0x0000000000001434#64 = some (.winGetcoef 4#4 1#4) ∧
    decoded 0x0000000000000235#64 = some (.winGetsize 2#4) ∧
    decoded 0x0000000000000336#64 = some (.winGetwtype 3#4) ∧
    decoded 0x0000000000001037#64 = some (.winEq 0#4 1#4) ∧
    decoded 0x0000000000003238#64 = some (.winNe 2#4 3#4) ∧
    decoded 0x0000000000000139#64 = some (.winFree 1#4) := by decide

/-- V11. -/
theorem test_decode_rejects :
    rejected 0x0000000000000000#64 = some .undefinedOpcode ∧ rejected 0x00000000000000FF#64 = some .undefinedOpcode ∧
    rejected 0x0000000000000025#64 = some .undefinedOpcode ∧ rejected 0x000000000000003A#64 = some .undefinedOpcode ∧
    rejected 0x0000000000400013#64 = some .reservedField ∧ rejected 0x0000000080000013#64 = some .reservedField ∧
    rejected 0x0000000000000113#64 = some .unusedField ∧ rejected 0x0000000000100017#64 = some .unusedField ∧
    rejected 0x0000000000010017#64 = some .unusedField ∧ rejected 0x0000000500001020#64 = some .unusedField ∧
    rejected 0x0000000400000324#64 = some .unusedField ∧ rejected 0x0000000000000417#64 = some .indexOutOfRange ∧
    rejected 0x000000000008001B#64 = some .indexOutOfRange ∧
    rejected 0x0000000300300430#64 = some .indexOutOfRange := by decide

theorem test_table_word : decodeTableWord 64 0x0000000300200130 = some (.winCreate 1#4 3#32 .hanning) := by decide

theorem test_encode : encode (.bpfCreate 2#4 21#32 .blackman) = 0x0000001500300222#64 := by decide

/-! ## Numbers -/

/-- The conversions and roundings behind V8 and V9. -/
theorem test_binary64_arithmetic :
    binary64.ofInt 3 = n3 ∧ binary64.ofInt (-1) = nm1 ∧ binary64.add n1 n2 = n3 ∧ binary64.mul n2 n3 = n6 ∧
    binary64.div n1 n3 = 0x3FD5555555555555#64 ∧ binary64.div n1 n5 = n02 ∧ binary64.add n1 nm1 = n0 := by
  decide +kernel

/-- IEEE 754 corner results: zero over -1 is -0 (V9), one over zero is infinite, the sum of the largest numbers overflows (log 6). -/
theorem test_binary64_corners :
    binary64.div n0 nm1 = nm0 ∧ binary64.div n1 n0 = nInf ∧ binary64.lt nm0 n0 = false ∧
    binary64.eq nm0 n0 = true ∧ binary64.add 0x7FEFFFFFFFFFFFFF#64 0x7FEFFFFFFFFFFFFF#64 = nInf := by
  decide +kernel

/-- The difference of two infinities of one sign is a NaN (log 6). -/
theorem test_binary64_nan : Fp.isNaN (binary64.sub nInf nInf) = true := by
  show Fp.isNaN (Fp.sub nInf nInf) = true
  unfold Fp.sub
  rw [if_neg (by decide), if_pos (by decide), if_pos (by decide)]
  exact isNaN_nan _ _ _

/-! ## The FIR base (V1, V2, V8, V9, V10) -/

theorem test_sinc_zero : statusRes .sinc (demoArgs nm0 n0) = some (.ok, n1) := by decide +kernel
theorem test_sinc_below_epsilon : statusRes .sinc (demoArgs 0x3D7193189546303C#64 n0) = some (.ok, n1) := by
  decide +kernel

theorem test_chkfreq : (statusRes .chkfreq (demoArgs 0x3FDFFFFFFFFFFFFF#64 n0) = some (.ok, 0x77#64)) ∧
    (statusRes .chkfreq (demoArgs n05 n0) = some (.invalidParameterValue, 0x77#64)) := by decide +kernel
theorem test_chkfreq_corners : (statusOf .chkfreq (demoArgs 1#64 n0) = some .ok) ∧
    (statusOf .chkfreq (demoArgs nm0 n0) = some .invalidParameterValue) ∧
    (statusOf .chkfreq (demoArgs nNaN n0) = some .invalidParameterValue) := by decide +kernel

theorem test_chkord : (statusOf .chkord (demoArgs n01 n025) = some .ok) ∧
    (statusOf .chkord (demoArgs n02 n02) = some .invalidParameterOrder) ∧
    (statusOf .chkord (demoArgs nNaN n1) = some .invalidParameterOrder) := by decide +kernel

theorem test_chksize : (statusOf (.chksize 3#32) demo = some .ok) ∧ (statusOf (.chksize 1#32) demo = some .invalidSize) ∧
    (statusOf (.chksize 1024#32) demo = some .invalidSize) ∧ (statusOf (.chksize 1025#32) demo = some .ok) := by
  decide +kernel

theorem test_setcoef : filterOf (.setcoef 0#4 1#4) demo 0#4 = some (.ok, some (lpf [n1, n2, n3])) := by
  decide +kernel
theorem test_setcoef_mismatch :
    filterOf (.setcoef 0#4 0#4) demo 0#4 = some (.mismatchedSize, some (lpf [n1, n1, n1])) := by decide +kernel

theorem test_norm : filterOf (.norm 0#4) (demoCoeff [n1, n2, n1]) 0#4 = some (.ok, some (lpf [n025, n05, n025])) := by
  decide +kernel
theorem test_norm_fails :
    filterOf (.norm 0#4) (demoCoeff [n1, n0, nm1]) 0#4 = some (.normalisationFailed, some (lpf [n1, n0, nm1])) := by
  decide +kernel

theorem test_getcoef : bufferOf (.getcoef 1#4 0#4) (demoCoeff [n025, n05, n025]) 1 =
    some (.ok, { len := 3, mem := [(0, n025), (1, n05), (2, n025)] }) := by decide +kernel
theorem test_getcoef_keeps_above : bufferOf (.getcoef 1#4 0#4) (demoCoeff [n5]) 1 =
    some (.ok, { len := 1, mem := [(0, n5), (1, n2), (2, n3)] }) := by decide +kernel

theorem test_getsize : statusRes (.getsize 3#4) demo = some (.ok, 3#64) := by decide +kernel
theorem test_gettype : statusRes (.gettype 3#4) demo = some (.ok, 3#64) ∧
    statusRes (.gettype 0#4) demo = some (.ok, 0#64) := by decide +kernel
theorem test_getwtype : statusRes (.getwtype 0#4) demo = some (.ok, 1#64) := by decide +kernel

/-- V6: the spectrum [1] needs no cosine, so `SETWTYPE` gives its three values again. -/
theorem test_setwtype : filterOf (.setwtype 3#4 .blackman) (demo.setFilter 3#4 (some { fsOne with coeff := [n1, n1, n1] })) 3#4 =
    some (.ok, some { fsOne with wtype := .blackman }) := by decide +kernel

theorem test_conv : bufferOf (.conv 2#4 0#4 1#4) demo 2 =
    some (.ok, { len := 5, mem := [(0, n1), (1, n3), (2, n6), (3, n5), (4, n3)] }) := by decide +kernel
theorem test_conv_errors : statusOf (.conv 2#4 0#4 0#4) demo = some .invalidSize ∧
    refusalOf (exec (.conv 2#4 0#4 5#4) demo) = some .unwrittenElement ∧
    statusOf (.conv 2#4 1#4 0#4) demo = some .noObject := by decide +kernel
theorem test_convip : bufferOf (.convip 1#4 0#4) demo 1 =
    some (.ok, { len := 5, mem := [(0, n1), (1, n3), (2, n6), (3, n5), (4, n3)] }) := by decide +kernel
theorem test_convip_res : statusRes (.convip 1#4 0#4) demo = some (.ok, 5#64) ∧
    statusRes (.conv 1#4 0#4 1#4) demo = some (.ok, 0x77#64) := by decide +kernel

/-- V10: +0 equals -0, and a NaN equals nothing. -/
theorem test_feq : statusRes (.feq 0#4 1#4)
      ((demoCoeff [n0, n1, n0]).setFilter 1#4 (some (lpf [nm0, n1, n0]))) = some (.ok, 1#64) ∧
    statusRes (.feq 0#4 0#4) (demoCoeff [nNaN, n1, n0]) = some (.ok, 0#64) := by decide +kernel
theorem test_fne : statusRes (.fne 0#4 3#4) demo = some (.ok, 1#64) ∧
    statusRes (.fne 0#4 1#4) demo = some (.noObject, 0x77#64) := by decide +kernel

theorem test_ffree : filterOf (.ffree 0#4) demo 0#4 = some (.ok, none) ∧
    statusOf (.ffree 1#4) demo = some .noObject := by decide +kernel

/-! ## Filter creation (V3 to V6) -/

/-- The centre of the lowpass needs no sine: 2·0.1 (V3). -/
theorem test_lpf_create_centre :
    ((nextOf (exec (.lpfCreate 1#4 3#32 .rectangular) demo)).bind fun t => t.filterAt 1#4).map
      (fun v => (v.coeff.length, v.coeff[1]?, v.params)) = some (3, some n02, .lowpass n01) := by decide +kernel
theorem test_lpf_create_errors :
    statusOf (.lpfCreate 0#4 4#32 .rectangular) (demoArgs n05 n0) = some .invalidSize ∧
    statusOf (.lpfCreate 0#4 1025#32 .rectangular) (demoArgs n05 n0) = some .invalidParameterValue ∧
    statusOf (.lpfCreate 0#4 1025#32 .rectangular) demo = some .capacityExceeded := by decide +kernel

/-- The centre of the highpass: 1 - 2·0.1 (V4). -/
theorem test_hpf_create_centre :
    ((nextOf (exec (.hpfCreate 1#4 3#32 .hanning) demo)).bind fun t => t.filterAt 1#4).map
      (fun v => (v.wtype, v.coeff[1]?, v.params)) = some (.hanning, some 0x3FE999999999999A#64, .highpass n01) := by
  decide +kernel

/-- The centre of the bandpass: 2·0.25 - 2·0.1 (V5). -/
theorem test_bpf_create_centre :
    ((nextOf (exec (.bpfCreate 2#4 3#32 .blackman) demo)).bind fun t => t.filterAt 2#4).map
      (fun v => (v.wtype, v.coeff[1]?, v.params)) = some (.blackman, some n03, .bandpass n01 n025) := by decide +kernel
/-- V5's errors in their order. -/
theorem test_bpf_create_errors :
    statusOf (.bpfCreate 2#4 4#32 .blackman) (demoArgs n03 0x3FE6666666666666#64) = some .invalidSize ∧
    statusOf (.bpfCreate 2#4 5#32 .blackman) (demoArgs n03 0x3FE6666666666666#64) = some .invalidParameterValue ∧
    statusOf (.bpfCreate 2#4 1025#32 .blackman) (demoArgs n04 n01) = some .invalidParameterOrder ∧
    statusOf (.bpfCreate 2#4 1025#32 .blackman) (demoArgs n01 n025) = some .capacityExceeded := by decide +kernel

theorem test_fs_create : filterOf (.fsCreate 2#4 3#4) demo 2#4 = some (.ok, some fsOne) := by decide +kernel
theorem test_fs_create_errors : statusOf (.fsCreate 2#4 0#4) demo = some .invalidSize ∧
    refusalOf (exec (.fsCreate 2#4 7#4) demo) = some .unwrittenElement := by decide +kernel

theorem test_fs_getspec : bufferOf (.fsGetspec 2#4 3#4) demo 2 = some (.ok, { len := 1, mem := [(0, n1)] }) := by
  decide +kernel
theorem test_fs_getspec_errors : statusOf (.fsGetspec 2#4 0#4) demo = some .wrongVariant ∧
    statusOf (.fsGetspec 2#4 1#4) demo = some .noObject := by decide +kernel

/-! ## Windows (V7, V10) -/

theorem test_win_create : windowOf (.winCreate 1#4 3#32 .rectangular) demo 1#4 = some (.ok, some rect3) := by
  decide +kernel
theorem test_win_create_errors : statusOf (.winCreate 1#4 1024#32 .hanning) demo = some .invalidSize ∧
    statusOf (.winCreate 1#4 1025#32 .hanning) demo = some .capacityExceeded := by decide +kernel

theorem test_win_setwtype : windowOf (.winSetwtype 0#4 .rectangular)
    (demo.setWindow 0#4 (some { wtype := .hanning, coeff := [n0, n1, n0, n0, n0] })) 0#4 =
    some (.ok, some { wtype := .rectangular, coeff := [n1, n1, n1, n1, n1] }) := by decide +kernel

/-- V7's Hamming window of size 3, as numbers. -/
def hamming3 : Window Word :=
  { wtype := .hamming, coeff := [0x3FB47AE147AE147C#64, n1, 0x3FB47AE147AE147C#64] }

theorem test_win_apply : bufferOf (.winApply 2#4 0#4 1#4) (demo.setWindow 0#4 (some hamming3)) 2 =
    some (.ok, { len := 3, mem := [(0, 0x3FB47AE147AE147C#64), (1, n2), (2, 0x3FCEB851EB851EBA#64)] }) := by
  decide +kernel
theorem test_win_apply_mismatch : statusOf (.winApply 2#4 0#4 3#4) demo = some .mismatchedSize := by decide +kernel
theorem test_win_applyip : bufferOf (.winApplyip 1#4 0#4) (demo.setWindow 0#4 (some hamming3)) 1 =
    some (.ok, { len := 3, mem := [(0, 0x3FB47AE147AE147C#64), (1, n2), (2, 0x3FCEB851EB851EBA#64)] }) := by
  decide +kernel
theorem test_win_applyip_res : statusRes (.winApplyip 1#4 0#4) demo = some (.ok, 3#64) ∧
    statusRes (.winApply 1#4 0#4 1#4) demo = some (.ok, 0x77#64) := by decide +kernel

theorem test_win_getcoef : bufferOf (.winGetcoef 2#4 0#4) demo 2 =
    some (.ok, { len := 3, mem := [(0, n1), (1, n1), (2, n1)] }) := by decide +kernel
theorem test_win_getsize : statusRes (.winGetsize 0#4) demo = some (.ok, 3#64) := by decide +kernel
theorem test_win_getwtype :
    statusRes (.winGetwtype 1#4) (demo.setWindow 1#4 (some hamming3)) = some (.ok, 1#64) := by decide +kernel

theorem test_win_eq : statusRes (.winEq 0#4 1#4) (demo.setWindow 1#4 (some hamming3)) = some (.ok, 0#64) ∧
    statusRes (.winEq 0#4 0#4) demo = some (.ok, 1#64) := by decide +kernel
theorem test_win_ne : statusRes (.winNe 0#4 1#4) (demo.setWindow 1#4 (some hamming3)) = some (.ok, 1#64) ∧
    statusRes (.winNe 0#4 1#4) demo = some (.noObject, 0x77#64) := by decide +kernel
theorem test_win_free : windowOf (.winFree 0#4) demo 0#4 = some (.ok, none) := by decide +kernel

/-! ## Unwritten elements (R41, U1) -/

/-- Whatever the lengths: `b7` has neither the length of `f0` nor that of `w0`. An empty slot is reported first (log 2). -/
theorem test_unwritten_other_lengths : refusalOf (exec (.setcoef 0#4 7#4) demo) = some .unwrittenElement ∧
    refusalOf (exec (.winApply 2#4 0#4 7#4) demo) = some .unwrittenElement ∧
    statusOf (.setcoef 1#4 4#4) demo = some .noObject := by decide +kernel

theorem test_unwritten : refusalOf (exec (.setcoef 0#4 4#4) demo) = some .unwrittenElement ∧
    refusalOf (exec (.conv 2#4 0#4 4#4) demo) = some .unwrittenElement ∧
    refusalOf (exec (.convip 4#4 0#4) demo) = some .unwrittenElement ∧
    refusalOf (exec (.fsCreate 1#4 4#4) demo) = some .unwrittenElement ∧
    refusalOf (exec (.winApply 2#4 0#4 4#4) demo) = some .unwrittenElement ∧
    refusalOf (exec (.winApplyip 4#4 0#4) demo) = some .unwrittenElement := by decide +kernel

/-! ## The host port (V12, R61) -/

/-- `demo` with one transaction to come. -/
def issue (t : Transaction Word) : State := { demo with pending := [t] }

/-- What a step's read returned. -/
def answered (t : Transaction Word) : Option (List (Response Word)) := (nextOf (step (issue t))).map fun t => t.responses

theorem test_register_reads : answered (.regRead 0) = some [.cell 0#64] ∧ answered (.regRead 2) = some [.cell 0x77#64] ∧
    answered (.regRead 5) = some [.cell 0x0000000000080404#64] ∧ answered (.regRead 6) = some [.cell 0x00001000000003FF#64] ∧
    answered (.regRead 7) = some [.cell 0x4649524C49420007#64] ∧ answered (.regRead 8) = some [.cell 0#64] ∧
    answered (.regRead 17) = some [.cell 3#64] ∧ answered (.regRead 23) = some [.cell 512#64] ∧
    answered (.regRead 24) = some [.cell 0#64] := by decide +kernel

theorem test_blen_write : (nextOf (step (issue (.regWrite 17 4096#64)))).map (fun t => (t.bufferAt 1).len) = some 4096 ∧
    (nextOf (step (issue (.regWrite 17 4097#64)))).map (fun t => (t.bufferAt 1).len) = some 3 := by decide +kernel

theorem test_buffer_access : answered (.bufRead 1 2) = some [.cell n3] ∧ answered (.bufRead 8 0) = some [.cell 0#64] ∧
    answered (.bufRead 0 4096) = some [.cell 0#64] ∧
    (nextOf (step (issue (.bufWrite 7 4095 n5)))).map (fun t => t.bufferAt 7) =
      some { len := 512, mem := [(4095, n5)] } := by decide +kernel

theorem test_command_write : (nextOf (step (issue (.regWrite 0 0x0000000000000317#64)))).map (fun t => t.res) = some 3#64 ∧
    (nextOf (step (issue (.regWrite 0 0x0000000000000417#64)))).map (fun t => (t.err, t.res)) =
      some (.illegalCommand, 0x77#64) := by decide +kernel

theorem test_reset : (nextOf (step (issue .reset))).map (fun t => (t.res, t.filterAt 0#4, t.bufferAt 1, t.epoch)) =
    some (0#64, none, Buffer.reset, 1) := by decide +kernel

theorem test_bytes : wordBytes 0x4649524C49420007#64 = [0x07#8, 0x00#8, 0x42#8, 0x49#8, 0x4C#8, 0x52#8, 0x49#8, 0x46#8] ∧
    bytesWord [0x07#8, 0x00#8, 0x42#8, 0x49#8, 0x4C#8, 0x52#8, 0x49#8, 0x46#8] = 0x4649524C49420007#64 := by decide

theorem test_bus_targets : busTarget 4096 0x38 = .register 7 ∧ busTarget 4096 0xF8 = .register 31 ∧ busTarget 4096 0x100 = .reserved ∧
    busTarget 4096 0x7FFF8 = .reserved ∧ busTarget 4096 0x80000 = .element 0 0 ∧ busTarget 4096 0x88008 = .element 1 1 ∧
    busTarget 4096 0xFFFF8 = .element 15 4095 := by decide

theorem test_pseudo : (AsmLine.pseudo (.winCreate 0#4 5#32)).expand binary64 = [.regWrite 0 0x0000000500000030#64] := by decide

theorem test_fetch_word : (nextOf (step (State.reset.withFetchWord 64 0x0000000000000017))).map (fun t => t.err) =
    some .noObject := by decide

/-! ## Other configurations (R5, R6, R11, R13) -/

/-- The next state of an outcome of any configuration, if it is one. -/
def nextOf' {C : Configuration Word Word} : OutcomeOf C → Option (State.Of C)
  | .next t => some t
  | .fault _ => none
  | .refused _ => none

/-- Small capacities, `WSHAPE = multiply`, and a cosine that is always 0, so that a Hanning window is 0.5 throughout. -/
def small : Configuration Word Word :=
  { hardware with
    MAXN := some 3
    MAXSIG := some 4
    WSHAPE := .multiply
    num := { binary64 with cos := fun _ => n0 } }

/-- Unbounded capacities. -/
def roomy : Configuration Word Word := { hardware with MAXN := none, MAXSIG := none }

/-- `f0` = [1, 1, 1] of cutoff 0.25 and `b0` = [1, 2, 3]. -/
def smallDemo : State.Of small :=
  ((State.Of.reset small).setFilter 0#4 (some (lpf [n1, n1, n1]))).writeBuf 0#4 [n1, n2, n3]

theorem test_small_ok : small.toParams.Ok :=
  ⟨by decide, by decide, fun n h => by cases h; decide, fun m h => by cases h; exact ⟨by decide, 3, rfl, by decide⟩⟩

/-- R208 at 5 elements in a buffer of 4 and at 7 coefficients where 3 are allowed. -/
theorem test_small_capacities :
    (nextOf' (execOf (.conv 1#4 0#4 0#4) smallDemo)).map (fun t => t.err) = some .capacityExceeded ∧
    (nextOf' (execOf (.fsCreate 1#4 0#4) smallDemo)).map (fun t => t.err) = some .capacityExceeded ∧
    (nextOf' (execOf (.winCreate 1#4 5#32 .rectangular) smallDemo)).map (fun t => t.err) = some .capacityExceeded := by
  decide +kernel

/-- R147: the centre of the lowpass, 2·0.25, times 0.5. -/
theorem test_multiply_centre :
    ((nextOf' (execOf (.setwtype 0#4 .hanning) smallDemo)).bind fun t => t.filterAt 0#4).map (fun v => v.coeff[1]?) =
      some (some n025) := by decide +kernel

theorem test_capability_registers : cap0 small.toParams = 0x0000000001080404#64 ∧
    cap1 small.toParams = 0x0000000400000003#64 ∧ cap1 roomy.toParams = 0xFFFFFFFFFFFFFFFF#64 := by decide

theorem test_roomy_window : (nextOf' (execOf (.winCreate 1#4 1025#32 .rectangular) (State.Of.reset roomy))).map
    (fun t => t.err) = some .ok := by decide +kernel

/-- An unbounded buffer has no byte map (log 8). -/
theorem test_roomy_bus : stepOf { State.Of.reset roomy with pending := [.busRead 0 8] } = .refused .outsideRegion := rfl

/-- A machine over the reals, `f0` a filter of three coefficients, `b0` a number cell and a word cell, `ARG1` a word. -/
noncomputable def realDemo : State.Of (realConfiguration Config.params) :=
  { State.Of.reset (realConfiguration Config.params) with
    arg1 := .word 7#64
    filters := #v[some { wtype := .hamming, coeff := [1, 1, 1], params := .lowpass (1 / 4) }, none, none, none]
    buffers := #v[{ len := 2, mem := [(0, .num 1), (1, .word 3#64)] }, { len := 1, mem := [(0, .num 2)] }, Buffer.reset,
      Buffer.reset, Buffer.reset, Buffer.reset, Buffer.reset, Buffer.reset] }

/-- R43, R27: `ARG0` holds the number 0 after reset (log 14). -/
theorem test_real_reset : realDemo.arg0 = .num 0 := by
  show RealCell.num ((0 : ℤ) : ℝ) = _
  rw [Int.cast_zero]

/-- R13: a word cell is not read as a number. -/
theorem test_real_word_refused : execOf .chkord realDemo = .refused .notANumber ∧
    execOf (.setcoef 0#4 0#4) realDemo = .refused .notANumber ∧
    execOf (.fsCreate 1#4 0#4) realDemo = .refused .notANumber := ⟨rfl, rfl, rfl⟩

/-- R13: an integer result is a word cell, and a sequence of number cells is read. -/
theorem test_real_results : execOf (.getsize 0#4) realDemo = .next { realDemo with err := .ok, res := .word 3#64 } ∧
    realDemo.seq 1#4 = some [2] := ⟨rfl, rfl⟩

/-! ## Witnesses: operands that meet the hypotheses of each statement, clause by clause at the ends of their ranges -/

/-- The cutoffs of `demo` and the two ends of the range are cutoffs. -/
theorem cutoff_demo : CutoffOk binary64 n01 ∧ CutoffOk binary64 n025 ∧ CutoffOk binary64 1#64 ∧ CutoffOk binary64 0x3FDFFFFFFFFFFFFF#64 := by
  unfold CutoffOk; decide +kernel

theorem not_cutoff : ¬CutoffOk binary64 n0 ∧ ¬CutoffOk binary64 n05 := by unfold CutoffOk; decide +kernel

theorem size_ends : SizeOk Config.params 3 ∧ SizeOk Config.params 1023 ∧ SizeOk Config.params (3#32 : SizeImm).toNat := by unfold SizeOk; decide

/-- `demo` meets the invariant of well-formed states. -/
theorem demo_inv : demo.Inv := by
  have hf : ∀ f : Idx, demo.filterAt f = none ∨ demo.filterAt f = some (lpf [n1, n1, n1]) ∨
      demo.filterAt f = some fsOne := by decide +kernel
  have hw : ∀ w : Idx, demo.windowAt w = none ∨ demo.windowAt w = some rect3 := by decide +kernel
  refine ⟨by decide, fun f v h => ?_, fun w v h => ?_, fun k => ?_⟩
  · rcases hf f with e | e | e <;> rw [e] at h <;> cases h
    · exact ⟨⟨by decide, by decide, by decide⟩, cutoff_demo.2.1⟩
    · exact ⟨⟨by decide, by decide, by decide⟩, by decide, by decide⟩
  · rcases hw w with e | e <;> rw [e] at h <;> cases h
    exact ⟨⟨by decide, by decide, by decide⟩, by decide +kernel⟩
  · by_cases hk : k < Config.NB
    · have hb : ∀ j < Config.NB, within hardware.MAXSIG (demo.bufferAt j).len = true ∧ Memory.wf (demo.bufferAt j).mem ∧
          (demo.bufferAt j).mem.all (fun c => within hardware.MAXSIG (c.1 + 1)) = true := by decide +kernel
      obtain ⟨h1, h2, h3⟩ := hb k hk
      exact ⟨h1, h2, fun c hc => List.all_eq_true.1 h3 c hc⟩
    · have e : demo.bufferAt k = Buffer.reset := by
        rw [State.Of.bufferAt, Vector.getElem?_eq_none (by simpa using hk)]; rfl
      rw [e]
      exact ⟨by decide, List.Pairwise.nil, fun c hc => by cases hc⟩

theorem witness_ResetTransactionAndIdle : (issue .reset).pending = .reset :: [] ∧ demo.pending = [] := by decide

theorem witness_StepExecutesTheCommandWritten : decode 0x0000000000000013#64 = .ok .sinc ∧
    (issue (.regWrite 0 0x0000000000000013#64)).pending = .regWrite 0 0x0000000000000013#64 :: [] := ⟨rfl, rfl⟩

/-- The clauses of `RegisterReadReturnsRegister` at the ends of their ranges, with what each read returns. -/
theorem witness_RegisterReadReturnsRegister :
    (∀ idx, (issue (.regRead idx)).pending = .regRead idx :: []) ∧
    answered (.regRead 1) = some [.cell 0#64] ∧ answered (.regRead 3) = some [.cell n01] ∧
    answered (.regRead 4) = some [.cell n025] ∧ answered (.regRead 8) = some [.cell 0#64] ∧
    answered (.regRead 15) = some [.cell 0#64] ∧ answered (.regRead 16) = some [.cell 0#64] ∧
    answered (.regRead 23) = some [.cell 512#64] ∧ answered (.regRead 24) = some [.cell 0#64] :=
  ⟨fun _ => rfl, by decide +kernel⟩

theorem witness_RegisterWriteStoresRegister :
    (∀ idx v, (issue (.regWrite idx v)).pending = .regWrite idx v :: []) ∧ decode 0x13#64 = .ok .sinc ∧
    rejected 0#64 = some .undefinedOpcode ∧
    (nextOf (step (issue (.regWrite 3 n5)))).map (fun t => t.arg0) = some n5 ∧
    (nextOf (step (issue (.regWrite 4 n5)))).map (fun t => t.arg1) = some n5 ∧
    (nextOf (step (issue (.regWrite 16 4096#64)))).map (fun t => (t.bufferAt 0).len) = some 4096 ∧
    (nextOf (step (issue (.regWrite 23 0#64)))).map (fun t => (t.bufferAt 7).len) = some 0 ∧
    (nextOf (step (issue (.regWrite 24 1#64)))).map (fun t => t.buffers) = some demo.buffers :=
  ⟨fun _ _ => rfl, rfl, by decide +kernel⟩

theorem witness_BufferTransactions :
    (issue (.bufRead 1 2)).pending = .bufRead 1 2 :: [] ∧ Memory.load (demo.bufferAt 1).mem 2 = some n3 ∧
    Memory.load (demo.bufferAt 7).mem 4095 = none ∧ answered (.bufRead 8 0) = some [.cell 0#64] ∧
    answered (.bufRead 7 4096) = some [.cell 0#64] := by decide +kernel

theorem witness_ByteMapCarriesTransactions :
    busTarget 4096 (8 * 31) = .register 31 ∧ busTarget 4096 (0x80000 + 15 * 0x8000 + 8 * 4095) = .element 15 4095 ∧
    0x7FFF8 % 8 = 0 ∧ 0x100 ≤ 0x7FFF8 ∧ 0x7FFF8 < 0x80000 := by decide

theorem witness_ByteMapRefusesOtherAccesses :
    (Config.BASE ≤ Config.BASE ∧ Config.BASE < Config.BASE + 0x100000 ∧ (4 ≠ 8 ∨ Config.BASE % 8 ≠ 0)) ∧
    (Config.BASE ≤ Config.BASE + 0xFFFFF ∧ Config.BASE + 0xFFFFF < Config.BASE + 0x100000 ∧
      ([] : List Byte).length ≠ 8) ∧
    (Config.BASE + 0x100000 < Config.BASE ∨ Config.BASE + 0x100000 ≤ Config.BASE + 0x100000) :=
  ⟨⟨by omega, by omega, .inl (by omega)⟩, ⟨by omega, by omega, by decide⟩, .inr (by omega)⟩

theorem witness_LoadFillsBuffer : (7#4 : Idx).toNat < Config.NB ∧ [n1, n2, n3].length ≤ Config.MAXSIG ∧
    (List.replicate 4096 n0).length ≤ Config.MAXSIG := ⟨by decide, by decide, by rw [List.length_replicate]⟩

theorem witness_DecodeInvertsEncode : (Instr.conv 7#4 3#4 7#4).WellFormed = true ∧
    (Instr.lpfCreate 3#4 0xFFFFFFFF#32 .blackman).WellFormed = true ∧ (Instr.winApply 7#4 3#4 7#4).WellFormed = true := by
  decide

theorem witness_EncodeInvertsDecode : decode 0xFFFFFFFF00300320#64 = .ok (.lpfCreate 3#4 0xFFFFFFFF#32 .blackman) := rfl

theorem witness_DecodeAcceptsExactlyTheTableWords :
    decode 0x000000000007371B#64 = .ok (.conv 7#4 3#4 7#4) ∧
    selectOp 0x1B 7#4 3#4 7#4 .rectangular 0#32 = some (.conv 7#4 3#4 7#4) := ⟨rfl, rfl⟩

theorem witness_IllegalWordsRaiseIllegalCommand :
    (issue (.regWrite 0 0#64)).pending = .regWrite 0 0#64 :: [] ∧ rejected 0#64 = some .undefinedOpcode ∧
    opField 0x25#64 = 0x25 ∧ selectOp 0x25 0#4 0#4 0#4 .rectangular 0#32 = none ∧
    reservedField 0x0000000000400013#64 ≠ 0 ∧ reservedField 0x0000000080000013#64 ≠ 0 ∧
    selectOp 0x13 1#4 0#4 0#4 .rectangular 0#32 = some .sinc ∧
    Instr.sinc.format.unusedZero 0x0000000000000113#64 = false ∧
    selectOp 0x17 4#4 0#4 0#4 .rectangular 0#32 = some (.getsize 4#4) ∧ (Instr.getsize 4#4).WellFormed = false := by
  decide

theorem witness_ValidationFunctions :
    (3 % 2 = 1 ∧ 3 ≤ 3) ∧ ¬(1 % 2 = 1 ∧ 3 ≤ 1) ∧
    binary64.lt (binary64.ofInt 0) 1#64 = true ∧ binary64.lt 0x3FDFFFFFFFFFFFFF#64 (binary64.lit .half) = true ∧
    ¬(0 < (n0 : Word).toNat) ∧ ¬((n05 : Word).toNat < 0x3FE0000000000000) ∧ binary64.lt n01 n025 = true ∧
    binary64.lt n02 n02 = false ∧ Fp.isNaN nNaN = true := by decide +kernel

theorem witness_Binary64NaNAndOrder : Fp.isNaN nNaN = true ∧ binary64.lt nm1 nm0 = true ∧ binary64.lt n0 1#64 = true ∧
    Fp.isNaN nInf = false ∧ Fp.isNaN nm0 = false := by decide +kernel

theorem witness_ChecksReportTheirVerdict :
    Status.ok = (if binary64.lt (binary64.ofInt 0) demo.arg0 = true ∧ binary64.lt demo.arg0 (binary64.lit .half) = true
      then .ok else .invalidParameterValue) ∧
    Status.ok = (if binary64.lt demo.arg0 demo.arg1 = true then .ok else .invalidParameterOrder) ∧
    Status.invalidSize = (if (1#32 : SizeImm).toNat % 2 = 1 ∧ 3 ≤ (1#32 : SizeImm).toNat then .ok else .invalidSize) := by
  decide +kernel

theorem witness_SincWritesItsValue : n0 = (demoArgs n0 n0).arg0 ∧
    n1 = (if binary64.lt (binary64.abs n0) (binary64.lit .eps) = true then binary64.lit .one
      else binary64.div (binary64.sin (binary64.mul binary64.pi n0)) (binary64.mul binary64.pi n0)) ∧
    Fp.isFinite nInf = false ∧ Fp.isFinite nNaN = false := by decide +kernel

theorem witness_SetcoefReplacesOnlyMatchingLength :
    demo.filterAt 0#4 = some (lpf [n1, n1, n1]) ∧ demo.seq 1#4 = some [n1, n2, n3] ∧
    [n1, n2, n3].length = (lpf [n1, n1, n1]).coeff.length ∧ demo.seq 0#4 = some [] ∧
    ([] : List Word).length ≠ (lpf [n1, n1, n1]).coeff.length := by
  decide +kernel

theorem witness_NormDividesBySum :
    demo.filterAt 0#4 = some (lpf [n1, n1, n1]) ∧
    n3 = (lpf [n1, n1, n1]).coeff.foldl binary64.add (binary64.ofInt 0) ∧
    binary64.lt (binary64.abs n3) (binary64.lit .eps) = false ∧
    (demoCoeff [n1, n0, nm1]).filterAt 0#4 = some (lpf [n1, n0, nm1]) ∧
    n0 = (lpf [n1, n0, nm1]).coeff.foldl binary64.add (binary64.ofInt 0) ∧
    binary64.lt (binary64.abs n0) (binary64.lit .eps) = true := by decide +kernel

theorem witness_FilterAccessors :
    (7#4 : Idx).toNat < Config.NB ∧ demo.filterAt 0#4 = some (lpf [n1, n1, n1]) ∧
    demo.filterAt 3#4 = some fsOne := by decide +kernel

theorem witness_SetwtypeResynthesises : demo.filterAt 3#4 = some fsOne ∧
    smallDemo.filterAt 0#4 = some (lpf [n1, n1, n1]) := by decide +kernel

theorem witness_ConvolutionCommands : (7#4 : Idx).toNat < Config.NB ∧ (1#4 : Idx).toNat < Config.NB ∧
    demo.filterAt 0#4 = some (lpf [n1, n1, n1]) ∧ [n1, n2, n3] ≠ [] ∧ (lpf [n1, n1, n1]).coeff ≠ [] ∧
    [n1, n2, n3].length + (lpf [n1, n1, n1]).coeff.length - 1 ≤ Config.MAXSIG ∧
    demo.seq 1#4 = some [n1, n2, n3] := by decide +kernel

/-- `demo` with a full sequence in `b7`. -/
def demoLong (n : Nat) : State := demo.writeBuf 7#4 (List.replicate n n1)

theorem demoLong_seq (n : Nat) : (demoLong n).seq 7#4 = some (List.replicate n n1) :=
  State.Of.seq_writeBuf demo (fun _ => rfl) (by decide) _

theorem witness_ConvErrorsInOrder : demo.filterAt 0#4 = some (lpf [n1, n1, n1]) ∧ demo.seq 0#4 = some [] ∧
    (demoCoeff []).filterAt 0#4 = some (lpf []) ∧ (demoCoeff []).seq 1#4 = some [n1, n2, n3] ∧
    (demoLong 4095).filterAt 0#4 = some (lpf [n1, n1, n1]) ∧
    (demoLong 4095).seq 7#4 = some (List.replicate 4095 n1) ∧ (List.replicate 4095 n1).length ≠ 0 ∧
    Config.MAXSIG < (List.replicate 4095 n1).length + (lpf [n1, n1, n1]).coeff.length - 1 :=
  ⟨by decide +kernel, by decide +kernel, by decide +kernel, by decide +kernel,
    (State.Of.filterAt_writeBuf ..).trans (by decide +kernel), demoLong_seq _, by rw [List.length_replicate]; decide,
    by rw [List.length_replicate]; decide⟩

theorem witness_SameBufferEqualsInPlace : (∃ t, exec (.convip 1#4 0#4) demo = .next t) ∧
    ∃ t, exec (.winApplyip 1#4 0#4) demo = .next t := ⟨⟨_, rfl⟩, ⟨_, rfl⟩⟩

theorem witness_EqualityContracts :
    demo.filterAt 0#4 = some (lpf [n1, n1, n1]) ∧ demo.filterAt 3#4 = some fsOne ∧
    demo.windowAt 0#4 = some rect3 ∧ rect3.wtype = rect3.wtype ∧ demo.Inv :=
  ⟨by decide +kernel, by decide +kernel, by decide +kernel, rfl, demo_inv⟩

theorem witness_FreeEmptiesTheSlot : demo.filterAt 0#4 ≠ none ∧ demo.windowAt 0#4 ≠ none := by decide +kernel

theorem witness_WindowedCreates : (3#4 : Idx).toNat < Config.NF ∧ SizeOk Config.params (3#32 : SizeImm).toNat ∧
    SizeOk Config.params (1023#32 : SizeImm).toNat ∧ CutoffOk binary64 demo.arg0 ∧ CutoffOk binary64 demo.arg1 ∧
    binary64.lt demo.arg0 demo.arg1 = true :=
  ⟨by decide, size_ends.2.2, by unfold SizeOk; decide, cutoff_demo.1, cutoff_demo.2.1, by decide +kernel⟩

theorem witness_CreateErrorsInOrder :
    ¬((1#32 : SizeImm).toNat % 2 = 1 ∧ 3 ≤ (1#32 : SizeImm).toNat) ∧
    ((3#32 : SizeImm).toNat % 2 = 1 ∧ 3 ≤ (3#32 : SizeImm).toNat) ∧ ¬CutoffOk binary64 (demoArgs n05 n01).arg0 ∧
    ((1025#32 : SizeImm).toNat % 2 = 1 ∧ 3 ≤ (1025#32 : SizeImm).toNat ∧ Config.MAXN < (1025#32 : SizeImm).toNat) ∧
    CutoffOk binary64 demo.arg0 ∧ ¬CutoffOk binary64 (demoArgs n01 n0).arg1 ∧ CutoffOk binary64 demo.arg1 ∧
    binary64.lt (demoArgs n025 n01).arg0 (demoArgs n025 n01).arg1 = false ∧
    binary64.lt demo.arg0 demo.arg1 = true :=
  ⟨by decide, by decide, not_cutoff.2, by decide, cutoff_demo.1, not_cutoff.1, cutoff_demo.2.1, by decide +kernel,
    by decide +kernel⟩

theorem witness_FrequencySamplingCreate : (3#4 : Idx).toNat < Config.NF ∧ demo.seq 0#4 = some [] ∧
    demo.seq 3#4 = some [n1] ∧ [n1] ≠ [] ∧ 2 * [n1].length + 1 ≤ Config.MAXN ∧
    (demoLong 512).seq 7#4 = some (List.replicate 512 n1) ∧ Config.MAXN < 2 * (List.replicate 512 n1).length + 1 :=
  ⟨by decide, by decide +kernel, by decide +kernel, by decide, by decide, demoLong_seq _,
    by rw [List.length_replicate]; decide⟩

theorem witness_GetspecCopiesTheSpectrum : (7#4 : Idx).toNat < Config.NB ∧ demo.filterAt 3#4 = some fsOne ∧
    fsOne.params = .freqSampling [n1] ∧ demo.filterAt 0#4 = some (lpf [n1, n1, n1]) ∧
    ∀ xs, (lpf [n1, n1, n1]).params ≠ .freqSampling xs :=
  ⟨by decide, by decide +kernel, rfl, by decide +kernel, fun xs h => by cases h⟩

theorem witness_WindowCreateAndRetype : (3#4 : Idx).toNat < Config.NW ∧ SizeOk Config.params (3#32 : SizeImm).toNat ∧
    ¬((2#32 : SizeImm).toNat % 2 = 1) ∧ Config.MAXN < (1025#32 : SizeImm).toNat ∧ (1025#32 : SizeImm).toNat % 2 = 1 ∧
    demo.windowAt 0#4 = some rect3 :=
  ⟨by decide, size_ends.2.2, by decide, by decide, by decide, by decide +kernel⟩

theorem witness_WindowApplyMultipliesElementwise : demo.windowAt 0#4 = some rect3 ∧ (7#4 : Idx).toNat < Config.NB ∧
    (1#4 : Idx).toNat < Config.NB ∧ demo.seq 1#4 = some [n1, n2, n3] ∧ [n1, n2, n3].length = rect3.coeff.length ∧
    [n1, n2, n3] = List.zipWith binary64.mul [n1, n2, n3] rect3.coeff ∧ demo.seq 3#4 = some [n1] ∧ [n1].length ≠ rect3.coeff.length := by
  decide +kernel

theorem witness_WindowAccessors : (7#4 : Idx).toNat < Config.NB ∧ demo.windowAt 0#4 = some rect3 := by decide +kernel

theorem witness_EmptySlotRaisesNoObject : demo.filterAt 1#4 = none ∧ demo.windowAt 1#4 = none ∧
    ∃ t, exec (.winCreate 1#4 3#32 .rectangular) demo = .next t :=
  ⟨by decide +kernel, by decide +kernel, ⟨_, rfl⟩⟩

theorem witness_UnwrittenSourceIsRefused : demo.seq 4#4 = none ∧ demo.seq 7#4 = none ∧
    demo.filterAt 0#4 ≠ none ∧ demo.windowAt 0#4 ≠ none := by decide +kernel

theorem witness_FailingCommandChangesOnlyStatus :
    (∃ t, exec (.getsize 1#4) demo = .next t ∧ t.err ≠ .ok) ∧
    (∃ t, execOf (.chksize 3#32) (State.Of.reset roomy) = .next t) ∧ roomy.MAXN = none ∧ roomy.MAXSIG = none :=
  ⟨⟨_, rfl, by decide⟩, ⟨_, rfl⟩, rfl, rfl⟩

theorem witness_CommandsAlwaysAnswer : (∀ b : Idx, ∃ xs, State.reset.seq b = some xs) ∧
    (∀ b : Idx, ∃ xs, (State.Of.reset small).seq b = some xs) ∧
    (∃ x, small.num.ofBits (State.Of.reset small).arg0 = some x) ∧
    ∃ x, small.num.ofBits (State.Of.reset small).arg1 = some x := by
  have h : ∀ b : Idx, State.reset.seq b = some [] := by decide +kernel
  have h' : ∀ b : Idx, (State.Of.reset small).seq b = some [] := by decide +kernel
  exact ⟨fun b => ⟨[], h b⟩, fun b => ⟨[], h' b⟩, ⟨_, rfl⟩, ⟨_, rfl⟩⟩

theorem witness_InvalidTypeIsNeverRaised : (∃ t, exec (.getsize 1#4) demo = .next t) ∧ demo.err ≠ .invalidType ∧
    ∃ t, step demo = .next t := ⟨⟨_, rfl⟩, by decide, ⟨_, rfl⟩⟩

theorem witness_StatusAndResultFrames : (∃ t, exec (.chksize 3#32) demo = .next t) ∧
    ∃ t, exec (.feq 0#4 3#4) demo = .next t := ⟨⟨_, rfl⟩, ⟨_, rfl⟩⟩

theorem witness_SlotCommandFrames : (∃ t, exec (.ffree 0#4) demo = .next t) ∧
    (∃ t, exec (.fsCreate 1#4 3#4) demo = .next t) ∧ ∃ t, exec (.winFree 0#4) demo = .next t :=
  ⟨⟨_, rfl⟩, ⟨_, rfl⟩, ⟨_, rfl⟩⟩

theorem witness_BufferCommandFrames : (∃ t, exec (.getcoef 7#4 0#4) demo = .next t) ∧
    ∃ t, exec (.convip 1#4 0#4) demo = .next t := ⟨⟨_, rfl⟩, ⟨_, rfl⟩⟩

theorem witness_FilterParametersAreImmutable : (∃ t, exec (.setcoef 0#4 1#4) demo = .next t) ∧
    demo.filterAt 0#4 = some (lpf [n1, n1, n1]) ∧ Instr.setcoef 0#4 1#4 ≠ .ffree 0#4 :=
  ⟨⟨_, rfl⟩, by decide +kernel, by decide⟩

theorem witness_FiltersAndWindowsAreIndependent : (∃ t, exec (.winFree 0#4) demo = .next t) ∧
    0x30 ≤ (Instr.winFree 0#4).opcode ∧ (∃ t, exec (.ffree 0#4) demo = .next t) ∧ (Instr.fsGetspec 0#4 0#4).opcode < 0x30 ∧
    (Instr.ffree 0#4).opcode < 0x30 := ⟨⟨_, rfl⟩, by decide, ⟨_, rfl⟩, by decide, by decide⟩

theorem witness_StepKeepsTheInvariant : demo.Inv ∧ (∃ t, step demo = .next t) ∧ small.toParams.Ok ∧
    (State.Of.reset small).Inv ∧ ∃ t, stepOf (State.Of.reset small) = .next t :=
  ⟨demo_inv, ⟨_, rfl⟩, test_small_ok, State.Of.reset_inv small, ⟨_, rfl⟩⟩

theorem witness_RunsAreSafeUnlessRefused : demo.Inv := demo_inv

theorem witness_WindowedSincFormulas : 0 < 3 ∧ 2 < 3 ∧ 1 = (3 - 1) / 2 ∧
    n0 = binary64.ofInt ((1 : Int) - (((3 - 1) / 2 : Nat) : Int)) ∧ n2 = binary64.lit .two := by decide +kernel

theorem witness_FrequencySamplingAndWindowFormulas : [n1] ≠ [] ∧ 3 = 2 * [n1].length + 1 ∧ 2 < 3 ∧
    n0 = binary64.div (binary64.mul (binary64.mul (binary64.lit .two) binary64.pi) (binary64.ofInt 0))
      (binary64.ofInt ((3 : Int) - 1)) := by decide +kernel

theorem witness_ConvolutionSamples : 0 < [n1, n2, n3].length + [n1, n1].length - 1 ∧
    3 < [n1, n2, n3].length + [n1, n1].length - 1 := by decide

theorem witness_RealCoefficientLaws : (0 : ℝ) < 1 / 10 ^ 12 ∧ 3 % 2 = 1 ∧ 1023 % 2 = 1 := by norm_num

theorem witness_RealWindowShape : 3 % 2 = 1 ∧ 3 ≤ 3 := by decide

theorem witness_RealNormaliseSumsToOne : coeffSum realNum [(1 : ℝ)] ≠ 0 := by
  show ((0 : ℤ) : ℝ) + 1 ≠ 0
  norm_num

/-- The identity is an odd function that gives a NaN for no finite number. -/
theorem witness_Binary64CoefficientsArePalindromic :
    (∀ t, Fp.isFinite t = true → id (Fp.neg t) = Fp.neg (id t)) ∧
    (∀ t, Fp.isFinite t = true → Fp.isNaN (id t) = false) ∧ SizeOk Config.params 3 ∧ SizeOk Config.params 1023 ∧
    CutoffOk binary64 n01 ∧ CutoffOk binary64 n025 :=
  ⟨fun _ _ => rfl, fun t h => by
    by_contra hn
    have hn' : Fp.isNaN t = true := by simpa using hn
    rw [Fp.isNaN, Bool.and_eq_true, beq_iff_eq] at hn'
    rw [Fp.isFinite, hn'.1] at h
    exact absurd h (by decide), size_ends.1, size_ends.2.1, cutoff_demo.1, cutoff_demo.2.1⟩

/-- Each clause of `RealMachineCells` has a state that meets its premises. -/
theorem witness_RealMachineCells : realDemo.arg0 = .num 0 ∧ ({ realDemo with arg0 := .word 5#64 }).arg0 = .word 5#64 ∧
    realDemo.cells 1#4 = some ([2].map RealCell.num) ∧
    (∃ v, realDemo.filterAt 0#4 = some v) ∧ (∃ cs, realDemo.cells 0#4 = some cs ∧ .word 3#64 ∈ cs) ∧
    (7#4 : Idx).toNat < Config.params.NB :=
  ⟨test_real_reset, rfl, rfl, ⟨_, rfl⟩, ⟨_, rfl, by simp⟩, by decide⟩

theorem witness_NamedPropertiesOfTheNumerics : Fp.isFinite 0x7FEFFFFFFFFFFFFF#64 = true ∧ Fp.isFinite nInf = false := by
  decide

end Sys2Proof.Tests
end

section
/-! The laws of binary64 the statements of 00_scope.md need: the bits of a word, comparisons, NaN operands, exact results of rounding, and the operations with 0 and 1. -/

namespace Sys2Proof.Machine.Fp

/-! ## Sign and magnitude as bits (R13) -/

theorem sign_eq_msb (a : Word) : sign a = a.msb := (BitVec.msb_eq_decide a).symm

@[simp] theorem sign_abs (a : Word) : sign (abs a) = false := sign_ofSignMag _ (magBits_lt a)
@[simp] theorem magBits_abs (a : Word) : magBits (abs a) = magBits a := magBits_ofSignMag _ (magBits_lt a)

/-- Negation flips bit 63 alone. -/
theorem neg_eq_xor (a : Word) : neg a = a ^^^ 0x8000000000000000#64 := by
  apply eq_of_sign_magBits
  · rw [sign_neg, sign_eq_msb, sign_eq_msb, BitVec.msb_xor]
    exact (Bool.xor_true _).symm
  · rw [magBits_neg, magBits, magBits, BitVec.toNat_xor, Nat.xor_mod_two_pow]
    exact (Nat.xor_zero _).symm

/-- Absolute value clears bit 63 alone. -/
theorem abs_eq_and (a : Word) : abs a = a &&& 0x7FFFFFFFFFFFFFFF#64 := by
  apply eq_of_sign_magBits
  · rw [sign_abs, sign_eq_msb, BitVec.msb_and]
    exact (Bool.and_false _).symm
  · rw [magBits_abs, magBits, magBits, BitVec.toNat_and,
      show (0x7FFFFFFFFFFFFFFF#64).toNat = 2 ^ 63 - 1 from rfl, Nat.and_two_pow_sub_one_eq_mod, Nat.mod_mod]

/-! ## NaNs, infinities and finite words -/

/-- An infinity is no NaN. -/
theorem isNaN_of_isInf {a : Word} (h : isInf a = true) : isNaN a = false := by
  rw [isInf, Bool.and_eq_true, beq_iff_eq, beq_iff_eq] at h
  simp [isNaN, h.2]

/-- The infinities are the two words `inf`. -/
theorem eq_inf_of_isInf {a : Word} (h : isInf a = true) : a = inf (sign a) := by
  rw [isInf, Bool.and_eq_true, beq_iff_eq, beq_iff_eq] at h
  obtain ⟨he, hf⟩ := h
  have hm : magBits a = 2047 * 2 ^ 52 := by
    rw [fracBits_eq] at hf
    unfold expBits at he
    omega
  exact eq_of_sign_magBits (sign_ofSignMag _ (by omega)).symm (hm.trans (magBits_ofSignMag _ (by omega)).symm)

/-- A word of magnitude 0 is no NaN. -/
theorem isNaN_of_magBits_zero {a : Word} (h : magBits a = 0) : isNaN a = false := by
  simp [isNaN, expBits, h]

/-- A zero has no units. -/
theorem magUnits_of_magBits_zero {a : Word} (h : magBits a = 0) : magUnits a = 0 := by
  simp [magUnits, expBits, fracBits_eq, h]

/-! ## Comparisons (R12) -/

theorem lt_iff (a b : Word) :
    lt a b = true ↔ isNaN a = false ∧ isNaN b = false ∧ order a < order b := by
  simp [lt, and_assoc]

theorem eq_iff (a b : Word) :
    eq a b = true ↔ isNaN a = false ∧ isNaN b = false ∧ order a = order b := by
  simp [eq, and_assoc]

/-- The numbers that do not equal themselves are the NaNs. -/
theorem self_eq (a : Word) : eq a a = !isNaN a := by simp [eq]

/-- A comparison with a NaN is false. -/
theorem lt_eq_false_of_isNaN {a b : Word} (h : isNaN a = true ∨ isNaN b = true) :
    lt a b = false ∧ eq a b = false := by
  rcases h with h | h <;> simp [lt, eq, h]

theorem lt_of_lt_of_lt {a b c : Word} (hab : lt a b = true) (hbc : lt b c = true) : lt a c = true := by
  obtain ⟨ha, -, hab⟩ := (lt_iff a b).1 hab
  obtain ⟨-, hc, hbc⟩ := (lt_iff b c).1 hbc
  exact (lt_iff a c).2 ⟨ha, hc, hab.trans hbc⟩

/-- Of two numbers that are no NaNs, neither precedes the other exactly when they are equal. -/
theorem eq_iff_not_lt {a b : Word} (ha : isNaN a = false) (hb : isNaN b = false) :
    eq a b = true ↔ lt a b = false ∧ lt b a = false := by
  simp only [eq, lt, ha, hb, Bool.not_false, Bool.true_and, decide_eq_true_eq, decide_eq_false_iff_not]
  omega

theorem order_eq_zero_iff (a : Word) : order a = 0 ↔ magBits a = 0 := by
  unfold order
  split <;> omega

/-- The numbers equal to the integer 0 are the zeros of either sign. -/
theorem eq_ofInt_zero_iff (a : Word) : eq a (ofInt 0) = true ↔ magBits a = 0 := by
  have h0 : isNaN (ofInt 0) = false ∧ order (ofInt 0) = 0 := by decide
  rw [eq_iff, h0.1, h0.2, order_eq_zero_iff]
  exact ⟨fun h => h.2.2, fun h => ⟨isNaN_of_magBits_zero h, rfl, h⟩⟩

/-! ## Operations with a NaN operand -/

section
variable {a b : Word} (h : isNaN a = true ∨ isNaN b = true)
include h

theorem add_of_isNaN : add a b = nan .add a b := if_pos (by simpa using h)
theorem sub_of_isNaN : sub a b = nan .sub a b := if_pos (by simpa using h)
theorem mul_of_isNaN : mul a b = nan .mul a b := if_pos (by simpa using h)
theorem div_of_isNaN : div a b = nan .div a b := if_pos (by simpa using h)

end

/-! ## Rounding a number of binary64 gives that number -/

/-- An exact quotient is not rounded. -/
theorem roundHalfEven_mul_right (n : Nat) {q : Nat} (hq : 0 < q) : roundHalfEven (n * q) q = n := by
  simp [roundHalfEven, Nat.mul_div_cancel n hq, hq]

/-- The binade of a normal number: its units begin at bit `52 + (e - 1)`. -/
theorem log2_magUnits {a : Word} (h : expBits a ≠ 0) : Nat.log2 (magUnits a) - 52 = expBits a - 1 := by
  have hf : fracBits a < 2 ^ 52 := Nat.mod_lt _ (by omega)
  have hlog : Nat.log2 (magUnits a) = 52 + (expBits a - 1) := by
    rw [magUnits, if_neg h, Nat.log2_eq_iff (Nat.mul_ne_zero (by omega) (by positivity))]
    constructor
    · rw [Nat.pow_add]
      exact Nat.mul_le_mul_right _ (by omega)
    · rw [show 52 + (expBits a - 1) + 1 = 53 + (expBits a - 1) by omega, Nat.pow_add]
      exact Nat.mul_lt_mul_of_pos_right (by omega) (by positivity)
  omega

/-- The magnitude of a finite word, given as any ratio, rounds to the word's own bits. -/
theorem roundMag_magUnits {a : Word} (ha : isFinite a = true) {q : Nat} (hq : 0 < q) :
    roundMag (magUnits a * q) q = magBits a := by
  have he : expBits a = magBits a / 2 ^ 52 := rfl
  have hf := fracBits_eq a
  have hm := magBits_lt a
  have hfin : expBits a ≠ 2047 := by simpa [isFinite] using ha
  unfold roundMag
  dsimp only
  rw [Nat.mul_div_cancel _ hq]
  by_cases h0 : expBits a = 0
  · have hu : magUnits a = fracBits a := if_pos h0
    have hl : Nat.log2 (magUnits a) - 52 = 0 := by
      by_cases hz : magUnits a = 0
      · rw [hz]; rfl
      · have := (Nat.log2_lt hz).2 (show magUnits a < 2 ^ 52 by omega)
        omega
    rw [hl, Nat.pow_zero, Nat.mul_one, roundHalfEven_mul_right _ hq]
    omega
  · have hu : magUnits a * q = (2 ^ 52 + fracBits a) * (q * 2 ^ (expBits a - 1)) := by
      rw [magUnits, if_neg h0]; ring
    rw [log2_magUnits h0, hu, roundHalfEven_mul_right _ (by positivity)]
    omega

/-- A finite word is the rounded value of its own sign and magnitude. -/
theorem round_magUnits {a : Word} (ha : isFinite a = true) {q : Nat} (hq : 0 < q) :
    round (sign a) (magUnits a * q) q = a := by
  rw [round, roundMag_magUnits ha hq]
  exact eq_of_sign_magBits (sign_ofSignMag _ (magBits_lt a)) (magBits_ofSignMag _ (magBits_lt a))

/-! ## Operations on finite numbers -/

section
variable {a b : Word} (ha : isFinite a = true) (hb : isFinite b = true)
include ha hb

theorem add_finite : add a b = addFinite a b := by
  obtain ⟨han, hai⟩ := (isFinite_iff a).1 ha
  obtain ⟨hbn, hbi⟩ := (isFinite_iff b).1 hb
  simp only [add, han, hai, hbn, hbi, Bool.or_false, Bool.false_eq_true, if_false]

theorem sub_finite : sub a b = addFinite a (neg b) := by
  obtain ⟨han, hai⟩ := (isFinite_iff a).1 ha
  obtain ⟨hbn, hbi⟩ := (isFinite_iff b).1 hb
  simp only [sub, han, hai, hbn, hbi, Bool.or_false, Bool.false_eq_true, if_false]

theorem div_finite (h0 : magBits b ≠ 0) :
    div a b = round (sign a != sign b) (magUnits a * 2 ^ 1074) (magUnits b) := by
  obtain ⟨han, hai⟩ := (isFinite_iff a).1 ha
  obtain ⟨hbn, hbi⟩ := (isFinite_iff b).1 hb
  have hbz : isZero b = false := by simpa [isZero] using h0
  simp only [div, han, hai, hbn, hbi, hbz, Bool.or_false, Bool.false_eq_true, if_false]

end

/-! ## Operations with 0 and 1 (R15) -/

/-- The number 1 is `2^1074` units. -/
theorem magUnits_one : magUnits (lit .one) = 2 ^ 1074 := by decide +kernel

theorem sign_one : sign (lit .one) = false := by decide

theorem isFinite_one : isFinite (lit .one) = true := by decide

theorem isFinite_ofInt_zero : isFinite (ofInt 0) = true := by decide

theorem units_ofInt_zero : units (ofInt 0) = 0 := by decide

/-- A NaN apart, a product with 1 is the other factor. -/
theorem mul_lit_one {a : Word} (h : isNaN a = false) : mul a (lit .one) = a := by
  have hs : (sign a != sign (lit .one)) = sign a := by rw [sign_one, Bool.bne_false]
  cases hi : isInf a with
  | true =>
    have h1 : isNaN (lit .one) = false ∧ isZero (lit .one) = false := by decide
    simp only [mul, h, hi, h1, hs, Bool.or_false, Bool.false_eq_true, if_false, if_true]
    exact (eq_inf_of_isInf hi).symm
  | false =>
    have ha : isFinite a = true := (isFinite_iff a).2 ⟨h, hi⟩
    rw [mul_finite ha isFinite_one, hs, magUnits_one, round_magUnits ha (by positivity)]

/-- A finite number other than 0 divided by itself is 1. -/
theorem div_finite_self {a : Word} (ha : isFinite a = true) (h0 : magBits a ≠ 0) : div a a = lit .one := by
  calc
    div a a = round false (magUnits a * 2 ^ 1074) (magUnits a) := by
      rw [div_finite ha ha h0, bne_self_eq_false]
    _ = round (sign (lit .one)) (magUnits (lit .one) * magUnits a) (magUnits a) := by
      rw [sign_one, magUnits_one, Nat.mul_comm]
    _ = lit .one := round_magUnits isFinite_one (magUnits_pos h0)

/-- Two finite numbers that cancel, their signs not both set, sum to the number 0. -/
theorem addFinite_eq_ofInt_zero {a b : Word} (hu : units a + units b = 0) (hs : (sign a && sign b) = false) :
    addFinite a b = ofInt 0 := by
  calc
    addFinite a b = zero (sign a && sign b) := if_pos hu
    _ = ofInt 0 := by rw [hs]; rfl

/-- A finite number less itself is 0. -/
theorem sub_finite_self {a : Word} (ha : isFinite a = true) : sub a a = ofInt 0 := by
  have hu : units a + units (neg a) = 0 := by
    unfold units
    rw [sign_neg, magUnits_neg]
    cases sign a <;> simp
  rw [sub_finite ha ha, addFinite_eq_ofInt_zero hu (by rw [sign_neg, Bool.and_not_self])]

/-- A number with units is its sign and its units, rounded. -/
theorem round_units {a : Word} (ha : isFinite a = true) (h0 : magBits a ≠ 0) :
    units a ≠ 0 ∧ round (decide (units a < 0)) (units a).natAbs 1 = a := by
  have hpos := magUnits_pos h0
  have hu : units a ≠ 0 ∧ decide (units a < 0) = sign a ∧ (units a).natAbs = magUnits a * 1 := by
    unfold units
    cases sign a <;> simp <;> omega
  obtain ⟨hne, hneg, habs⟩ := hu
  exact ⟨hne, by rw [hneg, habs, round_magUnits ha Nat.one_pos]⟩

/-- 0 plus a number that is neither a NaN nor a zero is that number. -/
theorem ofInt_zero_add {a : Word} (h : isNaN a = false) (h0 : magBits a ≠ 0) : add (ofInt 0) a = a := by
  cases hi : isInf a with
  | true =>
    have hz : isNaN (ofInt 0) = false ∧ isInf (ofInt 0) = false := by decide
    simp only [add, h, hi, hz, Bool.or_false, Bool.false_eq_true, if_false, if_true]
  | false =>
    have ha : isFinite a = true := (isFinite_iff a).2 ⟨h, hi⟩
    obtain ⟨hne, hround⟩ := round_units ha h0
    rw [add_finite isFinite_ofInt_zero ha, addFinite, units_ofInt_zero, Int.zero_add, if_neg hne, hround]

/-- 0 plus a zero of either sign is the number 0. -/
theorem ofInt_zero_add_zero {a : Word} (h0 : magBits a = 0) : add (ofInt 0) a = ofInt 0 := by
  have ha : isFinite a = true := by simp [isFinite, expBits, h0]
  have hu : units a = 0 := by simp [units, magUnits_of_magBits_zero h0]
  rw [add_finite isFinite_ofInt_zero ha]
  exact addFinite_eq_ofInt_zero (by rw [units_ofInt_zero, hu]; rfl) (Bool.false_and _)

end Sys2Proof.Machine.Fp
end

section
/-! The statements of 00_scope.md (R11 to R15): the numerics of this hardware and of the reals, and the machine whose cells hold reals. -/

namespace Sys2Proof.Machine

/-- Settles O16: comparisons and operations go by `isNaN` and `order`, and the signs by bit 63. -/
theorem binary64NaNAndOrder : Obligations.Binary64NaNAndOrder := by
  unfold Obligations.Binary64NaNAndOrder
  refine ⟨fun a b h => ?_, by decide, fun a b c => Fp.lt_of_lt_of_lt, fun a b => Fp.eq_iff_not_lt,
    fun a => ⟨Fp.neg_eq_xor a, Fp.abs_eq_and a⟩⟩
  obtain ⟨hlt, heq⟩ := Fp.lt_eq_false_of_isNaN h
  have hadd : Fp.isNaN (Fp.add a b) = true := by rw [Fp.add_of_isNaN h, isNaN_nan]
  have hsub : Fp.isNaN (Fp.sub a b) = true := by rw [Fp.sub_of_isNaN h, isNaN_nan]
  have hmul : Fp.isNaN (Fp.mul a b) = true := by rw [Fp.mul_of_isNaN h, isNaN_nan]
  have hdiv : Fp.isNaN (Fp.div a b) = true := by rw [Fp.div_of_isNaN h, isNaN_nan]
  exact ⟨hlt, heq, hadd, hsub, hmul, hdiv⟩

/-- The decimal text of a literal, in units of `2^-1074`, rounds to the literal's encoding (R14). -/
theorem lit_eq_round (l : Literal) :
    Fp.lit l = Fp.round false ((Literal.decimal l).1 * 2 ^ 1074) (10 ^ (Literal.decimal l).2) := by
  cases l <;> decide +kernel

/-- Settles O17: the encodings are the model's table, and each decimal text rounds to its own. -/
theorem literalsAreTheNearestNumbers : Obligations.LiteralsAreTheNearestNumbers :=
  ⟨rfl, rfl, rfl, rfl, rfl, rfl, rfl, rfl, rfl, lit_eq_round⟩

/-! ## The named properties with `NUM = real` -/

theorem realNum_div {a b : ℝ} (h : b ≠ 0) : realNum.div a b = a / b := if_neg h

theorem realNum_ofInt_zero : realNum.ofInt 0 = 0 := Int.cast_zero

theorem realNum_lit_one : realNum.lit .one = 1 := by
  show ((10 : ℕ) : ℝ) / 10 ^ 1 = 1
  norm_num

theorem realNum_lit_two : realNum.lit .two = 2 := by
  show ((2 : ℕ) : ℝ) / 10 ^ 0 = 2
  norm_num

theorem realNum_lit_eps : realNum.lit .eps = 1 / 10 ^ 12 := by
  show ((1 : ℕ) : ℝ) / 10 ^ 12 = _
  rw [Nat.cast_one]

theorem realNum_sinOdd : realNum.SinOdd := fun t => .inl (Real.sin_neg t)

theorem realNum_cosEven : realNum.CosEven := fun t => .inl (Real.cos_neg t)

theorem realNum_cosZero : realNum.CosZero := by
  rw [Numerics.CosZero, realNum_ofInt_zero, realNum_lit_one]
  exact Real.cos_zero

/-- The angle `2π·m/2` of `CosTwoPiN3` is `m·π`. -/
theorem realNum_twoPi_mul_div_two (m : ℤ) :
    realNum.div (realNum.mul (realNum.mul (realNum.lit .two) realNum.pi) (realNum.ofInt m)) (realNum.ofInt 2) =
      m * Real.pi := by
  have h2 : realNum.ofInt 2 = 2 := Int.cast_two
  rw [h2, realNum_div two_ne_zero, realNum_lit_two]
  show 2 * Real.pi * (m : ℝ) / 2 = _
  ring

theorem realNum_cosTwoPiN3 : realNum.CosTwoPiN3 := by
  rw [Numerics.CosTwoPiN3, realNum_twoPi_mul_div_two, realNum_twoPi_mul_div_two, realNum_lit_one]
  constructor
  · show Real.cos (((2 : ℤ) : ℝ) * Real.pi) = 1
    rw [Int.cast_two, Real.cos_two_pi]
  · show Real.cos (((1 : ℤ) : ℝ) * Real.pi) = -1
    rw [Int.cast_one, one_mul, Real.cos_pi]

theorem realNum_mulOne : realNum.MulOne := fun a => .inl (by rw [realNum_lit_one]; exact mul_one a)

theorem realNum_divSelf : realNum.DivSelf := by
  intro a _ ha
  rw [realNum_ofInt_zero] at ha
  have h0 : a ≠ 0 := of_decide_eq_false ha
  rw [realNum_div h0, div_self h0, realNum_lit_one]

theorem realNum_addZero : realNum.AddZero :=
  fun a => .inl (.inl (by rw [realNum_ofInt_zero]; exact zero_add a))

/-! ## The named properties with `NUM = binary64` -/

/-- Two words are one number if they are equal or NaNs both (log 15). -/
theorem binary64_same_iff (a b : Word) :
    binary64.Same a b ↔ a = b ∨ Fp.isNaN a = true ∧ Fp.isNaN b = true := by
  show a = b ∨ Fp.eq a a = false ∧ Fp.eq b b = false ↔ _
  rw [Fp.self_eq, Fp.self_eq, Bool.not_eq_false', Bool.not_eq_false']

/-- NaNs both are one number. -/
theorem binary64_same_of_isNaN {a b : Word} (ha : Fp.isNaN a = true) (hb : Fp.isNaN b = true) :
    binary64.Same a b := (binary64_same_iff a b).2 (.inr ⟨ha, hb⟩)

/-- Only a finite word's difference from itself is 0 (log 15). -/
theorem binary64_finite_iff (a : Word) : binary64.Finite a ↔ Fp.isFinite a = true := by
  show Fp.eq (Fp.sub a a) (Fp.ofInt 0) = true ↔ _
  constructor
  · intro h
    have hsub : Fp.isNaN (Fp.sub a a) = false := ((Fp.eq_iff _ _).1 h).1
    rw [Fp.isFinite_iff, ← Bool.not_eq_true, ← Bool.not_eq_true]
    constructor
    · intro hn
      rw [Fp.sub_of_isNaN (.inl hn), isNaN_nan] at hsub
      cases hsub
    · intro hi
      have hnan : Fp.sub a a = Fp.nan .sub a a := by simp [Fp.sub, Fp.isNaN_of_isInf hi, hi]
      rw [hnan, isNaN_nan] at hsub
      cases hsub
  · intro h
    rw [Fp.sub_finite_self h]
    decide

theorem binary64_mulOne : binary64.MulOne := by
  intro a
  show binary64.Same (Fp.mul a (Fp.lit .one)) a
  cases h : Fp.isNaN a with
  | true => exact binary64_same_of_isNaN (by rw [Fp.mul_of_isNaN (.inl h), isNaN_nan]) h
  | false => exact .inl (Fp.mul_lit_one h)

theorem binary64_divSelf : binary64.DivSelf := by
  intro a hf h0
  have hm : Fp.magBits a ≠ 0 := fun h => by cases h0.symm.trans ((Fp.eq_ofInt_zero_iff a).2 h)
  exact Fp.div_finite_self ((binary64_finite_iff a).1 hf) hm

theorem binary64_addZero : binary64.AddZero := by
  intro a
  show binary64.Same (Fp.add (Fp.ofInt 0) a) a ∨
    Fp.eq (Fp.add (Fp.ofInt 0) a) (Fp.ofInt 0) = true ∧ Fp.eq a (Fp.ofInt 0) = true
  cases h : Fp.isNaN a with
  | true => exact .inl (binary64_same_of_isNaN (by rw [Fp.add_of_isNaN (.inr h), isNaN_nan]) h)
  | false =>
    by_cases h0 : Fp.magBits a = 0
    · rw [Fp.ofInt_zero_add_zero h0, Fp.eq_ofInt_zero_iff, Fp.eq_ofInt_zero_iff]
      exact .inr ⟨by decide, h0⟩
    · exact .inl (.inl (Fp.ofInt_zero_add h h0))

/-- The free sine decides finite words alone: of any other, both sides of `SinOdd` are NaNs (log 5). -/
theorem binary64_sinOdd_iff :
    binary64.SinOdd ↔ ∀ t : Word, Fp.isFinite t = true →
      binary64.Same (Config.sin64 (Fp.neg t)) (Fp.neg (Config.sin64 t)) := by
  refine forall_congr' fun t => ?_
  show binary64.Same (Fp.sin (Fp.neg t)) (Fp.neg (Fp.sin t)) ↔ _
  cases ht : Fp.isFinite t with
  | true => simp [Fp.sin, ht]
  | false => simp [Fp.sin, ht, binary64_same_of_isNaN]

/-- The free cosine decides finite words alone: of any other, both sides of `CosEven` are NaNs (log 5). -/
theorem binary64_cosEven_iff :
    binary64.CosEven ↔ ∀ t : Word, Fp.isFinite t = true →
      binary64.Same (Config.cos64 (Fp.neg t)) (Config.cos64 t) := by
  refine forall_congr' fun t => ?_
  show binary64.Same (Fp.cos (Fp.neg t)) (Fp.cos t) ↔ _
  cases ht : Fp.isFinite t with
  | true => simp [Fp.cos, ht]
  | false => simp [Fp.cos, ht, binary64_same_of_isNaN]

/-- Settles O59: each property of each numerics has its lemma above. -/
theorem namedPropertiesOfTheNumerics : Obligations.NamedPropertiesOfTheNumerics :=
  ⟨⟨realNum_sinOdd, realNum_cosEven, realNum_cosZero, realNum_cosTwoPiN3, realNum_mulOne, realNum_divSelf,
      realNum_addZero⟩,
    ⟨binary64_mulOne, binary64_divSelf, binary64_addZero⟩,
    binary64_finite_iff, binary64_same_iff, binary64_sinOdd_iff, binary64_cosEven_iff⟩

/-! ## The machine over the reals (R11, R13) -/

/-- A sequence with a word cell is no sequence of numbers. -/
theorem numbers_real_of_word_mem {w : Word} {cs : List RealCell} (h : .word w ∈ cs) :
    numbers realNum cs = none := by
  rw [Option.eq_none_iff_forall_ne_some]
  intro xs hxs
  have hmap : cs.map RealCell.ofBits = xs.map some := (numbers_eq_some_iff realNum cs xs).1 hxs
  have hnone : none ∈ xs.map some := hmap ▸ List.mem_map_of_mem (f := RealCell.ofBits) h
  simp at hnone

/-- The exact sinc of this threshold (R103, R11): the divisor is 0 only below it. -/
theorem sinc_real (x : ℝ) :
    sinc realNum (realNum.lit .eps) x =
      if |x| < 1 / 10 ^ 12 then 1 else Real.sin (Real.pi * x) / (Real.pi * x) := by
  rw [sinc, realNum_lit_eps, realNum_lit_one]
  by_cases h : |x| < 1 / 10 ^ 12
  · exact (if_pos (decide_eq_true h)).trans (if_pos h).symm
  · have hx : Real.pi * x ≠ 0 := by
      refine mul_ne_zero Real.pi_ne_zero fun h0 => h ?_
      rw [h0, abs_zero]
      positivity
    rw [if_neg h, ← realNum_div hx]
    exact if_neg fun hlt => h (of_decide_eq_true hlt)

section
variable {p : Params} {s : State.Of (realConfiguration p)} {w : Word} {f d : Idx} {v : Filter ℝ}

/-- A command that begins by reading `ARG0` as a number is refused where `ARG0` holds a word (R13). -/
theorem execOf_refused_of_arg0_word (h : s.arg0 = .word w) (n : SizeImm) (wt : WindowType) :
    ∀ i ∈ [Instr.sinc, .chkfreq, .chkord, .lpfCreate f n wt, .hpfCreate f n wt, .bpfCreate f n wt],
      execOf i s = .refused .notANumber := by
  have hk (k : ℝ → OutcomeOf (realConfiguration p)) : withNum s.arg0 k = .refused .notANumber :=
    withNum_none (by rw [h]; rfl) k
  simp only [List.forall_mem_cons]
  exact ⟨hk _, hk _, hk _, hk _, hk _, hk _, List.forall_mem_nil _⟩

/-- A command that reads a source with a word cell is refused (R13). -/
theorem execOf_refused_of_source_word {cs : List RealCell} (hf : s.filterAt f = some v)
    (hd : s.cells d = some cs) (hw : .word w ∈ cs) :
    ∀ i ∈ [Instr.setcoef f d, .conv b f d, .convip d f, .fsCreate f d], execOf i s = .refused .notANumber := by
  have hn : numbers (realConfiguration p).num cs = none := numbers_real_of_word_mem hw
  have hk (k : List ℝ → OutcomeOf (realConfiguration p)) : withSeq s d k = .refused .notANumber := by
    simp only [withSeq, hd, hn]
  have hfk (k : Filter ℝ → List ℝ → OutcomeOf (realConfiguration p)) :
      (withFilter s f fun u => withSeq s d (k u)) = .refused .notANumber :=
    (withFilter_some s hf _).trans (hk _)
  simp only [List.forall_mem_cons]
  exact ⟨hfk _, hfk _, hfk _, hk _, List.forall_mem_nil _⟩

/-- `SINC` of a number cell writes the exact value in a number cell (R104). -/
theorem execOf_sinc_real {x : ℝ} (h : s.arg0 = .num x) :
    execOf .sinc s = .next { s with err := .ok, res := .num (sinc realNum (realNum.lit .eps) x) } :=
  withNum_some (by rw [h]; rfl) _

/-- Number cells are read as their numbers (R58, R13). -/
theorem seq_of_cells_num {xs : List ℝ} (h : s.cells d = some (xs.map RealCell.num)) : s.seq d = some xs :=
  s.seq_eq_some.2 ⟨_, h, numbers_map_toBits (N := realNum) (fun _ => rfl) xs⟩

end

/-- `GETCOEF` writes each coefficient as a number crosses into a cell, and the named buffer alone (R107). -/
theorem execOf_getcoef {Cell α : Type} {C : Configuration Cell α} {s : State.Of C} {f b : Idx} {v : Filter α}
    (hf : s.filterAt f = some v) (hb : b.toNat < C.NB) :
    ∃ t, execOf (.getcoef b f) s = .next t ∧ t.err = .ok ∧ BufferHolds t b (v.coeff.map C.num.toBits) ∧
      OnlyBuffer b v.coeff.length s t :=
  ⟨(s.writeBuf b v.coeff).setErr .ok, withFilter_some s hf _, rfl, bufferHolds_writeBuf s v.coeff hb, rfl,
    buffersBut_writeBuf s b v.coeff rfl⟩

/-- Settles O60: what a command reads decides; a word cell is no number and a number cell is no word. -/
theorem realMachineCells : Obligations.RealMachineCells := by
  intro p s x w f b d n wt v cs xs rest
  refine ⟨fun h y hy => ?_, fun h => execOf_refused_of_arg0_word h n wt, seq_of_cells_num,
    execOf_refused_of_source_word, execOf_getcoef, fun hf => withFilter_some s hf _, ?_, ?_⟩
  · rw [execOf_sinc_real h, sinc_real, hy]
  · rw [stepOf, stepWith_cons _ rfl]
    rfl
  · rw [stepOf, stepWith_cons _ rfl]
    rfl

end Sys2Proof.Machine
end

section
/-! The invariant of reachable states (10_state.md R32, R35, R38, R40; 60_exceptions.md R204): no command breaks it, so no step does. -/

namespace Sys2Proof.Machine

variable {Cell α : Type} {C : Configuration Cell α} {s : State.Of C}

/-! ## Objects a command makes -/

/-- A size that passed `checkSize` and the capacity test is one an object may have (R35, R38). -/
theorem sizeOk_of_checks {p : Params} {n : Nat} (h : checkSize n = none) (hc : checkCapacity p.MAXN n = none) :
    SizeOk p n := by
  obtain ⟨hodd, hmin⟩ := checkSize_none.1 h
  exact ⟨hodd, hmin, checkCapacity_none.1 hc⟩

/-- A filter stays well-formed under a change of coefficients and window type that keeps the size. -/
theorem FilterOk.of_length {u v : Filter α} (h : FilterOk C v) (hl : u.coeff.length = v.coeff.length)
    (hp : u.params = v.params) : FilterOk C u := by
  unfold FilterOk
  rw [hl, hp]
  exact h

/-- `synth` of parameters in range gives the size they were checked for. -/
theorem synth_length_of_paramsOk {p : FilterParams α} {n : Nat} (hp : ParamsOk C.num n p)
    (wt : WindowType) : (synth C p wt n).length = n := by
  refine synth_length C wt fun xs hxs => ?_
  subst hxs
  obtain ⟨hlen, hsize⟩ := hp
  exact ⟨List.ne_nil_of_length_pos hlen, hsize⟩

/-- A filter synthesised from parameters in range is well-formed. -/
theorem filterOk_synth {p : FilterParams α} {n : Nat} (hn : SizeOk C.toParams n) (hp : ParamsOk C.num n p)
    (wt : WindowType) : FilterOk C { wtype := wt, coeff := synth C p wt n, params := p } := by
  unfold FilterOk
  rw [synth_length_of_paramsOk hp]
  exact ⟨hn, hp⟩

/-- A filter sampled from a spectrum of a valid size is well-formed (R162). -/
theorem filterOk_freqsamp {xs : List α} (hn : SizeOk C.toParams (2 * xs.length + 1)) (wt : WindowType) :
    FilterOk C { wtype := wt, coeff := freqsamp C.num xs, params := .freqSampling xs } := by
  have hlen : 1 ≤ xs.length := by have := hn.2.1; omega
  exact filterOk_synth (p := .freqSampling xs) hn ⟨hlen, rfl⟩ wt

/-- A window computed for a valid size is well-formed (R171). -/
theorem windowOk_window {n : Nat} (hn : SizeOk C.toParams n) (wt : WindowType) :
    WindowOk C { wtype := wt, coeff := window C.num wt n } := by
  unfold WindowOk
  rw [window_length]
  exact ⟨hn, rfl⟩

/-! ## Sequences a command writes -/

/-- A sequence of a size an object may have fits a buffer (R5). -/
theorem SizeOk.within_maxsig {p : Params} {n : Nat} (h : SizeOk p n) (hok : p.Ok) : within p.MAXSIG n = true := by
  obtain ⟨-, -, hcap⟩ := h
  exact Machine.within_maxsig hok hcap

/-- The spectrum of a filter, shorter than its coefficients, fits a buffer. -/
theorem FilterOk.spectrum_within {v : Filter α} {xs : List α} (h : FilterOk C v) (hok : C.toParams.Ok)
    (hv : v.params = .freqSampling xs) : within C.MAXSIG xs.length = true := by
  obtain ⟨hsize, hparams⟩ := h
  rw [hv] at hparams
  obtain ⟨-, hlen⟩ := hparams
  exact within_mono (by omega) (hsize.within_maxsig hok)

/-! ## Commands -/

/-- A stronger property of the completed state may be replaced by a weaker one. -/
theorem EndsBy.mono {d d' : State.Of C → Prop} {o : OutcomeOf C} (h : EndsBy s d o) (hd : ∀ t, d t → d' t) :
    EndsBy s d' o := by
  cases h with
  | done t ht => exact .done t (hd t ht)
  | error e he => exact .error e he
  | refused r hr => exact .refused r hr

/-- The inversion of `EndsBy` at a next state: an error alone, or the completion of a state with the property. -/
theorem EndsBy.next_cases {d : State.Of C → Prop} {t : State.Of C} (h : EndsBy s d (.next t)) :
    (∃ e, Raisable C e ∧ t = s.setErr e) ∨ ∃ u, d u ∧ t = u.setErr .ok := by
  generalize ho : Host.Outcome.next t = o at h
  cases h with
  | done u hu => exact .inr ⟨u, hu, (complete_next u t).1 ho.symm⟩
  | error e he => exact .inl ⟨e, he, (raise_next s e t).1 ho.symm⟩
  | refused r _ => cases ho

/-- A filter slot may take a well-formed filter. -/
theorem State.Of.Inv.setFilter_some (h : s.Inv) (f : Idx) {v : Filter α} (hv : FilterOk C v) :
    (s.setFilter f (some v)).Inv :=
  h.setFilter f fun _ hu => Option.some.inj hu ▸ hv

/-- A window slot may take a well-formed window. -/
theorem State.Of.Inv.setWindow_some (h : s.Inv) (w : Idx) {v : Window α} (hv : WindowOk C v) :
    (s.setWindow w (some v)).Inv :=
  h.setWindow w fun _ hu => Option.some.inj hu ▸ hv

/-- A command that writes neither object nor buffer keeps the invariant, whatever it reads. -/
theorem Effect.inv_of_statusOnly_or_res {i : Instr} {u : State.Of C} (hi : s.Inv)
    (hd : writesOf i = .statusOnly ∨ writesOf i = .res) (hu : Effect s (writesOf i) u) : u.Inv := by
  rcases hd with hd | hd <;> rw [hd] at hu
  · exact hu ▸ hi
  · obtain ⟨v, rfl⟩ := hu
    exact hi.setRes v

/-- Every command completes in a state that meets the invariant, from one that does. -/
theorem execOf_endsBy_inv (hok : C.toParams.Ok) (hi : s.Inv) (i : Instr) :
    EndsBy s State.Of.Inv (execOf i s) := by
  cases i with
  | setcoef f b =>
    exact endsBy_withFilter fun v hv => endsBy_withSeq fun xs _ => endsBy_require (by decide) fun hl =>
      .done _ (hi.setFilter_some f ((hi.filters f v hv).of_length (eq_of_beq hl) rfl))
  | norm f =>
    exact endsBy_withFilter fun v hv => endsBy_require (by decide) fun _ =>
      .done _ (hi.setFilter_some f ((hi.filters f v hv).of_length (List.length_map _) rfl))
  | setwtype f wt =>
    refine endsBy_withFilter fun v hv => .done _ ?_
    obtain ⟨hsize, hparams⟩ := hi.filters f v hv
    exact hi.setFilter_some f (filterOk_synth hsize hparams wt)
  | ffree f =>
    exact endsBy_withFilter fun _ _ => .done _ (hi.setFilter f fun _ hu => nomatch hu)
  | lpfCreate f n wt | hpfCreate f n wt =>
    refine endsBy_createOneCutoff fun fc hn hfc hcap =>
      hi.setFilter_some f (filterOk_synth (sizeOk_of_checks hn hcap) ?_ wt)
    exact (checkFrequencyRange_none _).1 hfc
  | bpfCreate f n wt =>
    refine endsBy_withArg (.inl rfl) fun fl _ => endsBy_withArg (.inr rfl) fun fh _ =>
      endsBy_checkSize fun hn => endsBy_checkFrequencyRange fun hl => endsBy_checkFrequencyRange fun hh =>
      endsBy_checkFrequencyOrder fun ho => endsBy_checkCapacity (.inl rfl) fun hcap => .done _ ?_
    have hp : ParamsOk C.num n.toNat (.bandpass fl fh) :=
      ⟨(checkFrequencyRange_none _).1 hl, (checkFrequencyRange_none _).1 hh, (checkFrequencyOrder_none _).1 ho⟩
    exact hi.setFilter_some f (filterOk_synth (sizeOk_of_checks hn hcap) hp wt)
  | fsCreate f b =>
    exact endsBy_withSeq fun xs _ => endsBy_checkSize fun hn => endsBy_checkCapacity (.inl rfl) fun hcap =>
      .done _ (hi.setFilter_some f (filterOk_freqsamp (sizeOk_of_checks hn hcap) _))
  | winCreate w n wt =>
    exact endsBy_checkSize fun hn => endsBy_checkCapacity (.inl rfl) fun hcap =>
      .done _ (hi.setWindow_some w (windowOk_window (sizeOk_of_checks hn hcap) wt))
  | winSetwtype w wt =>
    exact endsBy_withWindow fun v hv =>
      .done _ (hi.setWindow_some w (windowOk_window (hi.windows w v hv).1 wt))
  | winFree w =>
    exact endsBy_withWindow fun _ _ => .done _ (hi.setWindow w fun _ hu => nomatch hu)
  | getcoef b f =>
    exact endsBy_withFilter fun v hv => .done _ (hi.writeBuf b ((hi.filters f v hv).1.within_maxsig hok))
  | winGetcoef b w =>
    exact endsBy_withWindow fun v hv => .done _ (hi.writeBuf b ((hi.windows w v hv).1.within_maxsig hok))
  | fsGetspec b f =>
    refine endsBy_withFilter fun v hv => ?_
    cases hp : v.params with
    | freqSampling xs => exact .done _ (hi.writeBuf b ((hi.filters f v hv).spectrum_within hok hp))
    | lowpass _ | highpass _ | bandpass _ _ => exact .error _ (raisable (by decide))
  | conv b f c =>
    unfold execOf execConv
    exact endsBy_withConv fun v xs _ _ hcap => .done _ (hi.writeBuf b (conv_length C.num xs v.coeff ▸ hcap))
  | convip b f =>
    unfold execOf execConvip
    exact endsBy_withConv fun v xs _ _ hcap =>
      .done _ ((hi.writeBuf b (conv_length C.num xs v.coeff ▸ hcap)).setRes _)
  | winApply b w c =>
    unfold execOf execWinApply
    exact endsBy_withApply fun v xs hv _ hl =>
      .done _ (hi.writeBuf b (pointwise_length C.num hl ▸ (hi.windows w v hv).1.within_maxsig hok))
  | winApplyip b w =>
    unfold execOf execWinApplyip
    exact endsBy_withApply fun v xs hv _ hl =>
      .done _ ((hi.writeBuf b (pointwise_length C.num hl ▸ (hi.windows w v hv).1.within_maxsig hok)).setRes _)
  | chkfreq | chkord | chksize _ =>
    exact (execOf_endsBy _ s).mono fun _ => Effect.inv_of_statusOnly_or_res hi (.inl rfl)
  | sinc | getsize _ | gettype _ | getwtype _ | feq _ _ | fne _ _ | winGetsize _ | winGetwtype _
    | winEq _ _ | winNe _ _ =>
    exact (execOf_endsBy _ s).mono fun _ => Effect.inv_of_statusOnly_or_res hi (.inr rfl)

/-! ## Steps -/

/-- The state an answer goes on in, if it does, meets the invariant. -/
def NextInv (o : OutcomeOf C) : Prop := ∀ t, o = .next t → t.Inv

theorem nextInv_next (h : s.Inv) : NextInv (.next s) := fun _ ht => Host.Outcome.next.inj ht ▸ h

theorem nextInv_refused (r : Refusal) : NextInv (.refused r : OutcomeOf C) := fun _ ht => nomatch ht

theorem nextInv_raise (h : s.Inv) {e : Status} (he : e ≠ .invalidType) : NextInv (raise e s) :=
  nextInv_next (h.setErr he)

theorem EndsBy.nextInv {o : OutcomeOf C} (h : EndsBy s State.Of.Inv o) (hi : s.Inv) : NextInv o := by
  rintro t rfl
  rcases h.next_cases with ⟨e, ⟨-, he, -⟩, rfl⟩ | ⟨u, hu, rfl⟩
  · exact hi.setErr he
  · exact hu.setErr (by decide)

theorem nextInv_withWord {v : Cell} {k : Word → OutcomeOf C} (h : ∀ w, NextInv (k w)) :
    NextInv (withWord v k) := by
  rcases withWord_cases v k with ⟨-, he⟩ | ⟨w, -, he⟩ <;> rw [he]
  · exact nextInv_refused _
  · exact h w

theorem nextInv_onBus {addr width : Nat} {k : BusTarget → OutcomeOf C} (h : ∀ t, NextInv (k t)) :
    NextInv (onBus addr width k) := by
  rcases onBus_cases addr width k with he | he | ⟨t, he⟩ <;> rw [he]
  · exact nextInv_refused _
  · exact nextInv_refused _
  · exact h t

/-- The host's list of transactions is no part of the invariant. -/
theorem State.Of.Inv.setPending (h : s.Inv) (ts : List (Transaction Cell)) : State.Of.Inv { s with pending := ts } :=
  ⟨h.status, h.filters, h.windows, h.buffers⟩

/-- A `Reset` transaction leaves the objects, buffers and status of the reset state. -/
theorem State.Of.resetInput_inv (s : State.Of C) : s.resetInput.Inv :=
  have h := State.Of.reset_inv C
  ⟨h.status, h.filters, h.windows, h.buffers⟩

section
variable {run : Executor C} (hrun : ∀ i, NextInv (run i s)) (hi : s.Inv)
include hrun hi

theorem command_nextInv (w : Word) : NextInv (command run w s) := by
  rcases command_cases run w s with he | ⟨i, -, he⟩ <;> rw [he]
  · exact nextInv_raise hi (by decide)
  · exact hrun i

theorem writeRegister_nextInv (idx : Nat) (v : Cell) : NextInv (writeRegister run idx v s) := by
  unfold writeRegister
  split
  · exact nextInv_withWord fun w => command_nextInv hrun hi w
  split
  · exact nextInv_withWord fun w => nextInv_next (hi.setLen _ _)
  · exact nextInv_next (hi.setArg idx v)

/-- A transaction keeps the invariant where the commands do. -/
theorem perform_nextInv (t : Transaction Cell) : NextInv (perform run t s) := by
  cases t with
  | regRead idx => exact nextInv_next (hi.respond _)
  | regWrite idx v => exact writeRegister_nextInv hrun hi idx v
  | bufRead k i => exact nextInv_next (hi.respond _)
  | bufWrite k i v => exact nextInv_next (hi.bufWrite k i v)
  | reset => exact nextInv_next s.resetInput_inv
  | busRead addr width =>
    unfold perform
    exact nextInv_onBus fun _ => nextInv_withWord fun _ => nextInv_next (hi.respond _)
  | busWrite addr bytes =>
    refine nextInv_onBus fun target => ?_
    cases target with
    | register idx => exact writeRegister_nextInv hrun hi idx _
    | reserved => exact nextInv_next hi
    | element k i => exact nextInv_next (hi.bufWrite k i _)

end

/-- Every step keeps the invariant, in every configuration within R5's constraints. -/
theorem stepOf_nextInv (hok : C.toParams.Ok) (hi : s.Inv) : NextInv (stepOf s) := by
  unfold stepOf
  cases hp : s.pending with
  | nil => exact stepWith_nil s hp ▸ nextInv_next hi
  | cons t rest =>
    rw [stepWith_cons s hp]
    have hi' := hi.setPending rest
    exact perform_nextInv (fun i => (execOf_endsBy_inv hok hi' i).nextInv hi') hi' t

/-- This hardware meets R5's constraints. -/
theorem params_ok : Config.params.Ok where
  slots := by decide
  indices := by decide
  maxn := fun n hn => by cases hn; decide
  maxsig := fun m hm => by cases hm; exact ⟨by decide, Config.MAXN, rfl, by decide⟩

/-- Settles O49: this hardware's step is `stepOf`, and its parameters are within R5's constraints. -/
theorem stepKeepsTheInvariant : Obligations.StepKeepsTheInvariant :=
  ⟨fun s t hi ht => stepOf_nextInv params_ok hi t (step_eq_stepOf s ▸ ht), params_ok,
    fun _ _ _ hok _ t hi ht => stepOf_nextInv hok hi t ht⟩

/-- Settles O48: the reset state of every configuration meets the invariant, so this hardware's does. -/
theorem resetMeetsTheInvariant : Obligations.ResetMeetsTheInvariant :=
  ⟨State.Of.reset_inv hardware, fun _ _ C => State.Of.reset_inv C⟩

end Sys2Proof.Machine
end

section
/-! The statements of 10_state.md on the reset state, on how a command is reached and what it reads, and the frames of commands (R20 to R43). -/

namespace Sys2Proof.Machine

/-! ## What a command leaves unchanged -/

section
variable {Cell α : Type} {C : Configuration Cell α} {s t : State.Of C} {i : Instr}

theorem execOf_onlyStatus (h : execOf i s = .next t) (hd : writesOf i = .statusOnly) : OnlyStatus s t := by
  rcases execOf_next_cases h with ⟨e, -, rfl⟩ | ⟨u, hu, rfl⟩
  · rfl
  · rw [hd] at hu
    subst hu
    rfl

theorem execOf_onlyRes (h : execOf i s = .next t) (hd : writesOf i = .res) : OnlyRes s t := by
  rcases execOf_next_cases h with ⟨e, -, rfl⟩ | ⟨u, hu, rfl⟩
  · rfl
  · rw [hd] at hu
    obtain ⟨v, rfl⟩ := hu
    rfl

theorem execOf_onlyFilter {f : Idx} (h : execOf i s = .next t) (hd : writesOf i = .filter f) :
    OnlyFilter f s t := by
  rcases execOf_next_cases h with ⟨e, -, rfl⟩ | ⟨u, hu, rfl⟩
  · exact ⟨rfl, fun _ _ => rfl⟩
  · rw [hd] at hu
    obtain ⟨v, rfl⟩ := hu
    exact onlyFilter_setFilter s f v

theorem execOf_onlyWindow {w : Idx} (h : execOf i s = .next t) (hd : writesOf i = .window w) :
    OnlyWindow w s t := by
  rcases execOf_next_cases h with ⟨e, -, rfl⟩ | ⟨u, hu, rfl⟩
  · exact ⟨rfl, fun _ _ => rfl⟩
  · rw [hd] at hu
    obtain ⟨v, rfl⟩ := hu
    exact onlyWindow_setWindow s w v

/-- A filter slot that a command does not write keeps its object. -/
theorem execOf_filterAt_eq {f : Idx} (h : execOf i s = .next t) (hd : writesOf i ≠ .filter f) :
    t.filterAt f = s.filterAt f := by
  rcases execOf_next_cases h with ⟨e, -, rfl⟩ | ⟨u, hu, rfl⟩
  · rfl
  · rw [State.Of.filterAt_setErr]
    cases hw : writesOf i <;> rw [hw] at hu hd
    case statusOnly => rw [hu]
    case res => obtain ⟨v, rfl⟩ := hu; rfl
    case filter g =>
      obtain ⟨v, rfl⟩ := hu
      have hfg : f ≠ g := fun hfg => hd (congrArg Dest.filter hfg.symm)
      rw [State.Of.filterAt_setFilter, if_neg fun hc => hfg hc.1]
    case window w => obtain ⟨v, rfl⟩ := hu; rfl
    case buffer b => obtain ⟨xs, rfl⟩ := hu; rfl
    case bufferAndRes b => obtain ⟨xs, v, rfl⟩ := hu; rfl

end

/-- Settles O43: the **Writes** entries of these commands are `STATUS.ERR`, or `STATUS.ERR` and `RES`. -/
theorem statusAndResultFrames : Obligations.StatusAndResultFrames := by
  intro i s t h
  rw [exec_eq_execOf] at h
  refine ⟨fun hi => execOf_onlyStatus h ?_, fun hi => execOf_onlyRes h ?_⟩
  · rcases hi with hi | ⟨n, rfl⟩
    · have hw : ∀ j ∈ [Instr.chkfreq, .chkord], writesOf j = .statusOnly := by decide
      exact hw i hi
    · rfl
  · rcases hi with rfl | ⟨x, y, hi⟩
    · rfl
    · have hw : ∀ j ∈ [Instr.getsize x, .gettype x, .getwtype x, .feq x y, .fne x y, .winGetsize x, .winGetwtype x,
          .winEq x y, .winNe x y], writesOf j = .res := by simp [writesOf]
      exact hw i hi

/-- Settles O44: the **Writes** entries of these commands are `STATUS.ERR` and the slot they name. -/
theorem slotCommandFrames : Obligations.SlotCommandFrames := by
  intro s t x b n wt i h
  rw [exec_eq_execOf] at h
  refine ⟨fun hi => execOf_onlyFilter h ?_, fun hi => execOf_onlyWindow h ?_⟩
  · have hw : ∀ j ∈ [Instr.setcoef x b, .norm x, .setwtype x wt, .ffree x, .lpfCreate x n wt, .hpfCreate x n wt,
        .bpfCreate x n wt, .fsCreate x b], writesOf j = .filter x := by simp [writesOf]
    exact hw i hi
  · have hw : ∀ j ∈ [Instr.winCreate x n wt, .winSetwtype x wt, .winFree x], writesOf j = .window x := by
      simp [writesOf]
    exact hw i hi

/-! ## A filter's parameters (R34, R36) -/

section
variable {Cell α : Type} {C : Configuration Cell α} {s t : State.Of C}

/-- Slot `f` holds a filter of these parameters. -/
def HoldsParams (f : Idx) (p : FilterParams α) (s : State.Of C) : Prop :=
  ∃ v, s.filterAt f = some v ∧ v.params = p

/-- The three commands that rewrite the filter of an occupied slot keep its parameters. -/
theorem execOf_endsBy_holdsParams {i : Instr} {f : Idx} {v : Filter α} (hv : s.filterAt f = some v)
    (hi : (∃ b, i = .setcoef f b) ∨ i = .norm f ∨ ∃ wt, i = .setwtype f wt) :
    EndsBy s (HoldsParams f v.params) (execOf i s) := by
  have hset (u : Filter α) (hu : u.params = v.params) : HoldsParams f v.params (s.setFilter f (some u)) :=
    ⟨u, filterAt_setFilter_same s _ (s.filterAt_lt hv), hu⟩
  have hread {k : Filter α → OutcomeOf C} (hk : EndsBy s (HoldsParams f v.params) (k v)) :
      EndsBy s (HoldsParams f v.params) (withFilter s f k) := by rwa [withFilter_some s hv]
  rcases hi with ⟨b, rfl⟩ | rfl | ⟨wt, rfl⟩
  · exact hread (endsBy_withSeq fun xs _ => endsBy_require (by decide) fun _ => .done _ (hset _ rfl))
  · exact hread (endsBy_require (by decide) fun _ => .done _ (hset _ rfl))
  · exact hread (.done _ (hset _ rfl))

/-- The commands that write a filter slot: those that rewrite its filter, the free, and the creates. -/
theorem writesOf_eq_filter {i : Instr} {f : Idx} (h : writesOf i = .filter f) :
    ((∃ b, i = .setcoef f b) ∨ i = .norm f ∨ ∃ wt, i = .setwtype f wt) ∨ i = .ffree f ∨
      (∃ n wt, i = .lpfCreate f n wt ∨ i = .hpfCreate f n wt ∨ i = .bpfCreate f n wt) ∨ ∃ b, i = .fsCreate f b := by
  cases i <;> cases h <;> simp

end

/-- Settles O46: a command that writes the slot and is neither a free nor a create keeps the parameters, and one that does not write it keeps the whole filter. -/
theorem filterParametersAreImmutable : Obligations.FilterParametersAreImmutable := by
  intro s t i f v h hv hfree hcreate hfs
  rw [exec_eq_execOf] at h
  by_cases hd : writesOf i = .filter f
  · rcases writesOf_eq_filter hd with hi | hi | ⟨n, wt, hi⟩ | ⟨b, hi⟩
    · have he := execOf_endsBy_holdsParams hv hi
      rw [h] at he
      rcases he.next_cases with ⟨e, -, rfl⟩ | ⟨u, hu, rfl⟩
      · exact ⟨v, hv, rfl⟩
      · exact hu
    · exact absurd hi hfree
    · obtain ⟨hl, hh, hb⟩ := hcreate n wt
      rcases hi with hi | hi | hi
      · exact absurd hi hl
      · exact absurd hi hh
      · exact absurd hi hb
    · exact absurd hi (hfs b)
  · exact ⟨v, (execOf_filterAt_eq h hd).trans hv, rfl⟩

/-! ## The state after reset (R43) -/

section
variable {Cell α : Type} (C : Configuration Cell α)

@[simp] theorem State.Of.filterAt_reset (f : Idx) : (State.Of.reset C).filterAt f = none := by
  simp only [State.Of.filterAt, State.Of.reset, Vector.getElem?_replicate]
  split <;> rfl

@[simp] theorem State.Of.windowAt_reset (w : Idx) : (State.Of.reset C).windowAt w = none := by
  simp only [State.Of.windowAt, State.Of.reset, Vector.getElem?_replicate]
  split <;> rfl

@[simp] theorem State.Of.bufferAt_reset (k : Nat) : (State.Of.reset C).bufferAt k = Buffer.reset := by
  simp only [State.Of.bufferAt, State.Of.reset, Vector.getElem?_replicate]
  split <;> rfl

/-- The indices that name no register read 0 (R23, R33). -/
theorem State.Of.regRead_reserved (s : State.Of C) {idx : Nat}
    (h : idx = 0 ∨ 8 ≤ idx ∧ idx < 16 ∨ 16 + C.NB ≤ idx) : s.regRead idx = C.num.ofWord 0#64 := by
  unfold State.Of.regRead
  rw [if_neg (by omega), if_neg (by omega), if_neg (by omega), if_neg (by omega), if_neg (by omega),
    if_neg (by omega), if_neg (by omega), if_neg (by omega)]

/-- An existing element that nothing has written reads as its free value (R41; log 3). -/
theorem State.Of.bufRead_unwritten (s : State.Of C) {k i : Nat} (he : Params.hasElement C.toParams k i = true)
    (hm : Memory.load (s.bufferAt k).mem i = none) : s.bufRead k i = C.unwritten s.epoch k i := by
  rw [State.Of.bufRead, if_pos he, hm]
  rfl

end

/-- Settles O1: slots and buffers after reset are those of `State.Of.reset`, and the constants are R29 to R31. -/
theorem resetLeavesTheSpecifiedState : Obligations.ResetLeavesTheSpecifiedState := by
  have hload (k i : Nat) : Memory.load (State.reset.bufferAt k).mem i = none := by
    rw [State.reset, State.Of.bufferAt_reset]
    rfl
  refine ⟨rfl, rfl, by decide +kernel, by decide +kernel, State.Of.filterAt_reset hardware,
    State.Of.windowAt_reset hardware, fun k _ => ?_, fun k i hk hi => ⟨hload k i, ?_⟩,
    State.Of.regRead_reserved hardware _ (.inl rfl), fun idx h => State.Of.regRead_reserved hardware _ (.inr h),
    rfl, rfl, rfl⟩
  · rw [State.reset, State.Of.bufferAt_reset]
    rfl
  · exact State.Of.bufRead_unwritten hardware _ ((hasElement_hardware k i).2 ⟨hk, hi⟩) (hload k i)

/-! ## The command a step runs (R24, R73) -/

/-- A write to `CMD` of a word that decodes runs its command. -/
theorem perform_cmd_of_decode {w : Word} {i : Instr} (h : decode w = .ok i) (s : State) :
    perform exec (.regWrite 0 w) s = exec i s := by
  show command exec w s = exec i s
  unfold command
  rw [show decodeIn hardware.toParams w = .ok i from h]

/-- A word is the table word of its 64 bits. -/
theorem tableWord_toNat (w : Word) : tableWord 64 w.toNat = w := by
  rw [tableWord, Nat.mod_eq_of_lt w.isLt, BitVec.ofNat_toNat, BitVec.setWidth_eq]

/-- Settles O3: the step performs the write to `CMD` at the head of the host's list. -/
theorem stepExecutesTheCommandWritten : Obligations.StepExecutesTheCommandWritten := by
  intro s w i rest h
  constructor
  · intro hp
    rw [step, stepWith_cons s hp, perform_cmd_of_decode h]
  · rw [step, stepWith_cons _ (s.withFetchWord_pending 64 w.toNat), tableWord_toNat, perform_cmd_of_decode h]
    rfl

/-! ## What a command reads -/

/-- Settles O38: each of these commands reads its source as soon as it has found its object. -/
theorem unwrittenSourceIsRefused : Obligations.UnwrittenSourceIsRefused := by
  intro s b x c hc
  have hseq (k : List Word → Outcome) : withSeq s c k = .refused .unwrittenElement := withSeq_none s hc k
  refine ⟨fun hf => ?_, hseq _, fun hw => ?_⟩
  · obtain ⟨v, hv⟩ := Option.ne_none_iff_exists'.1 hf
    have hread (k : Machine.Filter Word → List Word → Outcome) :
        (withFilter s x fun u => withSeq s c (k u)) = .refused .unwrittenElement :=
      (withFilter_some s hv _).trans (hseq _)
    simp only [List.forall_mem_cons]
    exact ⟨hread _, hread _, hread _, List.forall_mem_nil _⟩
  · obtain ⟨v, hv⟩ := Option.ne_none_iff_exists'.1 hw
    have hread (k : Window Word → List Word → Outcome) :
        (withWindow s x fun u => withSeq s c (k u)) = .refused .unwrittenElement :=
      (withWindow_some s hv _).trans (hseq _)
    simp only [List.forall_mem_cons]
    exact ⟨hread _, hread _, List.forall_mem_nil _⟩

/-- Settles O41: every arm of `exec` reads other fields, and each of its endings writes the status. -/
theorem statusIsNotRead : Obligations.StatusIsNotRead := by
  intro i s e
  cases i <;> rfl

end Sys2Proof.Machine
end

section
/-! The laws of the host port the statements of 20_memory.md need: what each transaction reads, stores and leaves unchanged (R51 to R56), the bytes of a word (R60), and what a byte-mapped access reaches (R57, R61). -/

namespace Sys2Proof.Machine

variable {Cell α : Type} {C : Configuration Cell α}

/-! ## Registers (R51, R52) -/

/-- Register `16 + k` reads as the length of an existing buffer (R51). -/
theorem State.Of.regRead_len (s : State.Of C) {k : Nat} (hk : k < C.NB) :
    s.regRead (16 + k) = C.num.ofWord (zext64 (s.bufferAt k).len) := by
  unfold State.Of.regRead
  rw [if_neg (by omega), if_neg (by omega), if_neg (by omega), if_neg (by omega), if_neg (by omega),
    if_neg (by omega), if_neg (by omega), if_pos (by omega), Nat.add_sub_cancel_left]

/-- A write to `BLEN[k]` of an existing buffer sets its length (R52). -/
theorem writeRegister_len (run : Executor C) {k : Nat} (hk : k < C.NB) (v : Cell) (s : State.Of C) :
    writeRegister run (16 + k) v s = withWord v fun w => .next (s.setLen k w.toNat) := by
  unfold writeRegister
  rw [if_neg (by omega), if_pos (by omega), Nat.add_sub_cancel_left]

/-- A write to an index that is neither `CMD` nor a buffer's length stores an argument or nothing (R52). -/
theorem writeRegister_arg (run : Executor C) {idx : Nat} (h0 : idx ≠ 0) (hlen : ∀ k < C.NB, idx ≠ 16 + k)
    (v : Cell) (s : State.Of C) : writeRegister run idx v s = .next (s.setArg idx v) := by
  have hno : ¬(16 ≤ idx ∧ idx < 16 + C.NB) := fun h => hlen (idx - 16) (by omega) (by omega)
  unfold writeRegister
  rw [if_neg h0, if_neg hno]

/-- A write of an argument changes `ARG0` or `ARG1` alone. -/
theorem State.Of.setArg_eq (s : State.Of C) (idx : Nat) (v : Cell) :
    s.setArg idx v =
      { s with arg0 := if idx = 3 then v else s.arg0, arg1 := if idx = 4 then v else s.arg1 } := by
  unfold State.Of.setArg
  by_cases h3 : idx = 3
  · subst h3; rfl
  · by_cases h4 : idx = 4
    · subst h4; rfl
    · simp only [if_neg h3, if_neg h4]

/-! ## Lengths and elements of buffers (R32, R52, R54 to R56) -/

/-- What a new record of a buffer keeps of the old one, all buffers keep. -/
theorem State.Of.field_bufferAt_setBuffer (s : State.Of C) {β : Type} (field : Buffer Cell → β) {k : Nat}
    {b : Buffer Cell} (h : field b = field (s.bufferAt k)) (j : Nat) :
    field ((s.setBuffer k b).bufferAt j) = field (s.bufferAt j) := by
  rw [State.Of.bufferAt_setBuffer]
  split
  · next hj => rw [h, hj.1]
  · rfl

/-- A write of a length changes no field but the buffers. -/
theorem State.Of.setLen_eq (s : State.Of C) (k n : Nat) :
    s.setLen k n = { s with buffers := (s.setLen k n).buffers } := by
  unfold State.Of.setLen
  split <;> rfl

@[simp] theorem State.Of.setLen_arg0 (s : State.Of C) (k n : Nat) : (s.setLen k n).arg0 = s.arg0 := by
  rw [State.Of.setLen_eq]

@[simp] theorem State.Of.setLen_arg1 (s : State.Of C) (k n : Nat) : (s.setLen k n).arg1 = s.arg1 := by
  rw [State.Of.setLen_eq]

/-- A write of a length changes no element. -/
@[simp] theorem State.Of.mem_bufferAt_setLen (s : State.Of C) (k n j : Nat) :
    ((s.setLen k n).bufferAt j).mem = (s.bufferAt j).mem := by
  unfold State.Of.setLen
  split
  · refine s.field_bufferAt_setBuffer Buffer.mem ?_ j
    rfl
  · rfl

/-- A length within `MAXSIG` is stored in the buffer named, and no other length changes (R32). -/
theorem State.Of.len_bufferAt_setLen (s : State.Of C) (k n j : Nat) :
    ((s.setLen k n).bufferAt j).len =
      if j = k ∧ k < C.NB ∧ within C.MAXSIG n = true then n else (s.bufferAt j).len := by
  unfold State.Of.setLen
  by_cases hn : within C.MAXSIG n = true
  · rw [if_pos hn, State.Of.bufferAt_setBuffer]
    simp only [hn, and_true]
    split <;> rfl
  · rw [if_neg hn, if_neg fun h => hn h.2.2]

/-- A write of an element changes no field but the buffers. -/
theorem State.Of.bufWrite_eq (s : State.Of C) (k i : Nat) (v : Cell) :
    s.bufWrite k i v = { s with buffers := (s.bufWrite k i v).buffers } := by
  unfold State.Of.bufWrite
  split <;> rfl

/-- A write of an element changes no length (R55). -/
@[simp] theorem State.Of.len_bufferAt_bufWrite (s : State.Of C) (k i : Nat) (v : Cell) (j : Nat) :
    ((s.bufWrite k i v).bufferAt j).len = (s.bufferAt j).len := by
  unfold State.Of.bufWrite
  split
  · refine s.field_bufferAt_setBuffer Buffer.len ?_ j
    rfl
  · rfl

/-- An element that exists is stored and marked written, and no other element changes (R55, R56). -/
theorem State.Of.load_bufWrite (s : State.Of C) (k i : Nat) (v : Cell) (j n : Nat) :
    Memory.load ((s.bufWrite k i v).bufferAt j).mem n =
      if j = k ∧ n = i ∧ Params.hasElement C.toParams k i = true then some v
      else Memory.load (s.bufferAt j).mem n := by
  unfold State.Of.bufWrite
  by_cases he : Params.hasElement C.toParams k i = true
  · have hk : k < C.NB := ((hasElement_iff _ k i).1 he).1
    rw [if_pos he, State.Of.bufferAt_setBuffer]
    by_cases hj : j = k
    · subst hj
      simp [hk, he]
    · rw [if_neg fun h => hj h.1, if_neg fun h => hj h.1]
  · rw [if_neg he, if_neg fun h => he h.2.2]

/-- A written element reads as its cell (R54). -/
theorem State.Of.bufRead_written (s : State.Of C) {k i : Nat} {x : Cell}
    (he : Params.hasElement C.toParams k i = true) (hm : Memory.load (s.bufferAt k).mem i = some x) :
    s.bufRead k i = x := by
  rw [State.Of.bufRead, if_pos he, hm]
  rfl

/-- A place that does not exist reads 0 (R56). -/
theorem State.Of.bufRead_absent (s : State.Of C) {k i : Nat} (he : ¬Params.hasElement C.toParams k i = true) :
    s.bufRead k i = C.num.ofWord 0#64 := if_neg he

/-! ## Commands that write a buffer (R59) -/

/-- A sequence write touches the elements below the length it leaves; to a buffer that does not exist it does nothing. -/
theorem buffersBut_writeBuf_bufLen (s : State.Of C) (b : Idx) (xs : List α) :
    BuffersBut b ((s.writeBuf b xs).bufLen b) s (s.writeBuf b xs) := by
  by_cases hb : b.toNat < C.NB
  · refine buffersBut_writeBuf s b xs ?_
    rw [State.Of.bufLen, State.Of.bufferAt_writeBuf, if_pos ⟨rfl, hb⟩]
  · have hsame (k : Nat) : (s.writeBuf b xs).bufferAt k = s.bufferAt k := by
      rw [State.Of.bufferAt_writeBuf, if_neg fun h => hb h.2]
    exact ⟨fun k _ => by rw [hsame], fun k i _ => by rw [hsame]⟩

/-- A command that writes one buffer touches its elements below its new length. -/
theorem execOf_onlyBuffer {s t : State.Of C} {i : Instr} {b : Idx} (h : execOf i s = .next t)
    (hd : writesOf i = .buffer b) : OnlyBuffer b (t.bufLen b) s t := by
  rcases execOf_next_cases h with ⟨e, -, rfl⟩ | ⟨u, hu, rfl⟩
  · exact ⟨rfl, fun _ _ => rfl, fun _ _ _ => rfl⟩
  · rw [hd] at hu
    obtain ⟨xs, rfl⟩ := hu
    exact ⟨rfl, buffersBut_writeBuf_bufLen s b xs⟩

/-- A command that works in place touches `RES` and the elements of its buffer below its new length. -/
theorem execOf_onlyBufferRes {s t : State.Of C} {i : Instr} {b : Idx} (h : execOf i s = .next t)
    (hd : writesOf i = .bufferAndRes b) : OnlyBufferRes b (t.bufLen b) s t := by
  rcases execOf_next_cases h with ⟨e, -, rfl⟩ | ⟨u, hu, rfl⟩
  · exact ⟨rfl, fun _ _ => rfl, fun _ _ _ => rfl⟩
  · rw [hd] at hu
    obtain ⟨xs, v, rfl⟩ := hu
    exact ⟨rfl, buffersBut_writeBuf_bufLen s b xs⟩

/-! ## The bytes of a word (R60) -/

/-- Byte `j` of a word is its bits `[8j + 7 : 8j]`. -/
theorem wordBytes_getElem? (w : Word) {j : Nat} (hj : j < 8) :
    (wordBytes w)[j]? = some (BitVec.extractLsb' (8 * j) 8 w) := by
  rw [wordBytes, List.getElem?_map, List.getElem?_range hj, BitVec.extractLsb', Nat.shiftRight_eq_div_pow]
  rfl

/-- The `m` low bytes of a number have the value of the number modulo `2^(8m)`. -/
theorem bytesNat_lowBytes (m n : Nat) :
    bytesNat ((List.range m).map fun j => BitVec.ofNat 8 (n / 2 ^ (8 * j))) = n % 2 ^ (8 * m) := by
  induction m generalizing n with
  | zero => exact (Nat.mod_one n).symm
  | succ m ih =>
    have hshift (j : Nat) : n / 2 ^ (8 * (j + 1)) = n / 2 ^ 8 / 2 ^ (8 * j) := by
      rw [Nat.div_div_eq_div_mul, ← Nat.pow_add, Nat.mul_succ, Nat.add_comm]
    have hsplit : n % 2 ^ (8 * (m + 1)) = n % 2 ^ 8 + 2 ^ 8 * (n / 2 ^ 8 % 2 ^ (8 * m)) := by
      rw [Nat.mul_succ, Nat.add_comm, Nat.pow_add, Nat.mod_mul]
    rw [hsplit, ← ih, List.range_succ_eq_map, List.map_cons, List.map_map, bytesNat, Function.comp_def]
    simp [hshift]

/-- The bytes of a word give the word back (R60). -/
@[simp] theorem bytesWord_wordBytes (w : Word) : bytesWord (wordBytes w) = w := by
  rw [bytesWord, wordBytes, bytesNat_lowBytes, Nat.mod_eq_of_lt w.isLt, BitVec.ofNat_toNat, BitVec.setWidth_eq]

/-! ## The byte map (R57, R61) -/

section
variable {stride : Nat} (hs : C.stride = some stride)
include hs

/-- An access outside the region is the platform's (R61; log 8). -/
theorem onBus_outside {addr width : Nat} (h : addr < C.base stride ∨ C.base stride + regionBytes stride ≤ addr)
    (k : BusTarget → OutcomeOf C) : onBus addr width k = .refused .outsideRegion := by
  unfold onBus
  rw [hs]
  exact if_pos h

/-- An access inside the region that is not a naturally aligned 8-byte one has no meaning (R57, U2). -/
theorem onBus_unaligned {addr width : Nat} (h : C.base stride ≤ addr) (h' : addr < C.base stride + regionBytes stride)
    (hw : width ≠ 8 ∨ addr % 8 ≠ 0) (k : BusTarget → OutcomeOf C) :
    onBus addr width k = .refused .unalignedAccess := by
  unfold onBus
  rw [hs]
  exact (if_neg (by omega)).trans (if_pos hw)

variable {off : Nat} (hoff : off < regionBytes stride) (h8 : off % 8 = 0)
include hoff h8

/-- An aligned byte-mapped write of a word reaches what its offset names. -/
theorem perform_busWrite (run : Executor C) (w : Word) (s : State.Of C) :
    perform run (.busWrite (C.base stride + off) (wordBytes w)) s =
      busWrite run s (C.num.ofWord w) (busTarget stride off) := by
  rw [perform, wordBytes_length, bytesWord_wordBytes, onBus_inside hs off hoff h8]

/-- An aligned byte-mapped read returns the bytes of what its offset names. -/
theorem perform_busRead (run : Executor C) (s : State.Of C) :
    perform run (.busRead (C.base stride + off) 8) s =
      withWord (busCell s (busTarget stride off)) fun w => .next (s.respond (.bytes (wordBytes w))) := by
  rw [perform, onBus_inside hs off hoff h8]

end

/-! ## Steps of this hardware -/

/-- A step performs the host's next transaction. -/
theorem step_cons {s : State} {t : Transaction Word} {rest : List (Transaction Word)} (h : s.pending = t :: rest) :
    step s = perform exec t { s with pending := rest } := stepWith_cons s h

/-- `STRIDE` of this hardware. -/
theorem hardware_stride : hardware.stride = some 4096 := by decide

/-- `BASE` of this hardware. -/
theorem hardware_base : hardware.base 4096 = Config.BASE := rfl

/-- An aligned byte-mapped access does to the addressed target what `busWrite` and `busCell` say (R61). -/
theorem step_bus_of_target {off : Nat} (hoff : off < 0x100000) (h8 : off % 8 = 0) {t : BusTarget}
    (ht : busTarget 4096 off = t) (s : State) (v : Word) (rest : List (Transaction Word)) :
    step { s with pending := .busWrite (Config.BASE + off) (wordBytes v) :: rest } =
        busWrite exec { s with pending := rest } v t ∧
      step { s with pending := .busRead (Config.BASE + off) 8 :: rest } =
        .next { s with pending := rest, responses := s.responses ++ [.bytes (wordBytes (busCell s t))] } := by
  subst ht
  rw [← regionBytes_eq] at hoff
  exact ⟨(step_cons rfl).trans (perform_busWrite (C := hardware) hardware_stride hoff h8 exec v _),
    (step_cons rfl).trans (perform_busRead (C := hardware) hardware_stride hoff h8 exec _)⟩

end Sys2Proof.Machine
end

section
/-! The statements of 20_memory.md: the host's transactions (R50 to R56), the byte map (R57, R60, R61), and the frame of the commands that write a buffer (R59). -/

namespace Sys2Proof.Machine

/-- Settles O4: `RegRead` answers `regRead`, which has a branch per register. -/
theorem registerReadReturnsRegister : Obligations.RegisterReadReturnsRegister := by
  intro s idx rest hp
  refine ⟨s.regRead idx, step_cons hp, ?_, ?_, ?_, ?_, ?_, ?_, ?_, ?_, fun h h' => ?_, fun k hk h => ?_, fun h => ?_⟩
  iterate 8
    rintro rfl
    rfl
  · exact State.Of.regRead_reserved hardware s (.inr (.inl ⟨h, h'⟩))
  · subst h
    exact s.regRead_len hk
  · exact State.Of.regRead_reserved hardware s (.inr (.inr h))

/-- What a write to another register than `CMD` leaves (R52): an argument or a length is stored, or nothing. -/
theorem writeRegister_stores (s : State) {idx : Nat} (h0 : idx ≠ 0) (v : Word) :
    ∃ t, writeRegister exec idx v s = .next t ∧
      t = { s with arg0 := t.arg0, arg1 := t.arg1, buffers := t.buffers } ∧
      (t.arg0 = if idx = 3 then v else s.arg0) ∧ (t.arg1 = if idx = 4 then v else s.arg1) ∧
      ∀ j, (t.bufferAt j).mem = (s.bufferAt j).mem ∧
        (t.bufferAt j).len =
          if idx = 16 + j ∧ j < Config.NB ∧ v.toNat ≤ Config.MAXSIG then v.toNat else (s.bufferAt j).len := by
  by_cases hlen : ∃ k < Config.NB, idx = 16 + k
  · obtain ⟨k, hk, rfl⟩ := hlen
    refine ⟨s.setLen k v.toNat, writeRegister_len exec hk v s, ?_, ?_, ?_, fun j => ⟨?_, ?_⟩⟩
    · rw [State.Of.setLen_arg0, State.Of.setLen_arg1]
      exact s.setLen_eq k v.toNat
    · rw [State.Of.setLen_arg0, if_neg (by omega)]
    · rw [State.Of.setLen_arg1, if_neg (by omega)]
    · exact s.mem_bufferAt_setLen k v.toNat j
    · rw [State.Of.len_bufferAt_setLen]
      refine if_congr ?_ rfl rfl
      rw [within_some]
      constructor
      · rintro ⟨rfl, hj, hn⟩
        exact ⟨rfl, hj, hn⟩
      · rintro ⟨hjk, hj, hn⟩
        exact ⟨by omega, hk, hn⟩
  · push Not at hlen
    refine ⟨s.setArg idx v, writeRegister_arg exec h0 hlen v s, ?_⟩
    rw [State.Of.setArg_eq]
    exact ⟨rfl, rfl, rfl, fun j => ⟨rfl, (if_neg fun ⟨hj, hlt, _⟩ => hlen j hlt hj).symm⟩⟩

/-- Settles O5: an index is `CMD`, the length of an existing buffer, or one that stores an argument or nothing. -/
theorem registerWriteStoresRegister : Obligations.RegisterWriteStoresRegister := by
  intro s idx v rest hp
  rw [step_cons hp]
  refine ⟨?_, ?_, fun h0 => ?_⟩
  · rintro rfl i hi
    exact perform_cmd_of_decode hi _
  · rintro rfl hi
    rcases command_cases exec v { s with pending := rest } with h | ⟨i, h, -⟩
    · exact h
    · exact absurd h (hi i)
  · exact writeRegister_stores _ h0 v

/-- Settles O6: reads and writes of a written, an unwritten and an absent element have their laws above. -/
theorem bufferTransactions : Obligations.BufferTransactions := by
  intro s k i rest
  refine ⟨fun hp => ⟨s.bufRead k i, step_cons hp, fun hk hi x hx => ?_, fun hk hi hm => ?_, fun h => ?_⟩,
    fun v hp => ⟨State.Of.bufWrite { s with pending := rest } k i v, step_cons hp, State.Of.bufWrite_eq _ k i v,
      State.Of.len_bufferAt_bufWrite _ k i v, fun j n => ?_⟩⟩
  · exact s.bufRead_written ((hasElement_hardware k i).2 ⟨hk, hi⟩) hx
  · exact State.Of.bufRead_unwritten hardware s ((hasElement_hardware k i).2 ⟨hk, hi⟩) hm
  · refine s.bufRead_absent fun he => ?_
    have := (hasElement_hardware k i).1 he
    omega
  · rw [State.Of.load_bufWrite]
    exact if_congr (and_congr_right' (and_congr_right' (hasElement_hardware k i))) rfl rfl

/-- Settles O7: the offsets of the registers, of the elements and between them have these targets. -/
theorem byteMapCarriesTransactions : Obligations.ByteMapCarriesTransactions := by
  refine ⟨fun v j => wordBytes_getElem? v, bytesWord_wordBytes, fun s idx v rest hidx => ?_,
    fun s k i v rest hk hi => ?_, fun s off v rest h8 hlo hhi => ?_⟩
  · exact step_bus_of_target (by omega) (by omega) (busTarget_register 4096 idx hidx) s v rest
  · have haddr : Config.BASE + 0x80000 + k * 0x8000 + 8 * i = Config.BASE + (bufOff 4096 + 8 * (k * 4096 + i)) := by
      unfold bufOff
      omega
    rw [haddr]
    refine step_bus_of_target ?_ ?_ (busTarget_element k i (by decide) hi) s v rest <;> unfold bufOff <;> omega
  · exact step_bus_of_target (by omega) h8 (busTarget_reserved 4096 off hlo hhi) s v rest

/-- Settles O8: a byte-mapped access is held against the region first, then against the width and the alignment. -/
theorem byteMapRefusesOtherAccesses : Obligations.ByteMapRefusesOtherAccesses := by
  intro s addr width bytes rest
  rw [← hardware_base, ← regionBytes_eq]
  refine ⟨fun h h' hw => ?_, fun h h' hw => ?_, fun h => ⟨?_, ?_⟩⟩ <;> rw [step_cons rfl, perform]
  · exact onBus_unaligned (C := hardware) hardware_stride h h' hw _
  · exact onBus_unaligned (C := hardware) hardware_stride h h' hw _
  · exact onBus_outside (C := hardware) hardware_stride h _
  · exact onBus_outside (C := hardware) hardware_stride h _

/-- Settles O45: the **Writes** entries of these commands are `STATUS.ERR` and the buffer they name, and `RES` of those that work in place. -/
theorem bufferCommandFrames : Obligations.BufferCommandFrames := by
  intro s t b x c
  refine ⟨fun i hi h => execOf_onlyBuffer (exec_eq_execOf i s ▸ h) ?_,
    fun i hi h => execOf_onlyBufferRes (exec_eq_execOf i s ▸ h) ?_⟩
  · have hw : ∀ j ∈ [Instr.getcoef b x, .conv b x c, .fsGetspec b x, .winApply b x c, .winGetcoef b x],
        writesOf j = .buffer b := by simp [writesOf]
    exact hw i hi
  · have hw : ∀ j ∈ [Instr.convip b x, .winApplyip b x], writesOf j = .bufferAndRes b := by simp [writesOf]
    exact hw i hi

end Sys2Proof.Machine
end

section
/-! The laws of command words the statements of 30_encoding.md need: which fields a selected command leaves unused (R71, R73, R75), and what the `mask` column of R74 says bit by bit. -/

namespace Sys2Proof

/-! ## A command's fields and the word's (R73, R75) -/

/-- Of the command its `OP` selects, a word holds the fields exactly when the fields the format leaves unused are 0. -/
theorem fields_eq_iff_unusedZero {w : Word} {i : Instr}
    (h : selectOp (opField w) (aField w) (bField w) (cField w) (wtField w) (nField w) = some i) :
    (aField w, bField w, cField w, wtField w, nField w) = i.fields ↔ i.format.unusedZero w = true := by
  unfold selectOp at h
  split at h <;> cases h <;> simp [Instr.fields, Instr.format, Format.unusedZero, and_assoc]

/-- What a word decodes to is selected by it and has its fields, and the word's reserved bits are 0. -/
theorem decode_eq_ok_iff_fields (w : Word) (i : Instr) :
    decode w = .ok i ↔
      selectOp (opField w) (aField w) (bField w) (cField w) (wtField w) (nField w) = some i ∧
        reservedField w = 0 ∧ (aField w, bField w, cField w, wtField w, nField w) = i.fields ∧
        i.WellFormed = true := by
  rw [decode_eq_ok_iff]
  refine and_congr_right fun h => ?_
  rw [fields_eq_iff_unusedZero h]

/-- The word of a command selects the command. -/
theorem selectOp_encode (i : Instr) :
    selectOp (opField (encode i)) (aField (encode i)) (bField (encode i)) (cField (encode i)) (wtField (encode i))
      (nField (encode i)) = some i := by
  obtain ⟨hop, hfields, -⟩ := Laws.Encoding.ofPack i
  have h := selectOp_fields i
  rwa [← hop, ← hfields] at h

/-- A word that holds a command's opcode and fields, and 0 in the reserved bits, is the command's encoding. -/
theorem encode_eq_of_fields {w : Word} {i : Instr} (hop : i.opcode = opField w) (hres : reservedField w = 0)
    (hfields : (aField w, bField w, cField w, wtField w, nField w) = i.fields) : encode i = w := by
  rw [encode, ← hfields, hop]
  exact pack_fields w hres

/-! ## The mask of a format, bit by bit (R74) -/

/-- A field is 0 exactly when each of its bits is. -/
theorem field_eq_zero_iff (w : Word) (lo width : Nat) :
    field w lo width = 0 ↔ ∀ j, lo ≤ j → j < lo + width → w.getLsbD j = false := by
  have hbit (j : Nat) : (field w lo width).testBit j = (decide (j < width) && w.getLsbD (lo + j)) := by
    rw [field, Nat.testBit_mod_two_pow, Nat.testBit_div_two_pow, Nat.add_comm, BitVec.testBit_toNat]
  constructor
  · intro h j hlo hhi
    have hj := hbit (j - lo)
    rw [h, Nat.zero_testBit, decide_eq_true (by omega), Bool.true_and, Nat.add_sub_cancel' hlo] at hj
    exact hj.symm
  · refine fun h => Nat.zero_of_testBit_eq_false fun j => ?_
    rw [hbit]
    by_cases hj : j < width
    · rw [h _ (by omega) (by omega), Bool.and_false]
    · rw [decide_eq_false hj, Bool.false_and]

/-- The fields, as lowest bit and width, that a word of the format must hold 0 in: the reserved one (R73 step 2) and those the format does not use (step 3). -/
def Format.zeroFields : Format → List (Nat × Nat)
  | .f0 => [(22, 10), (8, 4), (12, 4), (16, 4), (20, 2), (32, 32)]
  | .fN => [(22, 10), (8, 4), (12, 4), (16, 4), (20, 2)]
  | .fA => [(22, 10), (12, 4), (16, 4), (20, 2), (32, 32)]
  | .fAB => [(22, 10), (16, 4), (20, 2), (32, 32)]
  | .fABC => [(22, 10), (20, 2), (32, 32)]
  | .fAW => [(22, 10), (12, 4), (16, 4), (32, 32)]
  | .fAWN => [(22, 10), (12, 4), (16, 4)]

/-- The window type of a word is Rectangular exactly when its `WT` field is 0 (R37). -/
theorem wtField_eq_rectangular_iff (w : Word) : wtField w = .rectangular ↔ field w 20 2 = 0 := by
  constructor
  · intro h
    have hlt : field w 20 2 < 4 := Nat.mod_lt _ (by decide)
    rw [← WindowType.code_ofCode hlt]
    exact congrArg WindowType.code h
  · intro h
    rw [wtField, h]
    rfl

/-- An operand read from a field is 0 exactly when the field is. -/
theorem ofNat_field_eq_zero_iff (w : Word) (lo width : Nat) :
    BitVec.ofNat width (field w lo width) = 0#width ↔ field w lo width = 0 := by
  have hlt : field w lo width < 2 ^ width := Nat.mod_lt _ (Nat.two_pow_pos width)
  rw [← BitVec.toNat_inj, BitVec.toNat_ofNat, Nat.mod_eq_of_lt hlt, BitVec.toNat_zero]

/-- Steps 2 and 3 of R73 ask for 0 in these fields. -/
theorem Format.zeroFields_iff (f : Format) (w : Word) :
    (∀ r ∈ f.zeroFields, field w r.1 r.2 = 0) ↔ reservedField w = 0 ∧ f.unusedZero w = true := by
  cases f <;>
    simp [zeroFields, unusedZero, reservedField, wtField_eq_rectangular_iff, aField, bField, cField, nField,
      ofNat_field_eq_zero_iff, and_assoc]

theorem Format.zeroFields_bounds (f : Format) : ∀ r ∈ f.zeroFields, 8 ≤ r.1 ∧ r.1 + r.2 ≤ 64 := by
  cases f <;> decide

/-- The mask of a format covers `OP` and the fields that must be 0 (R74). -/
theorem Format.mask_getLsbD (f : Format) :
    ∀ j < 64, f.mask.getLsbD j = true ↔ j < 8 ∨ ∃ r ∈ f.zeroFields, r.1 ≤ j ∧ j < r.1 + r.2 := by
  cases f <;> decide

/-- The bits of `OP` as a word are the 8 low bits of the word. -/
theorem getLsbD_opField (w : Word) (j : Nat) :
    (BitVec.ofNat 64 (opField w)).getLsbD j = (decide (j < 8) && w.getLsbD j) := by
  rw [BitVec.getLsbD_ofNat, opField, field, Nat.testBit_mod_two_pow, pow_zero, Nat.div_one, BitVec.testBit_toNat]
  by_cases hj : j < 8
  · rw [decide_eq_true (show j < 64 by omega), Bool.true_and]
  · simp only [hj, decide_false, Bool.false_and, Bool.and_false]

/-- A word agrees with the mask of a format and its own `OP` exactly when the fields that must be 0 are. -/
theorem and_mask_eq_opField_iff (w : Word) (f : Format) :
    w &&& f.mask = BitVec.ofNat 64 (opField w) ↔ ∀ r ∈ f.zeroFields, field w r.1 r.2 = 0 := by
  constructor
  · intro h r hr
    rw [field_eq_zero_iff]
    intro j hlo hhi
    obtain ⟨h8, h64⟩ := f.zeroFields_bounds r hr
    have hmask := (f.mask_getLsbD j (by omega)).2 (.inr ⟨r, hr, hlo, hhi⟩)
    have hj := congrArg (BitVec.getLsbD · j) h
    rwa [BitVec.getLsbD_and, hmask, Bool.and_true, getLsbD_opField, decide_eq_false (by omega), Bool.false_and] at hj
  · intro h
    apply BitVec.eq_of_getLsbD_eq
    intro j hj
    rw [BitVec.getLsbD_and, getLsbD_opField]
    by_cases h8 : j < 8
    · rw [(f.mask_getLsbD j hj).2 (.inl h8), decide_eq_true h8, Bool.and_comm]
    · rw [decide_eq_false h8, Bool.false_and, Bool.and_eq_false_imp, Bool.eq_false_iff, ne_eq, f.mask_getLsbD j hj]
      intro hw hm
      obtain ⟨r, hr, hlo, hhi⟩ := hm.resolve_left h8
      have hzero := (field_eq_zero_iff w r.1 r.2).1 (h r hr) j hlo hhi
      exact Bool.false_ne_true (hzero.symm.trans hw)

end Sys2Proof
end

section
/-! What the transactions of `LOAD` do (spec 30_encoding.md R78): each element is stored, and then the length. -/

namespace Sys2Proof.Machine

/-- A second write of a whole buffer record replaces the first. -/
@[simp] theorem State.Of.setBuffer_setBuffer {Cell α : Type} {C : Configuration Cell α} (s : State.Of C) (k : Nat)
    (b b' : Buffer Cell) : (s.setBuffer k b).setBuffer k b' = s.setBuffer k b' := by
  simp [State.Of.setBuffer]

/-- A run goes on from the state its first step leaves. -/
theorem run_succ_of_step {s t : State} (h : step s = .next t) (n : Nat) :
    Sys2Proof.core.run (n + 1) s = Sys2Proof.core.run n t := by
  rw [run_succ, h]

/-- The transactions of `LOAD` from element `i` on, with the length that is written last. -/
def loadFrom (k i : Nat) (vs : List Word) (len : Nat) : List (Transaction Word) :=
  (vs.zipIdx i).map (fun vi => .bufWrite k vi.2 vi.1) ++ [.regWrite (16 + k) (BitVec.ofNat 64 len)]

theorem expand_load (k : Nat) (vs : List Word) :
    (AsmLine.load k vs).expand binary64 = loadFrom k 0 vs vs.length := rfl

theorem loadFrom_nil (k i len : Nat) : loadFrom k i [] len = [.regWrite (16 + k) (BitVec.ofNat 64 len)] := rfl

theorem loadFrom_cons (k i : Nat) (v : Word) (vs : List Word) (len : Nat) :
    loadFrom k i (v :: vs) len = .bufWrite k i v :: loadFrom k (i + 1) vs len := rfl

/-- The write of a length within `MAXSIG` stores it. -/
theorem step_regWrite_len {k : Nat} (hk : k < Config.NB) {len : Nat} (hlen : len ≤ Config.MAXSIG) (s : State)
    (rest : List (Transaction Word)) :
    step { s with pending := .regWrite (16 + k) (BitVec.ofNat 64 len) :: rest } =
      .next { s.setBuffer k { s.bufferAt k with len := len } with pending := rest } := by
  have hlt : len < 2 ^ 64 := Nat.lt_of_le_of_lt hlen (by decide)
  have hnat : (BitVec.ofNat 64 len).toNat = len := by rw [BitVec.toNat_ofNat, Nat.mod_eq_of_lt hlt]
  have hwithin : within hardware.MAXSIG len = true := (within_some _ _).2 hlen
  rw [step_cons rfl]
  refine (writeRegister_len (C := hardware) exec hk _ _).trans ?_
  show Host.Outcome.next (State.Of.setLen _ k (BitVec.ofNat 64 len).toNat) = _
  rw [hnat, State.Of.setLen, if_pos hwithin]
  rfl

/-- The write of an element that exists stores it. -/
theorem step_bufWrite {k : Nat} (hk : k < Config.NB) {i : Nat} (hi : i < Config.MAXSIG) (v : Word) (s : State)
    (rest : List (Transaction Word)) :
    step { s with pending := .bufWrite k i v :: rest } =
      .next { s.setBuffer k { s.bufferAt k with mem := Memory.store (s.bufferAt k).mem i v } with
        pending := rest } := by
  rw [step_cons rfl, perform, State.Of.bufWrite, if_pos ((hasElement_hardware k i).2 ⟨hk, hi⟩)]
  rfl

/-- `LOAD` from element `i` on leaves the buffer with the elements stored and with the length. -/
theorem run_loadFrom {k : Nat} (hk : k < Config.NB) {len : Nat} (hlen : len ≤ Config.MAXSIG) (vs : List Word) (i : Nat)
    (hi : i + vs.length ≤ Config.MAXSIG) (s : State) :
    Sys2Proof.core.run (vs.length + 1) { s with pending := loadFrom k i vs len } =
      .next { s.setBuffer k { len := len, mem := Memory.storeFrom (s.bufferAt k).mem i vs } with pending := [] } := by
  induction vs generalizing i s with
  | nil => exact run_succ_of_step (step_regWrite_len hk hlen s []) 0
  | cons v vs ih =>
    rw [List.length_cons] at hi
    rw [List.length_cons, loadFrom_cons, run_succ_of_step (step_bufWrite hk (by omega) v s _), ih (i + 1) (by omega),
      State.Of.setBuffer_setBuffer, State.Of.bufferAt_setBuffer, if_pos ⟨rfl, hk⟩, Memory.storeFrom_cons]

/-- `LOAD` writes the sequence as a command writes its result (R59, R78). -/
theorem run_load {b : Idx} (hb : b.toNat < Config.NB) {vs : List Word} (hvs : vs.length ≤ Config.MAXSIG) (s : State) :
    Sys2Proof.core.run (vs.length + 1) { s with pending := (AsmLine.load b.toNat vs).expand binary64 } =
      .next { s.writeBuf b vs with pending := [] } := by
  have hcells : vs.map hardware.num.toBits = vs := List.map_id' vs
  rw [expand_load, run_loadFrom hb hvs vs 0 (by omega), State.Of.writeBuf, hcells]

end Sys2Proof.Machine
end

section
/-! The statements of 30_encoding.md: the decoder and the encoder (R73 to R75), and the transactions of `LOAD` (R78). -/

namespace Sys2Proof

/-- Settles O10: the word of a command selects it and holds its fields. -/
theorem decodeInvertsEncode : Obligations.DecodeInvertsEncode := by
  intro i hwf
  obtain ⟨-, hfields, hres⟩ := Laws.Encoding.ofPack i
  exact (decode_eq_ok_iff_fields _ i).2 ⟨selectOp_encode i, hres, hfields, hwf⟩

/-- Settles O11: a word whose reserved bits are 0 is packed from its fields, and they are those of its command. -/
theorem encodeInvertsDecode : Obligations.EncodeInvertsDecode := by
  intro w i h
  obtain ⟨hsel, hres, hfields, hwf⟩ := (decode_eq_ok_iff_fields w i).1 h
  exact ⟨hwf, encode_eq_of_fields (selectOp_opcode hsel) hres hfields⟩

/-- Settles O12: the mask and the match of a command's row ask for what steps 2 and 3 do. -/
theorem decodeAcceptsExactlyTheTableWords : Obligations.DecodeAcceptsExactlyTheTableWords := by
  intro w i
  rw [decode_eq_ok_iff]
  refine and_congr_right fun hsel => ?_
  rw [selectOp_opcode hsel, and_mask_eq_opField_iff, Format.zeroFields_iff, and_assoc]

/-- Settles O14: each word runs through the decoder. -/
theorem decodeReadsWrittenOutWords : Obligations.DecodeReadsWrittenOutWords :=
  ⟨rfl, rfl, rfl, rfl, rfl, rfl⟩

/-- Settles O9: `LOAD` ends in the state a sequence write leaves, with no transaction left. -/
theorem loadFillsBuffer : Obligations.LoadFillsBuffer := by
  intro s b vs hb hvs
  exact ⟨_, Machine.run_load hb hvs s, Machine.bufferHolds_hardware s vs hb,
    Machine.buffersBut_writeBuf s b vs rfl, rfl⟩

end Sys2Proof
end

section
/-! The laws of the formulas the statements of 40_fir_base.md need: each sample of a convolution (R110), the convolution and the sum over the reals (R11), the range check and `sinc` on binary64 (R101, R103), and the two equalities (R121, R182). -/

namespace Sys2Proof.Machine

/-! ## Samples of a convolution (R110) -/

section
variable {Cell α : Type} (N : Numerics Cell α)

/-- What the signal sample `x = s[n]` adds to the partial sum `acc` of output sample `k`: its product with `c[k - n]`, where there is one. -/
def convTerm (c : List α) (k n : Nat) (x acc : α) : α :=
  if n ≤ k ∧ k - n < c.length then N.add acc (N.mul x (c.getD (k - n) (N.ofInt 0))) else acc

theorem convUpdate_getElem? (out : List α) (j : Nat) (x y : α) (k : Nat) :
    (convUpdate N out j x y)[k]? = out[k]?.map fun acc => if j = k then N.add acc (N.mul x y) else acc :=
  List.getElem?_modify ..

/-- The inner loop over the coefficients `c[m], c[m+1], …`, as R110 runs it from its `m`-th round on. -/
theorem foldl_convUpdate_getElem? (n : Nat) (x : α) (k : Nat) (c : List α) (m : Nat) (out : List α) :
    ((c.zipIdx m).foldl (fun out ym => convUpdate N out (n + ym.2) x ym.1) out)[k]? =
      out[k]?.map (convTerm N c k (n + m) x) := by
  induction c generalizing m out with
  | nil =>
    have hid : convTerm N [] k (n + m) x = id := by
      funext acc
      simp [convTerm]
    rw [hid, Option.map_id]
    rfl
  | cons y c ih =>
    rw [List.zipIdx_cons, List.foldl_cons, ih, convUpdate_getElem?, Option.map_map]
    congr 1
    funext acc
    by_cases hk : n + m = k
    · subst hk
      simp [convTerm]
    · have hsucc : n + (m + 1) ≤ k → k - (n + m) = k - (n + (m + 1)) + 1 := by omega
      by_cases hle : n + (m + 1) ≤ k
      · simp [convTerm, hk, hle, hsucc hle, show n + m ≤ k by omega]
      · simp [convTerm, hk, hle, show ¬n + m ≤ k by omega]

theorem convRow_getElem? (c out : List α) (n : Nat) (x : α) (k : Nat) :
    (convRow N c out n x)[k]? = out[k]?.map (convTerm N c k n x) :=
  foldl_convUpdate_getElem? N n x k c 0 out

/-- The outer loop acts on each output sample by itself. -/
theorem foldl_convRow_getElem? (c : List α) (k : Nat) (l : List (α × Nat)) (out : List α) :
    (l.foldl (fun out xn => convRow N c out xn.2 xn.1) out)[k]? =
      out[k]?.map fun acc => l.foldl (fun acc xn => convTerm N c k xn.2 xn.1 acc) acc := by
  induction l generalizing out with
  | nil => simp
  | cons xn l ih =>
    rw [List.foldl_cons, ih, convRow_getElem?, Option.map_map]
    rfl

/-- A list with its indices, listed by index. -/
theorem zipIdx_eq_map_range (s : List α) (d : α) :
    s.zipIdx = (List.range s.length).map fun n => (s.getD n d, n) := by
  refine List.ext_getElem (by simp) fun n hn _ => ?_
  have hs : n < s.length := by simpa using hn
  simp [hs]

/-- Sample `k` of a convolution sums the products whose indices add up to `k`, in ascending order of the signal's. -/
theorem conv_getElem? (s c : List α) {k : Nat} (hk : k < s.length + c.length - 1) :
    (conv N s c)[k]? = some
      (((List.range s.length).filter fun n => decide (n ≤ k ∧ k - n < c.length)).foldl
        (fun acc n => N.add acc (N.mul (s.getD n (N.ofInt 0)) (c.getD (k - n) (N.ofInt 0)))) (N.ofInt 0)) := by
  rw [conv, foldl_convRow_getElem?, List.getElem?_replicate, if_pos hk, Option.map_some,
    zipIdx_eq_map_range s (N.ofInt 0), List.foldl_map, List.foldl_filter]
  simp only [convTerm, decide_eq_true_eq]

end

/-! ## Sums and convolutions over the reals (R11) -/

theorem coeffSum_real (c : List ℝ) : coeffSum realNum c = c.sum := by
  rw [coeffSum, realNum_ofInt_zero, List.sum_eq_foldl]
  rfl

open Finset in
/-- Over the reals a sample of a convolution is the sum over all pairs of indices that add up to its own, an element that does not exist counting as 0. -/
theorem conv_real_getElem? (s c : List ℝ) {k : Nat} (hk : k < s.length + c.length - 1) :
    (conv realNum s c)[k]? = some (∑ p ∈ antidiagonal k, s.getD p.1 0 * c.getD p.2 0) := by
  have hzero (l : List ℝ) {n : Nat} (hn : l.length ≤ n) : l.getD n 0 = 0 := List.getD_eq_default l 0 hn
  rw [conv_getElem? realNum s c hk, realNum_ofInt_zero]
  congr 1
  calc
    _ = (((List.range s.length).filter fun n => decide (n ≤ k ∧ k - n < c.length)).map
          fun n => s.getD n 0 * c.getD (k - n) 0).sum := by
      rw [List.sum_eq_foldl, List.foldl_map]
      rfl
    _ = ∑ n ∈ ((List.range s.length).filter fun n => decide (n ≤ k ∧ k - n < c.length)).toFinset,
          s.getD n 0 * c.getD (k - n) 0 := (List.sum_toFinset _ (List.nodup_range.filter _)).symm
    _ = ∑ n ∈ range (k + 1), s.getD n 0 * c.getD (k - n) 0 := by
      refine sum_subset (fun n hn => ?_) fun n hn hout => ?_
      · simp only [List.mem_toFinset, List.mem_filter, List.mem_range, decide_eq_true_eq, mem_range] at hn ⊢
        omega
      · by_cases hs : s.length ≤ n
        · rw [hzero s hs, zero_mul]
        · have hc : c.length ≤ k - n := by
            simp only [List.mem_toFinset, List.mem_filter, List.mem_range, decide_eq_true_eq, mem_range] at hn hout
            omega
          rw [hzero c hc, mul_zero]
    _ = ∑ p ∈ antidiagonal k, s.getD p.1 0 * c.getD p.2 0 :=
      (Nat.sum_antidiagonal_eq_sum_range_succ (fun i j => s.getD i 0 * c.getD j 0) k).symm

/-- Convolution over the reals is commutative. -/
theorem conv_real_comm (s c : List ℝ) : conv realNum s c = conv realNum c s := by
  have hlen : (conv realNum s c).length = (conv realNum c s).length := by
    rw [conv_length, conv_length, Nat.add_comm]
  refine List.ext_getElem? fun k => ?_
  by_cases hk : k < s.length + c.length - 1
  · rw [conv_real_getElem? s c hk, conv_real_getElem? c s (by omega), ← Finset.Nat.sum_antidiagonal_swap]
    simp only [Prod.fst_swap, Prod.snd_swap, mul_comm]
  · have hout : (conv realNum s c).length ≤ k := by
      rw [conv_length]
      omega
    rw [List.getElem?_eq_none hout, List.getElem?_eq_none (hlen ▸ hout)]

/-- A convolution with a unit impulse at `j` shifts the signal by `j`. -/
theorem conv_real_impulse_getElem? (s c : List ℝ) (j : Nat) (hc : ∀ m, c.getD m 0 = if m = j then 1 else 0) {k : Nat}
    (hk : k < s.length + c.length - 1) :
    (conv realNum s c)[k]? = some (if j ≤ k then s.getD (k - j) 0 else 0) := by
  rw [conv_real_getElem? s c hk]
  congr 1
  split
  · next hj =>
    rw [Finset.sum_eq_single (k - j, j)]
    · rw [hc, if_pos rfl, mul_one]
    · rintro ⟨a, b⟩ hab hne
      have hsum : a + b = k := Finset.HasAntidiagonal.mem_antidiagonal.1 hab
      have hb : b ≠ j := fun hb => hne (Prod.ext (by omega) hb)
      rw [hc, if_neg hb, mul_zero]
    · intro hn
      exact absurd (Finset.HasAntidiagonal.mem_antidiagonal.2 (Nat.sub_add_cancel hj)) hn
  · next hj =>
    refine Finset.sum_eq_zero fun p hp => ?_
    have hp2 : p.2 ≠ j := by
      have hsum := Finset.HasAntidiagonal.mem_antidiagonal.1 hp
      omega
    rw [hc, if_neg hp2, mul_zero]

theorem conv_real_one (s : List ℝ) : conv realNum s [1] = s := by
  have hlen : (conv realNum s [1]).length = s.length := conv_length ..
  have himpulse (m : Nat) : ([1] : List ℝ).getD m 0 = if m = 0 then 1 else 0 := by cases m <;> simp
  refine List.ext_getElem? fun k => ?_
  by_cases hk : k < s.length
  · rw [conv_real_impulse_getElem? s [1] 0 himpulse hk, if_pos k.zero_le, Nat.sub_zero,
      List.getD_eq_getElem s 0 hk, List.getElem?_eq_getElem hk]
  · rw [List.getElem?_eq_none (by omega), List.getElem?_eq_none (by omega)]

theorem conv_real_delay (s : List ℝ) : conv realNum s [0, 1, 0] = 0 :: (s ++ [0]) := by
  have hlen : (conv realNum s [0, 1, 0]).length = s.length + 2 := conv_length ..
  have himpulse (m : Nat) : ([0, 1, 0] : List ℝ).getD m 0 = if m = 1 then 1 else 0 := by
    match m with
    | 0 | 1 | 2 => simp
    | m + 3 => simp
  refine List.ext_getElem? fun k => ?_
  by_cases hk : k < s.length + 2
  · rw [conv_real_impulse_getElem? s [0, 1, 0] 1 himpulse hk]
    cases k with
    | zero => rfl
    | succ n =>
      rw [if_pos (by omega), Nat.add_sub_cancel, List.getElem?_cons_succ]
      rcases Nat.lt_succ_iff_lt_or_eq.1 (show n < s.length + 1 by omega) with hn | rfl
      · rw [List.getD_eq_getElem s 0 hn, List.getElem?_append_left hn, List.getElem?_eq_getElem hn]
      · rw [List.getD_eq_default s 0 le_rfl, List.getElem?_concat_length]
  · rw [List.getElem?_eq_none (by omega), List.getElem?_eq_none (by simp; omega)]

/-! ## The validation functions (R100 to R102) -/

/-- A check that fails, and can raise `e` alone, raises `e`. -/
theorem eq_some_of_ne_none {o : Option Status} {e : Status} (honly : ∀ {e'}, o = some e' → e' = e) (h : o ≠ none) :
    o = some e := by
  obtain ⟨e', he'⟩ := Option.ne_none_iff_exists'.1 h
  rw [he', honly he']

theorem checkSize_eq_some {n : Nat} (h : ¬(n % 2 = 1 ∧ 3 ≤ n)) : checkSize n = some .invalidSize :=
  eq_some_of_ne_none checkSize_some fun hn => h (checkSize_none.1 hn)

theorem checkCapacity_eq_some {c : Option Nat} {n : Nat} (h : ¬within c n = true) :
    checkCapacity c n = some .capacityExceeded :=
  eq_some_of_ne_none (fun he => (checkCapacity_some he).1) fun hn => h (checkCapacity_none.1 hn)

section
variable {Cell α : Type} (N : Numerics Cell α)

theorem checkFrequencyRange_eq_some {c : α} (h : ¬(N.lt (N.ofInt 0) c = true ∧ N.lt c (N.lit .half) = true)) :
    checkFrequencyRange N c = some .invalidParameterValue :=
  eq_some_of_ne_none (checkFrequencyRange_some N) fun hn => h ((checkFrequencyRange_none N).1 hn)

theorem checkFrequencyOrder_eq_some {lo hi : α} (h : ¬N.lt lo hi = true) :
    checkFrequencyOrder N lo hi = some .invalidParameterOrder :=
  eq_some_of_ne_none (checkFrequencyOrder_some N) fun hn => h ((checkFrequencyOrder_none N).1 hn)

end

namespace Fp

/-- The numbers between 0 and 0.5 are the encodings above that of +0 and below that of 0.5 (R13). -/
theorem cutoff_iff (c : Word) :
    lt (ofInt 0) c = true ∧ lt c (lit .half) = true ↔ 0 < c.toNat ∧ c.toNat < 0x3FE0000000000000 := by
  have h0 : isNaN (ofInt 0) = false ∧ order (ofInt 0) = 0 := by decide
  have hhalf : isNaN (lit .half) = false ∧ order (lit .half) = 0x3FE0000000000000 := by decide
  have hsign : sign c = true ↔ 2 ^ 63 ≤ c.toNat := decide_eq_true_iff
  have hmag : magBits c = c.toNat % 2 ^ 63 := rfl
  have hnan : magBits c < 0x3FE0000000000000 → isNaN c = false := by
    intro h
    have he : expBits c ≠ 2047 := by
      unfold expBits
      omega
    simp [isNaN, he]
  rw [lt_iff, lt_iff, h0.1, h0.2, hhalf.1, hhalf.2]
  cases hs : sign c with
  | true =>
    have ho : order c = -(magBits c : Int) := if_pos hs
    have hc := hsign.1 hs
    omega
  | false =>
    have ho : order c = magBits c := if_neg (by simp [hs])
    have hc : ¬2 ^ 63 ≤ c.toNat := mt hsign.2 (by simp [hs])
    constructor
    · rintro ⟨⟨-, -, hlo⟩, -, -, hhi⟩
      omega
    · rintro ⟨hlo, hhi⟩
      have hn := hnan (by omega)
      exact ⟨⟨rfl, hn, by omega⟩, hn, rfl, by omega⟩

theorem lt_irrefl (a : Word) : lt a a = false := by simp [lt]

/-! ## `sinc` of an infinity or a NaN (R103; logs 4, 5) -/

theorem isFinite_of_isNaN {a : Word} (h : isNaN a = true) : isFinite a = false := by
  rw [← Bool.not_eq_true, isFinite_iff, h]
  simp

theorem isFinite_inf (s : Bool) : isFinite (inf s) = false := by cases s <;> decide

/-- No infinity and no NaN is below a finite number in size. -/
theorem not_abs_lt_eps {x : Word} (h : isFinite x = false) : lt (abs x) (lit .eps) = false := by
  have heps : order (lit .eps) < 2047 * 2 ^ 52 := by decide
  have hexp : magBits x / 2 ^ 52 = 2047 := by simpa [isFinite, expBits] using h
  have habs : order (abs x) = magBits x := by simp [order]
  rw [← Bool.not_eq_true, lt_iff, habs]
  omega

/-- π times an infinity or a NaN is neither finite. -/
theorem isFinite_pi_mul {x : Word} (h : isFinite x = false) : isFinite (mul pi x) = false := by
  have hpi : isNaN pi = false ∧ isInf pi = false ∧ isZero pi = false := by decide
  cases hn : isNaN x with
  | true => rw [mul_of_isNaN (.inr hn), isFinite_of_isNaN (isNaN_nan ..)]
  | false =>
    have hi : isInf x = true := by
      by_contra hi
      rw [(isFinite_iff x).2 ⟨hn, by simpa using hi⟩] at h
      cases h
    have hmul : mul pi x = inf (sign pi != sign x) := by simp [mul, hpi, hn, hi]
    rw [hmul, isFinite_inf]

/-- The value of `sinc` beyond its threshold, of an infinity or a NaN, is a NaN. -/
theorem isNaN_sin_div_pi_mul {x : Word} (h : isFinite x = false) :
    isNaN (div (sin (mul pi x)) (mul pi x)) = true := by
  have hsin : sin (mul pi x) = nan .sin (mul pi x) 0#64 := if_neg (by simp [isFinite_pi_mul h])
  rw [hsin, div_of_isNaN (.inl (isNaN_nan ..)), isNaN_nan]

end Fp

/-! ## The two equalities (R121, R182) -/

theorem coeffEq_iff {Cell α : Type} (N : Numerics Cell α) (a b : List α) :
    coeffEq N a b = true ↔
      a.length = b.length ∧ ∀ (n : Nat) x y, a[n]? = some x → b[n]? = some y → N.eq x y = true := by
  rw [coeffEq, Bool.and_eq_true, beq_iff_eq, List.all_eq_true]
  refine and_congr_right fun _ => ⟨fun h n x y hx hy => ?_, fun h p hp => ?_⟩
  · exact h (x, y) (List.mem_of_getElem? (List.getElem?_zip_eq_some.2 ⟨hx, hy⟩))
  · obtain ⟨n, hn⟩ := List.mem_iff_getElem?.1 hp
    obtain ⟨hx, hy⟩ := List.getElem?_zip_eq_some.1 hn
    exact h n p.1 p.2 hx hy

theorem weq_eq_decide {α : Type} (x y : Window α) :
    weq x y = decide (x.wtype = y.wtype ∧ x.coeff.length = y.coeff.length) := by
  rw [Bool.eq_iff_iff, decide_eq_true_eq, weq, Bool.and_eq_true, beq_iff_eq, beq_iff_eq]

/-- Windows of one type and size that meet R38 have one sequence of coefficients. -/
theorem WindowOk.coeff_eq {Cell α : Type} {C : Configuration Cell α} {x y : Window α} (hx : WindowOk C x)
    (hy : WindowOk C y) (ht : x.wtype = y.wtype) (hl : x.coeff.length = y.coeff.length) : x.coeff = y.coeff := by
  rw [hx.2, hy.2, ht, hl]

/-! ## Synthesis by `WSHAPE` (R140, R147) -/

theorem shapeBy_eq_ite {Cell α : Type} (N : Numerics Cell α) (shape : WShape) (ideal : List α) (t : WindowType) :
    shapeBy N shape ideal t =
      if shape = .multiply then List.zipWith N.mul ideal (window N t ideal.length) else ideal := by
  cases shape <;> rfl

end Sys2Proof.Machine
end

section
/-! The statements of 40_fir_base.md: the validation functions (R100 to R102), the commands of the FIR base (R104 to R120), the two equalities (R121, R182), and the convolution over any numerics and over the reals (R106, R110). -/

namespace Sys2Proof.Machine

/-! ## Formulas -/

/-- Settles O53: each output sample is updated by itself, once for every signal sample that reaches it. -/
theorem convolutionSamples : Obligations.ConvolutionSamples :=
  fun _ _ N s c => ⟨conv_length N s c, fun _ hk => conv_getElem? N s c hk⟩

/-- Settles O54: over the reals a sample sums over the pairs of indices that add up to its own, which may be swapped; `[1]` and `[0, 1, 0]` are the unit impulses at 0 and 1. -/
theorem realConvolutionLaws : Obligations.RealConvolutionLaws :=
  fun s c => ⟨conv_real_comm s c, conv_real_one s, conv_real_delay s⟩

/-- Settles O57: over the reals the division is exact, so it may be done after the summation. -/
theorem realNormaliseSumsToOne : Obligations.RealNormaliseSumsToOne := by
  intro c hsum
  have hdiv : (fun x => realNum.div x (coeffSum realNum c)) = fun x => x * (coeffSum realNum c)⁻¹ :=
    funext fun x => (realNum_div hsum).trans (div_eq_mul_inv ..)
  rw [hdiv, coeffSum_real, List.sum_map_mul_right, List.map_id', ← coeffSum_real, mul_inv_cancel₀ hsum]

/-- Settles O15: each check passes by its test and can raise one error; on binary64 the tests go by the order of the encodings. -/
theorem validationFunctions : Obligations.ValidationFunctions := by
  refine ⟨fun n => ⟨checkSize_none.2, checkSize_eq_some⟩, fun Cell α N c lo hi => ?_, fun c => ?_, fun lo hi h => ?_⟩
  · exact ⟨(checkFrequencyRange_none N).2, checkFrequencyRange_eq_some N, (checkFrequencyOrder_none N).2,
      fun h => checkFrequencyOrder_eq_some N (Bool.eq_false_iff.1 h)⟩
  · rw [← Fp.cutoff_iff]
    exact ⟨(checkFrequencyRange_none binary64).2, checkFrequencyRange_eq_some binary64⟩
  · refine checkFrequencyOrder_eq_some binary64 (Bool.eq_false_iff.1 ?_)
    rcases h with rfl | h
    · exact Fp.lt_irrefl lo
    · exact (Fp.lt_eq_false_of_isNaN h).1

/-! ## Commands that report a status or a result -/

/-- A command that only validates passes by its test `p`, or leaves the one error its validation can raise. -/
theorem validate_complete {Cell α : Type} {C : Configuration Cell α} (s : State.Of C) {v : Option Status} {p : Prop}
    [Decidable p] {e : Status} (hpass : v = none ↔ p) (honly : ∀ {e'}, v = some e' → e' = e) :
    validate s v (complete s) = .next (s.setErr (if p then .ok else e)) := by
  split
  · next hp => rw [hpass.2 hp]; rfl
  · next hp => rw [eq_some_of_ne_none honly (mt hpass.1 hp)]; rfl

/-- Settles O18: each of the three commands is one validation. -/
theorem checksReportTheirVerdict : Obligations.ChecksReportTheirVerdict := by
  rintro s n range order size rfl rfl rfl
  exact ⟨validate_complete s (checkFrequencyRange_none binary64) (checkFrequencyRange_some binary64),
    validate_complete s (checkFrequencyOrder_none binary64) (checkFrequencyOrder_some binary64),
    validate_complete s checkSize_none checkSize_some⟩

/-- Settles O19: `SINC` writes the value of `sinc`; an infinity or a NaN is not below the threshold, and π times it has a NaN as its sine. -/
theorem sincWritesItsValue : Obligations.SincWritesItsValue := by
  rintro s x v rfl rfl
  refine ⟨rfl, fun h => ?_⟩
  have hlt : ¬binary64.lt (binary64.abs s.arg0) (binary64.lit .eps) = true :=
    Bool.eq_false_iff.1 (Fp.not_abs_lt_eps h)
  rw [if_neg hlt]
  exact Fp.isNaN_sin_div_pi_mul h

/-- Settles O22: each accessor completes with what it reads of the filter. -/
theorem filterAccessors : Obligations.FilterAccessors := by
  intro s b f v hv
  refine ⟨fun hb => ?_, withFilter_some s hv _, ?_, ?_⟩
  · have hcells : v.coeff.map hardware.num.toBits = v.coeff := List.map_id' v.coeff
    rw [exec_eq_execOf, ← hcells, List.length_map]
    exact execOf_getcoef hv hb
  · obtain ⟨wtype, coeff, params⟩ := v
    cases params <;> exact withFilter_some s hv _
  · obtain ⟨wtype, coeff, params⟩ := v
    cases wtype <;> exact withFilter_some s hv _

/-! ## Commands that write a filter slot -/

section
variable {Cell α : Type} {C : Configuration Cell α} {s : State.Of C}

/-- What a command that completes by writing an occupied filter slot leaves. -/
theorem next_of_complete_setFilter {f : Idx} {v : Filter α} (hv : s.filterAt f = some v) {o : OutcomeOf C}
    {u : Option (Filter α)} (ho : o = complete (s.setFilter f u)) :
    ∃ t, o = .next t ∧ t.err = .ok ∧ t.filterAt f = u ∧ OnlyFilter f s t :=
  ⟨_, ho, rfl, filterAt_setFilter_same s u (s.filterAt_lt hv), onlyFilter_setFilter s f u⟩

/-- What a command that completes by writing an occupied window slot leaves. -/
theorem next_of_complete_setWindow {w : Idx} {v : Window α} (hv : s.windowAt w = some v) {o : OutcomeOf C}
    {u : Option (Window α)} (ho : o = complete (s.setWindow w u)) :
    ∃ t, o = .next t ∧ t.err = .ok ∧ t.windowAt w = u ∧ OnlyWindow w s t :=
  ⟨_, ho, rfl, windowAt_setWindow_same s u (s.windowAt_lt hv), onlyWindow_setWindow s w u⟩

/-- `SETCOEF` of an occupied slot and a readable source is the test of the lengths (R105). -/
theorem execOf_setcoef {f b : Idx} {v : Filter α} {xs : List α} (hv : s.filterAt f = some v) (hx : s.seq b = some xs) :
    execOf (.setcoef f b) s = require s (xs.length == v.coeff.length) .mismatchedSize
      (complete (s.setFilter f (some { v with coeff := xs }))) :=
  (withFilter_some s hv _).trans (withSeq_some s hx _)

/-- `NORM` of an occupied slot is the test of the sum (R106). -/
theorem execOf_norm {f : Idx} {v : Filter α} (hv : s.filterAt f = some v) :
    execOf (.norm f) s = require s (!C.num.lt (C.num.abs (coeffSum C.num v.coeff)) C.eps) .normalisationFailed
      (complete (s.setFilter f
        (some { v with coeff := v.coeff.map fun c => C.num.div c (coeffSum C.num v.coeff) }))) :=
  withFilter_some s hv _

end

/-- Settles O20: `SETCOEF` tests the lengths before it writes the slot. -/
theorem setcoefReplacesOnlyMatchingLength : Obligations.SetcoefReplacesOnlyMatchingLength := by
  intro s f b v hv
  refine ⟨fun xs hx hl => next_of_complete_setFilter hv ?_, fun xs hx hl => ?_⟩
  · rw [exec_eq_execOf, execOf_setcoef hv hx, beq_iff_eq.2 hl, require_true]
  · rw [exec_eq_execOf, execOf_setcoef hv hx, beq_eq_false_iff_ne.2 hl, require_false]
    rfl

/-- Settles O21: `NORM` tests the size of the sum before it divides. -/
theorem normDividesBySum : Obligations.NormDividesBySum := by
  rintro s f v sum hv rfl
  refine ⟨fun hlt => ?_, fun hlt => next_of_complete_setFilter hv ?_⟩
  · rw [exec_eq_execOf, execOf_norm hv, coeffSum, hlt, Bool.not_true, require_false]
    rfl
  · rw [exec_eq_execOf, execOf_norm hv, coeffSum, hlt, Bool.not_false, require_true]

/-- Settles O23: `SETWTYPE` writes the slot with `synth` of what it stores, and `WSHAPE` alone decides whether the new type shapes the formula's value. -/
theorem setwtypeResynthesises : Obligations.SetwtypeResynthesises := by
  constructor
  · intro s f wt v hv
    obtain ⟨t, ht, herr, hslot, honly⟩ := next_of_complete_setFilter hv
      (show exec (.setwtype f wt) s = _ from withFilter_some s hv _)
    refine ⟨t, ht, herr, honly, hslot.trans ?_⟩
    cases v.params <;> rfl
  · rintro Cell α C s f wt v shaped hv rfl
    obtain ⟨t, ht, herr, hslot, honly⟩ := next_of_complete_setFilter hv
      (show execOf (.setwtype f wt) s = _ from withFilter_some s hv _)
    refine ⟨t, ht, herr, honly, hslot.trans ?_⟩
    cases v.params with
    | lowpass fc => simp only [synth, shapeBy_eq_ite, lowpass_length]
    | highpass fc => simp only [synth, shapeBy_eq_ite, highpass_length]
    | bandpass fl fh => simp only [synth, shapeBy_eq_ite, bandpass_length]
    | freqSampling spectrum => rfl

/-- Settles O27: the free commands write `empty` to a slot they find occupied. -/
theorem freeEmptiesTheSlot : Obligations.FreeEmptiesTheSlot := by
  intro s x
  constructor
  · intro h
    obtain ⟨v, hv⟩ := Option.ne_none_iff_exists'.1 h
    exact next_of_complete_setFilter hv (withFilter_some s hv _)
  · intro h
    obtain ⟨v, hv⟩ := Option.ne_none_iff_exists'.1 h
    exact next_of_complete_setWindow hv (withWindow_some s hv _)

/-! ## Convolution -/

section
variable {Cell α : Type} {C : Configuration Cell α} {s : State.Of C} {f c : Idx} {v : Filter α} {xs : List α}
  (hv : s.filterAt f = some v) (hx : s.seq c = some xs) (k : List α → OutcomeOf C)
include hv hx

/-- Neither sequence may be empty (R111, R112). -/
theorem withConv_of_empty (h : xs = [] ∨ v.coeff = []) : withConv s f c k = raise .invalidSize s := by
  have htest : (xs.length != 0 && v.coeff.length != 0) = false := by rcases h with h | h <;> simp [h]
  rw [withConv, withFilter_some s hv, withSeq_some s hx, htest, require_false]

/-- Two sequences that are not empty: what remains is the test of the capacity. -/
theorem withConv_of_ne_nil (hxs : xs ≠ []) (hcoeff : v.coeff ≠ []) :
    withConv s f c k = validate s (checkCapacity C.MAXSIG (xs.length + v.coeff.length - 1))
      (k (conv C.num xs v.coeff)) := by
  have htest : (xs.length != 0 && v.coeff.length != 0) = true := by simp [hxs, hcoeff]
  rw [withConv, withFilter_some s hv, withSeq_some s hx, htest, require_true]

end

theorem exec_conv (s : State) (b f c : Idx) :
    exec (.conv b f c) s = withConv s f c fun ys => complete (s.writeBuf b ys) := rfl

theorem exec_convip (s : State) (b f : Idx) :
    exec (.convip b f) s = withConv s f b fun ys => complete ((s.writeBuf b ys).setResNat ys.length) := rfl

/-- Settles O24: the convolution is computed whole before the buffer is written, so the two buffers may be one. -/
theorem convolutionCommands : Obligations.ConvolutionCommands := by
  intro s b f c v xs hb hv hxs hcoeff hcap
  have hfits : checkCapacity hardware.MAXSIG (xs.length + v.coeff.length - 1) = none :=
    checkCapacity_none.2 ((within_some _ _).2 hcap)
  have hlen := conv_length binary64 xs v.coeff
  have hholds := bufferHolds_hardware s (conv binary64 xs v.coeff) hb
  have hbuffers := buffersBut_writeBuf s b (conv binary64 xs v.coeff) hlen.symm
  have hconv {d : Idx} (hx : s.seq d = some xs) (k : List Word → Outcome) :
      withConv s f d k = k (conv binary64 xs v.coeff) := by
    rw [withConv_of_ne_nil hv hx k hxs hcoeff, hfits, validate_none]
  constructor
  · intro hx
    exact ⟨_, (exec_conv s b f c).trans (hconv hx _), rfl, hholds, rfl, hbuffers⟩
  · intro hx
    exact ⟨_, (exec_convip s b f).trans (hconv hx _), rfl, congrArg zext64 hlen, hholds, rfl, hbuffers⟩

/-- Settles O25: the shared part of the two commands tests for emptiness and then the capacity. -/
theorem convErrorsInOrder : Obligations.ConvErrorsInOrder := by
  intro s b f c v xs hv
  have hcapacity {d : Idx} (hx : s.seq d = some xs) (hxs : xs ≠ []) (hcoeff : v.coeff ≠ [])
      (hcap : Config.MAXSIG < xs.length + v.coeff.length - 1) (k : List Word → Outcome) :
      withConv s f d k = raise .capacityExceeded s := by
    have hexceeds : checkCapacity hardware.MAXSIG (xs.length + v.coeff.length - 1) = some .capacityExceeded :=
      checkCapacity_eq_some (mt (within_some _ _).1 (Nat.not_le.2 hcap))
    rw [withConv_of_ne_nil hv hx k hxs hcoeff, hexceeds, validate_some]
  refine ⟨fun hx h => (exec_conv s b f c).trans (withConv_of_empty hv hx _ h),
    fun hx h => (exec_convip s b f).trans (withConv_of_empty hv hx _ h), fun hx hxs hcoeff hcap => ?_,
    fun hx hxs hcoeff hcap => ?_⟩
  · exact (exec_conv s b f c).trans (hcapacity hx hxs hcoeff hcap _)
  · exact (exec_convip s b f).trans (hcapacity hx hxs hcoeff hcap _)

/-! ## The two equalities -/

/-- A truth value as an integer result (R179). -/
theorem zext64_decide_toNat (p : Prop) [Decidable p] : zext64 (decide p).toNat = if p then 1#64 else 0#64 := by
  by_cases hp : p <;> simp [hp, zext64]

/-- The negation of a truth value as an integer result (R180). -/
theorem zext64_not_decide_toNat (p : Prop) [Decidable p] :
    zext64 (!decide p).toNat = if p then 0#64 else 1#64 := by
  by_cases hp : p <;> simp [hp, zext64]

/-- Settles O35: the commands report `feq` and `weq`; windows that meet R38 have the coefficients of their type and size. -/
theorem equalityContracts : Obligations.EqualityContracts := by
  constructor
  · intro s f g u v hu hv
    have hread (k : Machine.Filter Word → Machine.Filter Word → Outcome) :
        (withFilter s f fun a => withFilter s g (k a)) = k u v :=
      (withFilter_some s hu _).trans (withFilter_some s hv _)
    refine ⟨feq binary64 u v, coeffEq_iff binary64 u.coeff v.coeff, (hread _).trans ?_, (hread _).trans ?_⟩
    all_goals cases feq binary64 u v <;> rfl
  · intro s w v x y hx hy
    have hread (k : Window Word → Window Word → Outcome) :
        (withWindow s w fun a => withWindow s v (k a)) = k x y :=
      (withWindow_some s hx _).trans (withWindow_some s hy _)
    refine ⟨(hread _).trans ?_, (hread _).trans ?_, fun hi => (hi.windows w x hx).coeff_eq (hi.windows v y hy)⟩
    · rw [weq_eq_decide, ← zext64_decide_toNat]
      rfl
    · rw [weq_eq_decide, ← zext64_not_decide_toNat]
      rfl

end Sys2Proof.Machine
end

section
/-! The laws of the coefficient formulas the statements of 41_window_filters.md need: their samples (R141 to R143), when their sequences are palindromic (R148, R161), and `sinc` of a negated number over the reals and on binary64 (R11, R12). -/

namespace Sys2Proof.Machine

section
variable {Cell α : Type} (N : Numerics Cell α)

/-! ## Samples (R141 to R143) -/

theorem lowpass_getElem? (eps fc : α) {size n : Nat} (h : n < size) :
    (lowpass N eps fc size)[n]? = some (lowpassSample N eps fc size n) := by
  rw [lowpass, List.getElem?_map, List.getElem?_range h, Option.map_some]

theorem highpass_getElem? (eps fc : α) {size n : Nat} (h : n < size) :
    (highpass N eps fc size)[n]? = some (highpassSample N eps fc size n) := by
  rw [highpass, List.getElem?_map, List.getElem?_range h, Option.map_some]

theorem bandpass_getElem? (eps fl fh : α) {size n : Nat} (h : n < size) :
    (bandpass N eps fl fh size)[n]? = some (bandpassSample N eps fl fh size n) := by
  rw [bandpass, List.getElem?_map, List.getElem?_range h, Option.map_some]

/-! ## Palindromes (R148, R161) -/

/-- A sequence whose samples `n` and `size - 1 - n` agree is a palindrome. -/
theorem reverse_map_range {β : Type} {f : Nat → β} {size : Nat} (h : ∀ n < size, f (size - 1 - n) = f n) :
    ((List.range size).map f).reverse = (List.range size).map f := by
  refine List.ext_getElem (by simp) fun n hn _ => ?_
  have hlt : n < size := by simpa using hn
  simp [h n hlt]

/-- The distances of samples `n` and `size - 1 - n` from the centre are opposite. -/
theorem offset_reflect {size n : Nat} (hodd : size % 2 = 1) (hn : n < size) :
    offset N size (size - 1 - n) = N.ofInt (-((n : Int) - (centre size : Int))) := by
  rw [offset, centre]
  congr 1
  omega

/-- `sinc(a · z)` is that of `-z` at every distance `z` from the centre that a sequence of this size has. -/
def SincSymmetric (eps a : α) (size : Nat) : Prop :=
  ∀ z : Int, z.natAbs < size → sinc N eps (N.mul a (N.ofInt (-z))) = sinc N eps (N.mul a (N.ofInt z))

variable {N} {eps : α} {size : Nat}

/-- Where `sinc` is symmetric its values at samples `n` and `size - 1 - n` agree. -/
theorem SincSymmetric.reflect {a : α} (h : SincSymmetric N eps a size) (hodd : size % 2 = 1) {n : Nat}
    (hn : n < size) :
    sinc N eps (N.mul a (offset N size (size - 1 - n))) = sinc N eps (N.mul a (offset N size n)) := by
  rw [offset_reflect N hodd hn]
  exact h _ (by rw [centre]; omega)

theorem lowpass_reverse {fc : α} (hodd : size % 2 = 1) (h : SincSymmetric N eps (N.mul (N.lit .two) fc) size) :
    (lowpass N eps fc size).reverse = lowpass N eps fc size :=
  reverse_map_range fun n hn => by simp only [lowpassSample, h.reflect hodd hn]

/-- The centre, where `highpass` adds 1, is its own mirror image. -/
theorem highpass_reverse {fc : α} (hodd : size % 2 = 1) (h : SincSymmetric N eps (N.mul (N.lit .two) fc) size) :
    (highpass N eps fc size).reverse = highpass N eps fc size :=
  reverse_map_range fun n hn => by
    have hcentre : size - 1 - n = centre size ↔ n = centre size := by rw [centre]; omega
    simp only [highpassSample, h.reflect hodd hn, hcentre]

theorem bandpass_reverse {fl fh : α} (hodd : size % 2 = 1) (hl : SincSymmetric N eps (N.mul (N.lit .two) fl) size)
    (hh : SincSymmetric N eps (N.mul (N.lit .two) fh) size) :
    (bandpass N eps fl fh size).reverse = bandpass N eps fl fh size :=
  reverse_map_range fun n hn => by simp only [bandpassSample, hl.reflect hodd hn, hh.reflect hodd hn]

/-- A frequency-sampling sequence is a palindrome where the cosines of its angles are symmetric. -/
theorem freqsamp_reverse (spectrum : List α)
    (hcos : ∀ size k n, size % 2 = 1 → n < size →
      N.cos (freqAngle N size k (size - 1 - n)) = N.cos (freqAngle N size k n)) :
    (freqsamp N spectrum).reverse = freqsamp N spectrum := by
  cases spectrum with
  | nil => rfl
  | cons s0 rest =>
    refine reverse_map_range fun n hn => ?_
    simp only [freqAcc, hcos _ _ n (by omega) hn]

end

/-! ## Over the reals (R11, R103) -/

/-- Above a positive threshold the divisor of `sinc` is not 0, and numerator and divisor both change their sign. -/
theorem sinc_real_neg {eps : ℝ} (heps : 0 < eps) (x : ℝ) : sinc realNum eps (-x) = sinc realNum eps x := by
  show (if decide (|-x| < eps) = true then realNum.lit .one
      else realDiv (Real.sin (Real.pi * -x)) (Real.pi * -x)) =
    if decide (|x| < eps) = true then realNum.lit .one else realDiv (Real.sin (Real.pi * x)) (Real.pi * x)
  rw [abs_neg]
  split
  · rfl
  · next hx =>
    have hx0 : x ≠ 0 := by
      rintro rfl
      exact hx (by simpa using heps)
    have hne : Real.pi * x ≠ 0 := mul_ne_zero Real.pi_ne_zero hx0
    rw [mul_neg, Real.sin_neg, realDiv, realDiv, if_neg (neg_ne_zero.2 hne), if_neg hne, neg_div_neg_eq]

theorem sincSymmetric_real {eps : ℝ} (heps : 0 < eps) (a : ℝ) (size : Nat) : SincSymmetric realNum eps a size := by
  intro z _
  have hneg : realNum.mul a (realNum.ofInt (-z)) = -realNum.mul a (realNum.ofInt z) := by
    show a * ((-z : ℤ) : ℝ) = -(a * (z : ℝ))
    rw [Int.cast_neg, mul_neg]
  rw [hneg, sinc_real_neg heps]

/-- The angles of samples `n` and `size - 1 - n` are opposite, and the cosine is even. -/
theorem cos_freqAngle_real_reflect (size k n : Nat) (hodd : size % 2 = 1) (hn : n < size) :
    realNum.cos (freqAngle realNum size k (size - 1 - n)) = realNum.cos (freqAngle realNum size k n) := by
  have hsize : realNum.ofInt (size : Int) ≠ 0 := Int.cast_ne_zero.2 (by omega)
  have hangle : freqAngle realNum size k (size - 1 - n) = -freqAngle realNum size k n := by
    rw [freqAngle, freqAngle, realNum_div hsize, realNum_div hsize, offset_reflect realNum hodd hn, ← neg_div]
    congr 1
    show _ * ((-((n : ℤ) - (centre size : ℤ)) : ℤ) : ℝ) = -(_ * (((n : ℤ) - (centre size : ℤ) : ℤ) : ℝ))
    rw [Int.cast_neg, mul_neg]
  rw [hangle]
  exact Real.cos_neg _

/-- At the centre the argument of `sinc` is 0, which is below every positive threshold. -/
theorem sinc_real_centre {eps : ℝ} (heps : 0 < eps) (a : ℝ) (size : Nat) :
    sinc realNum eps (realNum.mul a (offset realNum size (centre size))) = 1 := by
  have h0 : realNum.mul a (offset realNum size (centre size)) = 0 := by
    rw [offset, sub_self, realNum_ofInt_zero]
    exact mul_zero a
  have hlt : realNum.lt (realNum.abs 0) eps = true := decide_eq_true (abs_zero.trans_lt heps)
  rw [h0, sinc, if_pos hlt, realNum_lit_one]

theorem highpassSample_real_centre {eps : ℝ} (heps : 0 < eps) (fc : ℝ) (size : Nat) :
    highpassSample realNum eps fc size (centre size) = 1 - 2 * fc := by
  rw [highpassSample, if_pos rfl, sinc_real_centre heps, realNum_lit_one, realNum_lit_two]
  show -(2 * fc) * 1 + 1 = 1 - 2 * fc
  ring

/-- The products of the two formulas cancel, so only the 1 that `highpass` adds at the centre is left. -/
theorem lowpassSample_add_highpassSample_real (eps fc : ℝ) (size n : Nat) :
    lowpassSample realNum eps fc size n + highpassSample realNum eps fc size n =
      if n = centre size then 1 else 0 := by
  have hneg (a y : ℝ) : realNum.mul (realNum.neg a) y = -realNum.mul a y := neg_mul a y
  have hadd (x y : ℝ) : realNum.add x y = x + y := rfl
  rw [lowpassSample, highpassSample, hneg, hadd, realNum_lit_one]
  split <;> ring

/-! ## On binary64 (R12) -/

/-- `NUM = binary64` with another sine of the finite numbers than the free value of log 5. -/
def binary64WithSine (sine : Word → Word) : Numerics Word Word :=
  { binary64 with sin := fun a => if Fp.isFinite a = true then sine a else Fp.nan .sin a 0#64 }

/-- This hardware's numerics have the sine of log 5. -/
theorem binary64_eq_withSine : binary64 = binary64WithSine Config.sin64 := rfl

namespace Fp

/-- A finite number of at most `2^j` units. -/
def FiniteWithin (j : Nat) (a : Word) : Prop := isFinite a = true ∧ magUnits a ≤ 2 ^ j

theorem div_two_pow_lt {x m n k : Nat} (hx : x ≤ 2 ^ m) (h : m < n + k) : x / 2 ^ n < 2 ^ k := by
  refine Nat.div_lt_of_lt_mul (hx.trans_lt ?_)
  rw [← Nat.pow_add]
  exact Nat.pow_lt_pow_right Nat.one_lt_two h

theorem mul_two_pow_lt {x m n k : Nat} (hx : x < 2 ^ m) (h : k = m + n) : x * 2 ^ n < 2 ^ k := by
  rw [h, Nat.pow_add]
  exact Nat.mul_lt_mul_of_pos_right hx (Nat.two_pow_pos n)

/-- The product of two bounded numbers is finite, and its size is that of the exact product, but for the rounding. -/
theorem FiniteWithin.mul {i j k : Nat} {a b : Word} (ha : FiniteWithin i a) (hb : FiniteWithin j b) (hk : 53 ≤ k)
    (hk' : k ≤ 2000) (hij : i + j < 1074 + k) : FiniteWithin k (mul a b) := by
  rw [mul_finite ha.1 hb.1]
  have hprod : magUnits a * magUnits b ≤ 2 ^ (i + j) := by
    rw [Nat.pow_add]
    exact Nat.mul_le_mul ha.2 hb.2
  exact round_finite _ hk hk' (div_two_pow_lt hprod hij)

/-- An integer below 1024 in size, in units of `2^-1074`. -/
theorem finiteWithin_ofInt {z : Int} (hz : z.natAbs < 1024) : FiniteWithin 1084 (ofInt z) := by
  by_cases h0 : z = 0
  · have hzero : magBits (ofInt 0) ≤ (1084 - 51) * 2 ^ 52 := by decide
    rw [h0]
    exact finite_of_magBits_le (by omega) (by omega) hzero
  · rw [ofInt, if_neg h0]
    refine round_finite _ (by omega) (by omega) ?_
    rw [Nat.div_one]
    exact mul_two_pow_lt (m := 10) hz rfl

/-- A cutoff frequency is below 0.5, which is `2^1073` units. -/
theorem finiteWithin_of_cutoff {c : Word} (hc : CutoffOk binary64 c) : FiniteWithin 1073 c := by
  have hlt : c.toNat < 0x3FE0000000000000 := ((cutoff_iff c).1 hc).2
  refine finite_of_magBits_le (by omega) (by omega) ?_
  unfold magBits
  omega

theorem finiteWithin_two : FiniteWithin 1075 (lit .two) :=
  finite_of_magBits_le (by omega) (by omega) (by decide)

theorem finiteWithin_pi : FiniteWithin 1076 pi := finite_of_magBits_le (by omega) (by omega) (by decide)

/-- `π` times a number of at least one unit does not round to 0. -/
theorem isZero_pi_mul {p : Word} (hp : isFinite p = true) (h0 : magBits p ≠ 0) : isZero (mul pi p) = false := by
  have hpi : magUnits (lit .one) ≤ magUnits pi := by decide +kernel
  rw [magUnits_one] at hpi
  have hround : 0 < roundMag (magUnits pi * magUnits p) (2 ^ 1074) :=
    roundMag_pos (Nat.div_pos (hpi.trans (Nat.le_mul_of_pos_right _ (magUnits_pos h0))) (by positivity))
  rw [mul_finite finiteWithin_pi.1 hp, isZero, round, magBits_ofSignMag _ (roundMag_lt ..)]
  exact beq_eq_false_iff_ne.2 hround.ne'

/-- A number that is not below the threshold is not 0. -/
theorem magBits_ne_zero_of_not_lt_eps {p : Word} (h : ¬lt (abs p) (lit .eps) = true) : magBits p ≠ 0 := by
  intro h0
  rw [abs, h0] at h
  exact h (by decide)

end Fp

section
variable {sine : Word → Word} (hodd : ∀ t, Fp.isFinite t = true → sine (Fp.neg t) = Fp.neg (sine t))
  (hnan : ∀ t, Fp.isFinite t = true → Fp.isNaN (sine t) = false)
include hodd hnan

/-- Beyond the threshold the divisor of `sinc` is finite and not 0, and numerator and divisor both change their sign alone. -/
theorem sinc_withSine_neg {p : Word} (hp : Fp.FiniteWithin 1086 p) :
    sinc (binary64WithSine sine) (Fp.lit .eps) (Fp.neg p) = sinc (binary64WithSine sine) (Fp.lit .eps) p := by
  have hsinc (x : Word) : sinc (binary64WithSine sine) (Fp.lit .eps) x =
      if Fp.lt (Fp.abs x) (Fp.lit .eps) then Fp.lit .one
      else Fp.div ((binary64WithSine sine).sin (Fp.mul Fp.pi x)) (Fp.mul Fp.pi x) := rfl
  rw [hsinc, hsinc, Fp.abs_neg]
  split
  · rfl
  · next hlt =>
    have hq : Fp.FiniteWithin 1089 (Fp.mul Fp.pi p) :=
      Fp.finiteWithin_pi.mul hp (by omega) (by omega) (by omega)
    have hsin {t : Word} (ht : Fp.isFinite t = true) : (binary64WithSine sine).sin t = sine t := if_pos ht
    obtain ⟨hqn, hqi⟩ := (Fp.isFinite_iff _).1 hq.1
    rw [Fp.mul_neg Fp.finiteWithin_pi.1 hp.1, hsin (by rw [Fp.isFinite_neg, hq.1]), hsin hq.1, hodd _ hq.1]
    exact Fp.div_neg_neg (hnan _ hq.1) hqn hqi (Fp.isZero_pi_mul hp.1 (Fp.magBits_ne_zero_of_not_lt_eps hlt))

/-- For a cutoff and a size of this hardware no product on the way to `sinc` overflows. -/
theorem sincSymmetric_withSine {fc : Word} (hfc : CutoffOk binary64 fc) {size : Nat} (hsize : size ≤ 1023) :
    SincSymmetric (binary64WithSine sine) (Fp.lit .eps) (Fp.mul (Fp.lit .two) fc) size := by
  intro z hz
  by_cases h0 : z = 0
  · rw [h0, Int.neg_zero]
  · have ha : Fp.FiniteWithin 1075 (Fp.mul (Fp.lit .two) fc) :=
      Fp.finiteWithin_two.mul (Fp.finiteWithin_of_cutoff hfc) (by omega) (by omega) (by omega)
    have hx : Fp.FiniteWithin 1084 (Fp.ofInt z) := Fp.finiteWithin_ofInt (by omega)
    have hneg : Fp.mul (Fp.mul (Fp.lit .two) fc) (Fp.ofInt (-z)) =
        Fp.neg (Fp.mul (Fp.mul (Fp.lit .two) fc) (Fp.ofInt z)) := by
      rw [Fp.ofInt_neg h0, Fp.mul_neg ha.1 hx.1]
    exact (congrArg _ hneg).trans
      (sinc_withSine_neg hodd hnan (ha.mul hx (by omega) (by omega) (by omega)))

end

end Sys2Proof.Machine
end

section
/-! The statements of 41_window_filters.md: the formulas (R141 to R143) and their symmetry (R148, R161), and the windowed creates with their errors (R144 to R146, R149). -/

namespace Sys2Proof.Machine

/-! ## The formulas -/

/-- Settles O51: each sequence lists its samples. -/
theorem windowedSincFormulas : Obligations.WindowedSincFormulas := by
  rintro Cell α N eps fc fl fh size n hn x two rfl rfl
  exact ⟨lowpass_length .., highpass_length .., bandpass_length .., lowpass_getElem? N eps fc hn,
    highpass_getElem? N eps fc hn, bandpass_getElem? N eps fl fh hn⟩

/-- Settles O55: over the reals `sinc` and the cosine are even and the distances from the centre opposite; the two products of one cutoff cancel. -/
theorem realCoefficientLaws : Obligations.RealCoefficientLaws := by
  intro eps fc fl fh spectrum size heps hodd
  have hsym (c : ℝ) : SincSymmetric realNum eps (realNum.mul (realNum.lit .two) c) size :=
    sincSymmetric_real heps _ size
  have hcentre : centre size < size := by rw [centre]; omega
  refine ⟨lowpass_reverse hodd (hsym fc), highpass_reverse hodd (hsym fc), bandpass_reverse hodd (hsym fl) (hsym fh),
    freqsamp_reverse spectrum cos_freqAngle_real_reflect, ?_, ?_⟩
  · exact (highpass_getElem? realNum eps fc hcentre).trans
      (congrArg some (highpassSample_real_centre heps fc size))
  · rw [lowpass, highpass, List.zipWith_map, List.zipWith_self]
    exact List.map_congr_left fun n _ => lowpassSample_add_highpassSample_real eps fc size n

/-- Settles O58: the operations of binary64 on the way to `sinc` are finite for every filter that can be created, and each only changes its sign with the distance from the centre. -/
theorem binary64CoefficientsArePalindromic : Obligations.Binary64CoefficientsArePalindromic := by
  refine ⟨binary64_eq_withSine, ?_⟩
  rintro sine N rfl hsine hnan eps fc fl fh size rfl ⟨hodd, -, hmax⟩ hfc hfl hfh
  have hsym {c : Word} (hc : CutoffOk binary64 c) := sincSymmetric_withSine hsine hnan hc ((within_some _ _).1 hmax)
  exact ⟨lowpass_reverse hodd (hsym hfc), highpass_reverse hodd (hsym hfc),
    bandpass_reverse hodd (hsym hfl) (hsym hfh)⟩

/-! ## The creates -/

/-- What a create that passes its checks leaves, whatever the slot held. -/
theorem next_of_createFilter {Cell α : Type} {C : Configuration Cell α} {s : State.Of C} {f : Idx} (hf : f.toNat < C.NF)
    {p : FilterParams α} {wt : WindowType} {size : Nat} {o : OutcomeOf C} (ho : o = createFilter s f p wt size) :
    ∃ t, o = .next t ∧ t.err = .ok ∧ OnlyFilter f s t ∧
      t.filterAt f = some { wtype := wt, coeff := synth C p wt size, params := p } :=
  ⟨_, ho, rfl, onlyFilter_setFilter s f _, filterAt_setFilter_same s _ hf⟩

section
variable (s : State) (f : Idx) (n : SizeImm) (wt : WindowType)

theorem exec_lpfCreate : exec (.lpfCreate f n wt) s =
    validate s (checkSize n.toNat) (validate s (checkFrequencyRange binary64 s.arg0)
      (validate s (checkCapacity (some Config.MAXN) n.toNat) (createFilter s f (.lowpass s.arg0) wt n.toNat))) := rfl

theorem exec_hpfCreate : exec (.hpfCreate f n wt) s =
    validate s (checkSize n.toNat) (validate s (checkFrequencyRange binary64 s.arg0)
      (validate s (checkCapacity (some Config.MAXN) n.toNat) (createFilter s f (.highpass s.arg0) wt n.toNat))) := rfl

theorem exec_bpfCreate : exec (.bpfCreate f n wt) s =
    validate s (checkSize n.toNat) (validate s (checkFrequencyRange binary64 s.arg0)
      (validate s (checkFrequencyRange binary64 s.arg1) (validate s (checkFrequencyOrder binary64 s.arg0 s.arg1)
        (validate s (checkCapacity (some Config.MAXN) n.toNat)
          (createFilter s f (.bandpass s.arg0 s.arg1) wt n.toNat))))) := rfl

end

/-- Settles O28: the checks pass, and what is stored is the object of the formula, since the window type shapes nothing on this hardware. -/
theorem windowedCreates : Obligations.WindowedCreates := by
  rintro s f n wt hf ⟨hodd, hmin, hmax⟩ hlow
  have hsize : checkSize n.toNat = none := checkSize_none.2 ⟨hodd, hmin⟩
  have hcap : checkCapacity (some Config.MAXN) n.toNat = none := checkCapacity_none.2 hmax
  have hrange := (checkFrequencyRange_none binary64).2 hlow
  refine ⟨next_of_createFilter hf (p := .lowpass s.arg0) ?_, next_of_createFilter hf (p := .highpass s.arg0) ?_,
    fun hhigh horder => next_of_createFilter hf (p := .bandpass s.arg0 s.arg1) ?_⟩
  · simp only [exec_lpfCreate, hsize, hrange, hcap, validate_none]
  · simp only [exec_hpfCreate, hsize, hrange, hcap, validate_none]
  · have hrange' := (checkFrequencyRange_none binary64).2 hhigh
    have hpass := (checkFrequencyOrder_none binary64).2 horder
    simp only [exec_bpfCreate, hsize, hrange, hrange', hpass, hcap, validate_none]

/-- Settles O29: the checks stand in the order of R149, so the first that fails raises its error. -/
theorem createErrorsInOrder : Obligations.CreateErrorsInOrder := by
  intro s f n wt
  have hbound (h : Config.MAXN < n.toNat) : checkCapacity (some Config.MAXN) n.toNat = some .capacityExceeded :=
    checkCapacity_eq_some (mt (within_some _ _).1 (Nat.not_le.2 h))
  refine ⟨fun hn => ?_, fun hn h0 => ?_, fun hn h0 hcap => ?_, fun hn h0 h1 => ?_, fun hn h0 h1 hlt => ?_,
    fun hn h0 h1 hlt hcap => ?_⟩
  · have hsize := checkSize_eq_some hn
    simp only [exec_lpfCreate, exec_hpfCreate, exec_bpfCreate, hsize, validate_some]
    exact ⟨rfl, rfl, rfl⟩
  · have hsize := checkSize_none.2 hn
    have hrange := checkFrequencyRange_eq_some binary64 h0
    simp only [exec_lpfCreate, exec_hpfCreate, exec_bpfCreate, hsize, hrange, validate_none, validate_some]
    exact ⟨rfl, rfl, rfl⟩
  · have hsize := checkSize_none.2 hn
    have hrange := (checkFrequencyRange_none binary64).2 h0
    simp only [exec_lpfCreate, exec_hpfCreate, hsize, hrange, hbound hcap, validate_none, validate_some]
    exact ⟨rfl, rfl⟩
  all_goals
    have hsize := checkSize_none.2 hn
    have hrange := (checkFrequencyRange_none binary64).2 h0
    rw [exec_bpfCreate, hsize, hrange, validate_none, validate_none]
  · rw [checkFrequencyRange_eq_some binary64 h1]
    rfl
  · rw [(checkFrequencyRange_none binary64).2 h1, checkFrequencyOrder_eq_some binary64 (Bool.eq_false_iff.1 hlt)]
    rfl
  · rw [(checkFrequencyRange_none binary64).2 h1, (checkFrequencyOrder_none binary64).2 hlt, hbound hcap]
    rfl

end Sys2Proof.Machine
end

section
/-! The laws the statements of 42_frequency_sampling.md and R171 need: the samples of the frequency-sampling formula and of the windows, and what FS.CREATE and FS.GETSPEC come down to once their operands are read (R162, R163). -/

namespace Sys2Proof.Machine

section
variable {Cell α : Type} (N : Numerics Cell α)

/-! ## Samples (R161, R171) -/

theorem window_getElem? (t : WindowType) {size n : Nat} (h : n < size) :
    (window N t size)[n]? = some (windowSample N t size n) := by
  rw [window, List.getElem?_map, List.getElem?_range h, Option.map_some]

/-- The samples of a spectrum after its first, with their indices, listed by index. -/
theorem zipIdx_one_eq_map_range' (s0 : α) (rest : List α) (d : α) :
    rest.zipIdx 1 = (List.range' 1 rest.length).map fun k => ((s0 :: rest).getD k d, k) := by
  refine List.ext_getElem (by simp) fun n hn _ => ?_
  have hrest : n < rest.length := by simpa using hn
  simp [Nat.add_comm 1 n, hrest]

/-- R161's sum runs over `k = 1, …, K - 1`, ascending. -/
theorem freqAcc_eq_foldl_range' (s0 : α) (rest : List α) (size n : Nat) :
    freqAcc N rest size n = (List.range' 1 rest.length).foldl (fun acc k =>
      N.add acc (N.mul ((s0 :: rest).getD k (N.ofInt 0)) (N.cos (freqAngle N size k n)))) (N.ofInt 0) := by
  rw [freqAcc, zipIdx_one_eq_map_range' s0 rest (N.ofInt 0), List.foldl_map]

/-- The centre of a sequence of `2K + 1` samples is sample `K`. -/
theorem centre_two_mul_add_one (K : Nat) : centre (2 * K + 1) = K := by
  rw [centre]
  omega

theorem freqsamp_cons_getElem? (s0 : α) (rest : List α) {n : Nat} (h : n < 2 * (rest.length + 1) + 1) :
    (freqsamp N (s0 :: rest))[n]? = some (N.div
      (N.add s0 (N.mul (N.lit .two) (freqAcc N rest (2 * (rest.length + 1) + 1) n)))
      (N.ofInt ((2 * (rest.length + 1) + 1 : Nat) : Int))) := by
  rw [freqsamp, List.getElem?_map, List.getElem?_range h, Option.map_some]

end

/-! ## The commands (R162, R163) -/

/-- The size `2K + 1` is odd; it passes unless the spectrum is empty (R162). -/
theorem checkSize_two_mul_length_add_one {α : Type} {xs : List α} :
    checkSize (2 * xs.length + 1) = none ↔ xs ≠ [] := by
  rw [checkSize_none, ← List.length_pos_iff]
  omega

section
variable {Cell α : Type} {C : Configuration Cell α} {s : State.Of C} (f b : Idx)

/-- `FS.CREATE` of a readable spectrum is its two validations and the creation (R162). -/
theorem execOf_fsCreate {xs : List α} (hx : s.seq b = some xs) : execOf (.fsCreate f b) s =
    validate s (checkSize (2 * xs.length + 1)) (validate s (checkCapacity C.MAXN (2 * xs.length + 1))
      (createFilter s f (.freqSampling xs) .rectangular (2 * xs.length + 1))) :=
  withSeq_some s hx _

/-- `FS.GETSPEC` of a frequency-sampling filter writes the stored spectrum (R163). -/
theorem execOf_fsGetspec_freqSampling {v : Filter α} {xs : List α} (hv : s.filterAt f = some v)
    (hp : v.params = .freqSampling xs) : execOf (.fsGetspec b f) s = complete (s.writeBuf b xs) := by
  refine (withFilter_some s hv _).trans ?_
  rw [hp]

/-- `FS.GETSPEC` of a filter that stores no spectrum is an error, whichever of the three variants it has (R163). -/
theorem execOf_fsGetspec_of_ne {v : Filter α} (hv : s.filterAt f = some v) (hp : ∀ xs, v.params ≠ .freqSampling xs) :
    execOf (.fsGetspec b f) s = raise .wrongVariant s := by
  refine (withFilter_some s hv _).trans ?_
  cases h : v.params with
  | lowpass _ => rfl
  | highpass _ => rfl
  | bandpass _ _ => rfl
  | freqSampling xs => exact absurd h (hp xs)

end

end Sys2Proof.Machine
end

section
/-! The statements of 42_frequency_sampling.md: the formula (R161), beside that of the windows (R171), and the two commands (R162, R163). -/

namespace Sys2Proof.Machine

/-- Settles O30: a size `2K + 1` fails the first test for `K = 0` alone; one above the capacity passes it and fails the second. -/
theorem frequencySamplingCreate : Obligations.FrequencySamplingCreate := by
  intro s f b xs hf hx
  rw [exec_eq_execOf, execOf_fsCreate f b hx]
  refine ⟨fun hxs => ?_, fun hcap => ?_, fun hxs hcap => ?_⟩
  · subst hxs
    rfl
  · have hxs : xs ≠ [] := by
      rintro rfl
      exact absurd hcap (by decide)
    have hexceeds : checkCapacity hardware.MAXN (2 * xs.length + 1) = some .capacityExceeded :=
      checkCapacity_eq_some (mt (within_some _ _).1 (Nat.not_le.2 hcap))
    rw [checkSize_two_mul_length_add_one.2 hxs, hexceeds]
    rfl
  · have hfits : checkCapacity hardware.MAXN (2 * xs.length + 1) = none :=
      checkCapacity_none.2 ((within_some _ _).2 hcap)
    rw [checkSize_two_mul_length_add_one.2 hxs, hfits, validate_none, validate_none]
    obtain ⟨t, ht, herr, honly, hslot⟩ := next_of_createFilter (C := hardware) hf rfl
    exact ⟨t, ht, herr, honly, hslot, freqsamp_length binary64 hxs⟩

/-- Settles O52: both sequences list their samples; R161's sum takes the spectrum by index, and the centre of `2K + 1` samples is `K`. -/
theorem frequencySamplingAndWindowFormulas : Obligations.FrequencySamplingAndWindowFormulas := by
  constructor
  · rintro Cell α N S size hS rfl
    refine ⟨freqsamp_length N hS, fun n hn => ?_⟩
    cases S with
    | nil => exact absurd rfl hS
    | cons s0 rest =>
      rw [freqsamp_cons_getElem? N s0 rest hn, freqAcc_eq_foldl_range' N s0]
      simp only [freqAngle, offset, centre_two_mul_add_one]
      rfl
  · rintro Cell α N size n hn x rfl
    exact ⟨fun t => window_length N t size, window_getElem? N .rectangular hn, window_getElem? N .hamming hn,
      window_getElem? N .hanning hn, window_getElem? N .blackman hn⟩

/-- Settles O31: the stored spectrum is written to the buffer; the other variants store none. -/
theorem getspecCopiesTheSpectrum : Obligations.GetspecCopiesTheSpectrum := by
  intro s b f v hb hv
  rw [exec_eq_execOf]
  refine ⟨fun xs hp => ?_, execOf_fsGetspec_of_ne f b hv⟩
  exact ⟨_, execOf_fsGetspec_freqSampling f b hv hp, rfl, bufferHolds_hardware s xs hb, rfl,
    buffersBut_writeBuf s b xs rfl⟩

end Sys2Proof.Machine
end

section
/-! The laws the statements of 43_window.md need: the samples of a window over the reals (R171, R11), what WIN.CREATE, WIN.APPLY and WIN.APPLYIP come down to once their operands are read (R172, R174, R175), and that a command of one family of slots answers the same whatever the other family holds (R38, R170). -/

namespace Sys2Proof.Machine

/-! ## Windows over the reals (R171) -/

/-- A sample of a window over the reals, by the cosine `c` of its angle; the cosine of the doubled angle is `2c² - 1`. -/
noncomputable def realWindowAt (t : WindowType) (c : ℝ) : ℝ :=
  match t with
  | .rectangular => 1
  | .hamming => 54 / 100 - 46 / 100 * c
  | .hanning => 1 / 2 * (1 - c)
  | .blackman => 42 / 100 - 1 / 2 * c + 8 / 100 * (2 * c ^ 2 - 1)

theorem windowSample_real (t : WindowType) (size n : Nat) :
    windowSample realNum t size n = realWindowAt t (Real.cos (windowAngle realNum size n)) := by
  cases t with
  | rectangular => exact realNum_lit_one
  | hamming =>
    show ((54 : ℕ) : ℝ) / 10 ^ 2 - ((46 : ℕ) : ℝ) / 10 ^ 2 * Real.cos _ = 54 / 100 - 46 / 100 * Real.cos _
    norm_num
  | hanning =>
    show ((5 : ℕ) : ℝ) / 10 ^ 1 * (realNum.lit .one - Real.cos _) = 1 / 2 * (1 - Real.cos _)
    rw [realNum_lit_one]
    norm_num
  | blackman =>
    show ((42 : ℕ) : ℝ) / 10 ^ 2 - ((50 : ℕ) : ℝ) / 10 ^ 2 * Real.cos _ +
        ((8 : ℕ) : ℝ) / 10 ^ 2 * Real.cos (realNum.lit .two * _) =
      42 / 100 - 1 / 2 * Real.cos _ + 8 / 100 * (2 * Real.cos _ ^ 2 - 1)
    rw [realNum_lit_two, Real.cos_two_mul]
    norm_num

/-- Every window is 1 where the cosine is -1. -/
theorem realWindowAt_neg_one (t : WindowType) : realWindowAt t (-1) = 1 := by
  cases t <;> norm_num [realWindowAt]

section
variable {size : Nat} (hsize : 2 ≤ size)
include hsize

theorem windowAngle_real (n : Nat) : windowAngle realNum size n = 2 * Real.pi * n / (size - 1) := by
  have hdiv : realNum.ofInt ((size : Int) - 1) ≠ 0 := Int.cast_ne_zero.2 (by omega)
  rw [windowAngle, realNum_div hdiv, twoPi, realNum_lit_two]
  show 2 * Real.pi * ((n : Int) : ℝ) / (((size : Int) - 1 : Int) : ℝ) = _
  push_cast
  rfl

/-- The angles of samples `n` and `size - 1 - n` add up to a full turn. -/
theorem cos_windowAngle_real_reflect {n : Nat} (hn : n < size) :
    Real.cos (windowAngle realNum size (size - 1 - n)) = Real.cos (windowAngle realNum size n) := by
  have hdiv : (size : ℝ) - 1 ≠ 0 := sub_ne_zero.2 (Nat.cast_ne_one.2 (by omega))
  have hcast : ((size - 1 - n : Nat) : ℝ) = size - 1 - n := by
    rw [Nat.cast_sub (by omega), Nat.cast_sub (by omega), Nat.cast_one]
  have hturn : windowAngle realNum size (size - 1 - n) = 2 * Real.pi - windowAngle realNum size n := by
    rw [windowAngle_real hsize, windowAngle_real hsize, hcast]
    field_simp
  rw [hturn, Real.cos_two_pi_sub]

/-- The first sample stands at the angle 0. -/
theorem cos_windowAngle_real_zero : Real.cos (windowAngle realNum size 0) = 1 := by
  rw [windowAngle_real hsize, Nat.cast_zero, mul_zero, zero_div, Real.cos_zero]

/-- The centre of an odd size stands at half a turn. -/
theorem cos_windowAngle_real_centre (hodd : size % 2 = 1) :
    Real.cos (windowAngle realNum size (centre size)) = -1 := by
  obtain ⟨m, rfl⟩ : ∃ m, size = 2 * m + 1 := ⟨size / 2, by omega⟩
  have hm : (m : ℝ) ≠ 0 := Nat.cast_ne_zero.2 (by omega)
  have hpi : windowAngle realNum (2 * m + 1) m = Real.pi := by
    rw [windowAngle_real hsize]
    push_cast
    field_simp
    ring
  rw [centre_two_mul_add_one, hpi, Real.cos_pi]

end

/-! ## The commands (R172, R174, R175) -/

theorem exec_winCreate (s : State) (w : Idx) (n : SizeImm) (wt : WindowType) : exec (.winCreate w n wt) s =
    validate s (checkSize n.toNat) (validate s (checkCapacity (some Config.MAXN) n.toNat)
      (complete (s.setWindow w (some { wtype := wt, coeff := window binary64 wt n.toNat })))) := rfl

theorem exec_winApply (s : State) (b w c : Idx) :
    exec (.winApply b w c) s = withApply s w c fun ys => complete (s.writeBuf b ys) := rfl

theorem exec_winApplyip (s : State) (b w : Idx) :
    exec (.winApplyip b w) s = withApply s w b fun ys => complete ((s.writeBuf b ys).setResNat ys.length) := rfl

section
variable {Cell α : Type} {C : Configuration Cell α} {s : State.Of C} {w c : Idx} {v : Window α} {xs : List α}
  (hv : s.windowAt w = some v) (hx : s.seq c = some xs) (k : List α → OutcomeOf C)
include hv hx

/-- A signal of the window's length goes on as the products (R174, R175). -/
theorem withApply_of_length_eq (hl : xs.length = v.coeff.length) :
    withApply s w c k = k (pointwise C.num xs v.coeff) := by
  rw [withApply, withWindow_some s hv, withSeq_some s hx, beq_iff_eq.2 hl, require_true]

/-- A signal of another length is an error (R174, R175, R202). -/
theorem withApply_of_length_ne (hl : xs.length ≠ v.coeff.length) :
    withApply s w c k = raise .mismatchedSize s := by
  rw [withApply, withWindow_some s hv, withSeq_some s hx, beq_eq_false_iff_ne.2 hl, require_false]

end

/-! ## Independence of the two families of slots (R38, R170) -/

section
variable {Cell α : Type} {C : Configuration Cell α}

/-- All filter slots replaced. -/
def State.Of.setFilters (fs : Vector (Option (Filter α)) C.NF) (s : State.Of C) : State.Of C :=
  { s with filters := fs }

/-- All window slots replaced. -/
def State.Of.setWindows (ws : Vector (Option (Window α)) C.NW) (s : State.Of C) : State.Of C :=
  { s with windows := ws }

/-- The second answer is the first with the change `g` made to its state: both go on, or both are refused for one reason. -/
inductive Tracks (g : State.Of C → State.Of C) : OutcomeOf C → OutcomeOf C → Prop where
  | next (t : State.Of C) : Tracks g (.next t) (.next (g t))
  | refused (r : Refusal) : Tracks g (.refused r) (.refused r)

/-- The inversion of `Tracks` at a next state. -/
theorem Tracks.eq_next {g : State.Of C → State.Of C} {o o' : OutcomeOf C} (h : Tracks g o o') {t : State.Of C}
    (ho : o = .next t) : o' = .next (g t) := by
  subst ho
  cases h
  rfl

/-- The change `g` touches neither the status nor a buffer. -/
structure KeepsStatusAndBuffers (g : State.Of C → State.Of C) : Prop where
  setErr : ∀ s e, g (s.setErr e) = (g s).setErr e
  cells : ∀ s b, (g s).cells b = s.cells b

theorem keepsStatusAndBuffers_setFilters (fs : Vector (Option (Filter α)) C.NF) :
    KeepsStatusAndBuffers (State.Of.setFilters (C := C) fs) := ⟨fun _ _ => rfl, fun _ _ => rfl⟩

theorem keepsStatusAndBuffers_setWindows (ws : Vector (Option (Window α)) C.NW) :
    KeepsStatusAndBuffers (State.Of.setWindows (C := C) ws) := ⟨fun _ _ => rfl, fun _ _ => rfl⟩

section
variable {g : State.Of C → State.Of C} (hg : KeepsStatusAndBuffers g) {s : State.Of C}

theorem tracks_withNum {c : Cell} {k k' : α → OutcomeOf C} (h : ∀ x, Tracks g (k x) (k' x)) :
    Tracks g (withNum c k) (withNum c k') := by
  unfold withNum
  split
  · exact .refused _
  · exact h _

include hg

theorem tracks_raise (e : Status) : Tracks g (raise e s) (raise e (g s)) := by
  unfold raise
  rw [← hg.setErr]
  exact .next _

theorem tracks_validate {v : Option Status} {k k' : OutcomeOf C} (h : Tracks g k k') :
    Tracks g (validate s v k) (validate (g s) v k') := by
  cases v with
  | none => exact h
  | some e => exact tracks_raise hg e

theorem tracks_require {c : Bool} {e : Status} {k k' : OutcomeOf C} (h : Tracks g k k') :
    Tracks g (require s c e k) (require (g s) c e k') := by
  cases c with
  | true => exact h
  | false => exact tracks_raise hg e

theorem tracks_withSeq {b : Idx} {k k' : List α → OutcomeOf C} (h : ∀ xs, Tracks g (k xs) (k' xs)) :
    Tracks g (withSeq s b k) (withSeq (g s) b k') := by
  unfold withSeq
  rw [hg.cells]
  split
  · exact .refused _
  · split
    · exact .refused _
    · exact h _

theorem tracks_withFilter {f : Idx} (hf : (g s).filterAt f = s.filterAt f) {k k' : Filter α → OutcomeOf C}
    (h : ∀ v, Tracks g (k v) (k' v)) : Tracks g (withFilter s f k) (withFilter (g s) f k') := by
  unfold withFilter
  rw [hf]
  split
  · exact tracks_raise hg _
  · exact h _

theorem tracks_withWindow {w : Idx} (hw : (g s).windowAt w = s.windowAt w) {k k' : Window α → OutcomeOf C}
    (h : ∀ v, Tracks g (k v) (k' v)) : Tracks g (withWindow s w k) (withWindow (g s) w k') := by
  unfold withWindow
  rw [hw]
  split
  · exact tracks_raise hg _
  · exact h _

end

/-- A command of the window family, whose opcodes are those from 0x30 on (R74), neither reads nor writes a filter slot. -/
theorem tracks_execOf_setFilters {i : Instr} (hi : 0x30 ≤ i.opcode) (fs : Vector (Option (Filter α)) C.NF)
    (s : State.Of C) : Tracks (State.Of.setFilters fs) (execOf i s) (execOf i (s.setFilters fs)) := by
  have hg := keepsStatusAndBuffers_setFilters (C := C) fs
  have read {w : Idx} {k k' : Window α → OutcomeOf C} (h : ∀ v, Tracks (State.Of.setFilters fs) (k v) (k' v)) :
      Tracks (State.Of.setFilters fs) (withWindow s w k) (withWindow (s.setFilters fs) w k') :=
    tracks_withWindow hg rfl h
  cases i with
  | winCreate w n wt => exact tracks_validate hg (tracks_validate hg (.next _))
  | winSetwtype w wt => exact read fun _ => .next _
  | winApply b w c => exact read fun _ => tracks_withSeq hg fun _ => tracks_require hg (.next _)
  | winApplyip b w => exact read fun _ => tracks_withSeq hg fun _ => tracks_require hg (.next _)
  | winGetcoef b w => exact read fun _ => .next _
  | winGetsize w => exact read fun _ => .next _
  | winGetwtype w => exact read fun _ => .next _
  | winEq w v => exact read fun _ => read fun _ => .next _
  | winNe w v => exact read fun _ => read fun _ => .next _
  | winFree w => exact read fun _ => .next _
  | _ => simp [Instr.opcode] at hi

/-- Any other command neither reads nor writes a window slot. -/
theorem tracks_execOf_setWindows {i : Instr} (hi : i.opcode < 0x30) (ws : Vector (Option (Window α)) C.NW)
    (s : State.Of C) : Tracks (State.Of.setWindows ws) (execOf i s) (execOf i (s.setWindows ws)) := by
  have hg := keepsStatusAndBuffers_setWindows (C := C) ws
  have read {f : Idx} {k k' : Filter α → OutcomeOf C} (h : ∀ v, Tracks (State.Of.setWindows ws) (k v) (k' v)) :
      Tracks (State.Of.setWindows ws) (withFilter s f k) (withFilter (s.setWindows ws) f k') :=
    tracks_withFilter hg rfl h
  cases i with
  | chkfreq => exact tracks_withNum fun _ => tracks_validate hg (.next _)
  | chkord => exact tracks_withNum fun _ => tracks_withNum fun _ => tracks_validate hg (.next _)
  | chksize n => exact tracks_validate hg (.next _)
  | sinc => exact tracks_withNum fun _ => .next _
  | setcoef f b => exact read fun _ => tracks_withSeq hg fun _ => tracks_require hg (.next _)
  | norm f => exact read fun _ => tracks_require hg (.next _)
  | getcoef b f => exact read fun _ => .next _
  | getsize f => exact read fun _ => .next _
  | gettype f => exact read fun _ => .next _
  | getwtype f => exact read fun _ => .next _
  | setwtype f wt => exact read fun _ => .next _
  | conv b f c =>
    exact read fun _ => tracks_withSeq hg fun _ => tracks_require hg (tracks_validate hg (.next _))
  | convip b f =>
    exact read fun _ => tracks_withSeq hg fun _ => tracks_require hg (tracks_validate hg (.next _))
  | feq f g => exact read fun _ => read fun _ => .next _
  | fne f g => exact read fun _ => read fun _ => .next _
  | ffree f => exact read fun _ => .next _
  | lpfCreate f n wt =>
    exact tracks_withNum fun _ => tracks_validate hg (tracks_validate hg (tracks_validate hg (.next _)))
  | hpfCreate f n wt =>
    exact tracks_withNum fun _ => tracks_validate hg (tracks_validate hg (tracks_validate hg (.next _)))
  | bpfCreate f n wt =>
    exact tracks_withNum fun _ => tracks_withNum fun _ => tracks_validate hg (tracks_validate hg (tracks_validate hg
      (tracks_validate hg (tracks_validate hg (.next _)))))
  | fsCreate f b => exact tracks_withSeq hg fun _ => tracks_validate hg (tracks_validate hg (.next _))
  | fsGetspec b f =>
    refine read fun v => ?_
    cases v.params with
    | freqSampling _ => exact .next _
    | lowpass _ => exact tracks_raise hg _
    | highpass _ => exact tracks_raise hg _
    | bandpass _ _ => exact tracks_raise hg _
  | _ => simp [Instr.opcode] at hi

end

end Sys2Proof.Machine
end

section
/-! The statements of 43_window.md: the windows over the reals (R171), the commands of the window family (R172 to R178), and the independence of filter slots and window slots (R38, R170). -/

namespace Sys2Proof.Machine

/-- Settles O33: the products are computed whole before the buffer is written, so the two buffers may be one. -/
theorem windowApplyMultipliesElementwise : Obligations.WindowApplyMultipliesElementwise := by
  intro s b w c v hv
  refine ⟨?_, ?_, fun xs hx hl => ?_, fun xs hx hl => ?_⟩
  · rintro xs ys hb hx hl rfl
    have hlen := pointwise_length binary64 hl
    exact ⟨_, (exec_winApply s b w c).trans (withApply_of_length_eq hv hx _ hl), rfl, bufferHolds_hardware s _ hb, rfl,
      buffersBut_writeBuf s b _ hlen.symm⟩
  · rintro xs ys hb hx hl rfl
    have hlen := pointwise_length binary64 hl
    exact ⟨_, (exec_winApplyip s b w).trans (withApply_of_length_eq hv hx _ hl), rfl, bufferHolds_hardware s _ hb,
      congrArg zext64 hlen, rfl, buffersBut_writeBuf s b _ hlen.symm⟩
  · exact (exec_winApply s b w c).trans (withApply_of_length_ne hv hx _ hl)
  · exact (exec_winApplyip s b w).trans (withApply_of_length_ne hv hx _ hl)

/-- Settles O47: no command looks at the slots of the other family, so replacing them changes its answer in them alone. -/
theorem filtersAndWindowsAreIndependent : Obligations.FiltersAndWindowsAreIndependent := by
  intro i s t fs ws h
  rw [exec_eq_execOf] at h
  refine ⟨fun hi => ?_, fun hi => ?_⟩
  · rw [exec_eq_execOf]
    exact (tracks_execOf_setFilters hi fs s).eq_next h
  · rw [exec_eq_execOf]
    exact (tracks_execOf_setWindows hi ws s).eq_next h

/-- Settles O56: over the reals a sample goes by the cosine of its angle, which is 1 at the ends, -1 at the centre and the same at samples `n` and `size - 1 - n`. -/
theorem realWindowShape : Obligations.RealWindowShape := by
  intro t size hodd hmin
  have hsize : 2 ≤ size := by omega
  have hcentre : centre size < size := by rw [centre]; omega
  refine ⟨window_length realNum t size, reverse_map_range fun n hn => ?_, ?_, ?_⟩
  · rw [windowSample_real, windowSample_real, cos_windowAngle_real_reflect hsize hn]
  · refine (window_getElem? realNum t hcentre).trans (congrArg some ?_)
    rw [windowSample_real, cos_windowAngle_real_centre hsize hodd, realWindowAt_neg_one]
  · rw [window_getElem? realNum t (by omega), windowSample_real, cos_windowAngle_real_zero hsize]
    cases t <;> norm_num [realWindowAt]

/-- Settles O32: the checks stand in the order of R172, and each of the two commands writes the window of its type and size. -/
theorem windowCreateAndRetype : Obligations.WindowCreateAndRetype := by
  intro s w n wt
  refine ⟨?_, fun hn => ?_, fun hn hcap => ?_, fun v hv => ?_⟩
  · rintro hw ⟨hodd, hmin, hmax⟩
    have hcreate : exec (.winCreate w n wt) s =
        complete (s.setWindow w (some { wtype := wt, coeff := window binary64 wt n.toNat })) := by
      rw [exec_winCreate, checkSize_none.2 ⟨hodd, hmin⟩, checkCapacity_none.2 hmax, validate_none, validate_none]
    exact ⟨_, hcreate, rfl, onlyWindow_setWindow s w _, windowAt_setWindow_same s _ hw⟩
  · rw [exec_winCreate, checkSize_eq_some hn]
    rfl
  · rw [exec_winCreate, checkSize_none.2 hn, checkCapacity_eq_some (mt (within_some _ _).1 (Nat.not_le.2 hcap))]
    rfl
  · obtain ⟨t, ht, herr, hslot, honly⟩ := next_of_complete_setWindow hv
      (show exec (.winSetwtype w wt) s = _ from withWindow_some s hv _)
    exact ⟨t, ht, herr, honly, hslot⟩

/-- Settles O34: each accessor completes with what it reads of the window. -/
theorem windowAccessors : Obligations.WindowAccessors := by
  intro s b w v hb hv
  refine ⟨?_, withWindow_some s hv _, ?_⟩
  · exact ⟨_, withWindow_some s hv _, rfl, bufferHolds_hardware s v.coeff hb, rfl, buffersBut_writeBuf s b v.coeff rfl⟩
  · obtain ⟨wtype, coeff⟩ := v
    cases wtype <;> exact withWindow_some s hv _

end Sys2Proof.Machine
end

section
/-! The laws of errors the statements of 60_exceptions.md need: what a write of an illegal word to `CMD` does (R205), which commands find their objects (R206), how a command can answer (R209, R214), and where the status a step leaves comes from (R22). -/

namespace Sys2Proof.Machine

/-! ## Illegal words (R73, R205) -/

/-- A step that writes to `CMD` a word that decodes to no command leaves IllegalCommand. -/
theorem step_illegal_word {w : Word} {s : State} {rest : List (Transaction Word)}
    (hp : s.pending = .regWrite 0 w :: rest) (h : ∀ i, decode w ≠ .ok i) :
    step s = .next { s with pending := rest, err := .illegalCommand } := by
  rw [step_cons hp]
  rcases command_cases (C := hardware) exec w { s with pending := rest } with he | ⟨i, hi, -⟩
  · exact he
  · exact absurd hi (h i)

section
variable {Cell α : Type} {C : Configuration Cell α} {s : State.Of C}

/-! ## Commands that need no object (R206) -/

/-- Where the answer goes on, its status is not `NoObject`. -/
def NeverNoObject (o : OutcomeOf C) : Prop := ∀ t, o = .next t → t.err ≠ .noObject

theorem neverNoObject_refused (r : Refusal) : NeverNoObject (.refused r : OutcomeOf C) := fun _ ht => nomatch ht

theorem neverNoObject_raise {e : Status} (he : e ≠ .noObject) : NeverNoObject (raise e s) := by
  intro t ht
  rwa [(raise_next s e t).1 ht, State.Of.setErr_err]

theorem neverNoObject_complete (s : State.Of C) : NeverNoObject (complete s) := neverNoObject_raise (s := s) (by decide)

theorem neverNoObject_withNum {c : Cell} {k : α → OutcomeOf C} (h : ∀ x, NeverNoObject (k x)) :
    NeverNoObject (withNum c k) := by
  rcases withNum_cases c k with ⟨-, he⟩ | ⟨x, -, he⟩ <;> rw [he]
  · exact neverNoObject_refused _
  · exact h x

theorem neverNoObject_withSeq {b : Idx} {k : List α → OutcomeOf C} (h : ∀ xs, NeverNoObject (k xs)) :
    NeverNoObject (withSeq s b k) := by
  rcases withSeq_cases s b k with ⟨-, he⟩ | ⟨-, -, -, he⟩ | ⟨xs, -, he⟩ <;> rw [he]
  · exact neverNoObject_refused _
  · exact neverNoObject_refused _
  · exact h xs

/-- A validation that can raise one error alone, another one, does not raise `NoObject`. -/
theorem neverNoObject_validate {v : Option Status} {e : Status} (honly : ∀ {e'}, v = some e' → e' = e)
    (he : e ≠ .noObject) {k : OutcomeOf C} (h : NeverNoObject k) : NeverNoObject (validate s v k) := by
  rcases validate_cases s v k with ⟨-, hk⟩ | ⟨e', hv, hk⟩ <;> rw [hk]
  · exact h
  · exact neverNoObject_raise (honly hv ▸ he)

theorem neverNoObject_checkSize {n : Nat} {k : OutcomeOf C} (h : NeverNoObject k) :
    NeverNoObject (validate s (checkSize n) k) := neverNoObject_validate checkSize_some (by decide) h

theorem neverNoObject_checkFrequencyRange {c : α} {k : OutcomeOf C} (h : NeverNoObject k) :
    NeverNoObject (validate s (checkFrequencyRange C.num c) k) :=
  neverNoObject_validate (checkFrequencyRange_some C.num) (by decide) h

theorem neverNoObject_checkFrequencyOrder {lo hi : α} {k : OutcomeOf C} (h : NeverNoObject k) :
    NeverNoObject (validate s (checkFrequencyOrder C.num lo hi) k) :=
  neverNoObject_validate (checkFrequencyOrder_some C.num) (by decide) h

theorem neverNoObject_checkCapacity {c : Option Nat} {n : Nat} {k : OutcomeOf C} (h : NeverNoObject k) :
    NeverNoObject (validate s (checkCapacity c n) k) :=
  neverNoObject_validate (fun he => (checkCapacity_some he).1) (by decide) h

theorem neverNoObject_createOneCutoff (f : Idx) (n : SizeImm) (wt : WindowType) (p : α → FilterParams α) :
    NeverNoObject (createOneCutoff s f n wt p) :=
  neverNoObject_withNum fun _ => neverNoObject_checkSize <| neverNoObject_checkFrequencyRange <|
    neverNoObject_checkCapacity <| neverNoObject_complete _

theorem neverNoObject_execBpfCreate (f : Idx) (n : SizeImm) (wt : WindowType) (s : State.Of C) :
    NeverNoObject (execBpfCreate f n wt s) :=
  neverNoObject_withNum fun _ => neverNoObject_withNum fun _ => neverNoObject_checkSize <|
    neverNoObject_checkFrequencyRange <| neverNoObject_checkFrequencyRange <| neverNoObject_checkFrequencyOrder <|
    neverNoObject_checkCapacity <| neverNoObject_complete _

theorem neverNoObject_execFsCreate (f b : Idx) (s : State.Of C) : NeverNoObject (execFsCreate f b s) :=
  neverNoObject_withSeq fun _ => neverNoObject_checkSize <| neverNoObject_checkCapacity <| neverNoObject_complete _

theorem neverNoObject_execWinCreate (w : Idx) (n : SizeImm) (wt : WindowType) (s : State.Of C) :
    NeverNoObject (execWinCreate w n wt s) :=
  neverNoObject_checkSize <| neverNoObject_checkCapacity <| neverNoObject_complete _

/-! ## Commands that compare two objects (R206) -/

/-- The second of two filters a command reads is missed where the first is not (R206). -/
theorem withFilter_withFilter_none {f : Idx} (h : s.filterAt f = none) (g : Idx)
    (k : Filter α → Filter α → OutcomeOf C) :
    (withFilter s g fun u => withFilter s f (k u)) = raise .noObject s := by
  rcases withFilter_cases s g fun u => withFilter s f (k u) with ⟨-, he⟩ | ⟨u, -, he⟩ <;> rw [he]
  exact withFilter_none s h _

/-- The second of two windows a command reads is missed where the first is not (R206). -/
theorem withWindow_withWindow_none {w : Idx} (h : s.windowAt w = none) (v : Idx)
    (k : Window α → Window α → OutcomeOf C) :
    (withWindow s v fun x => withWindow s w (k x)) = raise .noObject s := by
  rcases withWindow_cases s v fun x => withWindow s w (k x) with ⟨-, he⟩ | ⟨x, -, he⟩ <;> rw [he]
  exact withWindow_none s h _

/-! ## How a command can answer (R209, R214) -/

/-- A command answers a next state, or is refused for an operand it cannot read. -/
theorem execOf_next_or_refused (i : Instr) (s : State.Of C) :
    (∃ t, execOf i s = .next t) ∨ ∃ r, Unreadable s r ∧ execOf i s = .refused r := by
  have h := execOf_endsBy i s
  generalize execOf i s = o at h
  cases h with
  | done t _ => exact .inl ⟨_, rfl⟩
  | error e _ => exact .inl ⟨_, rfl⟩
  | refused r hr => exact .inr ⟨r, hr, rfl⟩

/-- The two reasons an operand cannot be read (R41, R13). -/
theorem Unreadable.reason {r : Refusal} (h : Unreadable s r) : r = .unwrittenElement ∨ r = .notANumber := by
  cases h with
  | unwritten => exact .inl rfl
  | sequence => exact .inr rfl
  | argument => exact .inr rfl

/-- Where every buffer and both arguments are numbers, every operand can be read. -/
theorem not_unreadable (hseq : ∀ b : Idx, ∃ xs, s.seq b = some xs) (h0 : ∃ x, C.num.ofBits s.arg0 = some x)
    (h1 : ∃ x, C.num.ofBits s.arg1 = some x) (r : Refusal) : ¬Unreadable s r := by
  intro hr
  cases hr with
  | unwritten b h =>
    obtain ⟨xs, hx⟩ := hseq b
    simp [State.Of.seq, h] at hx
  | sequence b cs h h' =>
    obtain ⟨xs, hx⟩ := hseq b
    simp [State.Of.seq, h, h'] at hx
  | argument c h h' =>
    rcases h with rfl | rfl
    · exact h0.elim fun x hx => nomatch h'.symm.trans hx
    · exact h1.elim fun x hx => nomatch h'.symm.trans hx

/-- The status of a command's answer: `OK`, or an error that a command can raise. -/
theorem execOf_err {i : Instr} {t : State.Of C} (h : execOf i s = .next t) : t.err = .ok ∨ Raisable C t.err := by
  rcases execOf_next_cases h with ⟨e, he, rfl⟩ | ⟨u, -, rfl⟩
  · exact .inr he
  · exact .inl rfl

/-- A command whose answer has an error changes `STATUS.ERR` alone (R209). -/
theorem execOf_onlyStatus_of_err {i : Instr} {t : State.Of C} (h : execOf i s = .next t) (herr : t.err ≠ .ok) :
    OnlyStatus s t := by
  rcases execOf_next_cases h with ⟨e, -, rfl⟩ | ⟨u, -, rfl⟩
  · rfl
  · exact absurd rfl herr

/-! ## The status a step leaves (R22) -/

@[simp] theorem State.Of.setLen_err (s : State.Of C) (k n : Nat) : (s.setLen k n).err = s.err := by
  rw [State.Of.setLen_eq]

@[simp] theorem State.Of.setArg_err (s : State.Of C) (idx : Nat) (v : Cell) : (s.setArg idx v).err = s.err := by
  rw [State.Of.setArg_eq]

@[simp] theorem State.Of.bufWrite_err (s : State.Of C) (k i : Nat) (v : Cell) : (s.bufWrite k i v).err = s.err := by
  rw [State.Of.bufWrite_eq]

/-- Where the status of an answer to one transaction in `s` comes from: it is as before, or that of reset, or that of an illegal word, or a command's. -/
inductive StatusFrom (run : Executor C) (s : State.Of C) : OutcomeOf C → Prop where
  | kept (t : State.Of C) (h : t.err = s.err) : StatusFrom run s (.next t)
  | reset : StatusFrom run s (.next s.resetInput)
  | illegal : StatusFrom run s (raise .illegalCommand s)
  | command (i : Instr) : StatusFrom run s (run i s)
  | refused (r : Refusal) : StatusFrom run s (.refused r)

variable {run : Executor C}

theorem statusFrom_withWord {v : Cell} {k : Word → OutcomeOf C} (h : ∀ w, StatusFrom run s (k w)) :
    StatusFrom run s (withWord v k) := by
  rcases withWord_cases v k with ⟨-, he⟩ | ⟨w, -, he⟩ <;> rw [he]
  · exact .refused _
  · exact h w

theorem statusFrom_onBus {addr width : Nat} {k : BusTarget → OutcomeOf C} (h : ∀ t, StatusFrom run s (k t)) :
    StatusFrom run s (onBus addr width k) := by
  rcases onBus_cases addr width k with he | he | ⟨t, he⟩ <;> rw [he]
  · exact .refused _
  · exact .refused _
  · exact h t

theorem statusFrom_command (w : Word) : StatusFrom run s (command run w s) := by
  rcases command_cases run w s with he | ⟨i, -, he⟩ <;> rw [he]
  · exact .illegal
  · exact .command i

theorem statusFrom_writeRegister (idx : Nat) (v : Cell) : StatusFrom run s (writeRegister run idx v s) := by
  unfold writeRegister
  split
  · exact statusFrom_withWord statusFrom_command
  split
  · exact statusFrom_withWord fun w => .kept _ (s.setLen_err _ _)
  · exact .kept _ (s.setArg_err idx v)

theorem statusFrom_perform (t : Transaction Cell) : StatusFrom run s (perform run t s) := by
  cases t with
  | regRead idx => exact .kept _ rfl
  | regWrite idx v => exact statusFrom_writeRegister idx v
  | bufRead k i => exact .kept _ rfl
  | bufWrite k i v => exact .kept _ (s.bufWrite_err k i v)
  | reset => exact .reset
  | busRead addr width =>
    unfold perform
    exact statusFrom_onBus fun _ => statusFrom_withWord fun _ => .kept _ rfl
  | busWrite addr bytes =>
    refine statusFrom_onBus fun target => ?_
    cases target with
    | register idx => exact statusFrom_writeRegister idx _
    | reserved => exact .kept _ rfl
    | element k i => exact .kept _ (s.bufWrite_err k i _)

/-- A transaction leaves no status but the one before, `OK`, IllegalCommand and those its command can end with. -/
theorem StatusFrom.err_ne {e : Status} {t : State.Of C} (h : StatusFrom run s (.next t)) (hs : s.err ≠ e)
    (hok : e ≠ .ok) (hillegal : e ≠ .illegalCommand) (hrun : ∀ i t, run i s = .next t → t.err ≠ e) : t.err ≠ e := by
  generalize ho : Host.Outcome.next t = o at h
  cases h with
  | kept u hu => cases ho; exact hu ▸ hs
  | reset => cases ho; exact hok.symm
  | illegal => cases ho; exact hillegal.symm
  | command i => exact hrun i t ho.symm
  | refused r => cases ho

/-- No command's answer has the status `InvalidType` (R204). -/
theorem execOf_err_ne_invalidType {i : Instr} {t : State.Of C} (h : execOf i s = .next t) : t.err ≠ .invalidType := by
  rcases execOf_err h with he | ⟨-, he, -⟩
  · rw [he]; decide
  · exact he

end

/-! ## Runs -/

/-- A run ends in a state that meets the invariant or in a refusal: every step keeps the invariant, and there is no fault. -/
theorem safeRun_or_refused (n : Nat) {s : State} (hi : s.Inv) :
    SafeRun n s ∨ ∃ r, Sys2Proof.core.run n s = .refused r := by
  induction n generalizing s with
  | zero => exact .inl ⟨s, rfl, hi⟩
  | succ n ih =>
    cases hstep : step s with
    | next t =>
      unfold SafeRun
      rw [run_succ_of_step hstep]
      exact ih (stepKeepsTheInvariant.1 s t hi hstep)
    | fault f => exact nomatch f
    | refused r => exact .inr ⟨r, by rw [run_succ, hstep]⟩

end Sys2Proof.Machine
end

section
/-! The statements of 60_exceptions.md: the status codes (R200), the errors of illegal words and of empty slots (R205, R206), what an error changes (R209), and that every command answers and every run is safe (R214). -/

namespace Sys2Proof.Machine

/-- Settles O36: a table of eleven codes. -/
theorem statusCodes : Obligations.StatusCodes :=
  ⟨rfl, rfl, rfl, rfl, rfl, rfl, rfl, rfl, rfl, rfl, rfl, fun e => by cases e <;> decide⟩

/-- Settles O13: each kind of illegal word fails one of the conditions on which the decoder accepts it. -/
theorem illegalWordsRaiseIllegalCommand : Obligations.IllegalWordsRaiseIllegalCommand := by
  intro w s rest hp
  refine ⟨step_illegal_word hp, fun hop => step_illegal_word hp fun i hi => ?_,
    fun hres => step_illegal_word hp fun i hi => ?_, fun j hj hbad => step_illegal_word hp fun i hi => ?_⟩ <;>
    obtain ⟨hsel, hreserved, hunused, hwf⟩ := (decode_eq_ok_iff w i).1 hi
  · exact hop i (selectOp_opcode hsel)
  · exact hres hreserved
  · obtain rfl : i = j := Option.some.inj (hsel.symm.trans hj)
    simp [hunused, hwf] at hbad

/-- Settles O37: each command of the list reads the slot first, or second after another slot; a create reads none. -/
theorem emptySlotRaisesNoObject : Obligations.EmptySlotRaisesNoObject := by
  intro s x y b c n wt
  refine ⟨fun hx => ?_, fun hx => ?_, ?_⟩ <;> simp only [List.forall_mem_cons]
  · have hfirst (k : Machine.Filter Word → Outcome) : withFilter s x k = .next { s with err := .noObject } :=
      withFilter_none s hx k
    have hsecond (k : Machine.Filter Word → Machine.Filter Word → Outcome) :
        (withFilter s y fun u => withFilter s x (k u)) = .next { s with err := .noObject } :=
      withFilter_withFilter_none hx y k
    exact ⟨hfirst _, hfirst _, hfirst _, hfirst _, hfirst _, hfirst _, hfirst _, hfirst _, hfirst _, hfirst _, hsecond _,
      hfirst _, hsecond _, hfirst _, hfirst _, List.forall_mem_nil _⟩
  · have hfirst (k : Window Word → Outcome) : withWindow s x k = .next { s with err := .noObject } :=
      withWindow_none s hx k
    have hsecond (k : Window Word → Window Word → Outcome) :
        (withWindow s y fun u => withWindow s x (k u)) = .next { s with err := .noObject } :=
      withWindow_withWindow_none hx y k
    exact ⟨hfirst _, hfirst _, hfirst _, hfirst _, hfirst _, hfirst _, hfirst _, hsecond _, hfirst _, hsecond _, hfirst _,
      List.forall_mem_nil _⟩
  · exact ⟨neverNoObject_createOneCutoff x n wt _, neverNoObject_createOneCutoff x n wt _,
      neverNoObject_execBpfCreate x n wt s, neverNoObject_execFsCreate x b s, neverNoObject_execWinCreate x n wt s,
      List.forall_mem_nil _⟩

/-- Settles O39: a command ends by an error alone or completes with `OK`, and raises CapacityExceeded only by a bounded capacity. -/
theorem failingCommandChangesOnlyStatus : Obligations.FailingCommandChangesOnlyStatus := by
  refine ⟨fun i s t h => execOf_onlyStatus_of_err (exec_eq_execOf i s ▸ h), fun _ _ C i s t h =>
    ⟨execOf_onlyStatus_of_err h, fun hn hsig hcap => ?_⟩⟩
  rcases execOf_err h with hok | ⟨-, -, hbounded⟩
  · exact nomatch hok.symm.trans hcap
  · exact (hbounded hcap).elim (absurd hn) (absurd hsig)

/-- Settles O40: a command that does not answer has an operand it cannot read; on this hardware that is an unwritten element. -/
theorem commandsAlwaysAnswer : Obligations.CommandsAlwaysAnswer := by
  refine ⟨fun i s => ?_, fun Cell α C i s => ?_⟩
  · rw [exec_eq_execOf]
    rcases execOf_next_or_refused i s with h | ⟨r, hr, h⟩
    · exact ⟨.inl h, fun _ => h⟩
    · obtain ⟨rfl, b, hb⟩ := hr.hardware
      refine ⟨.inr h, fun hseq => ?_⟩
      obtain ⟨xs, hx⟩ := hseq b
      exact nomatch hb.symm.trans hx
  · rcases execOf_next_or_refused i s with h | ⟨r, hr, h⟩
    · exact ⟨.inl h, fun _ _ _ => h⟩
    · refine ⟨.inr ?_, fun hseq h0 h1 => absurd hr (not_unreadable hseq h0 h1 r)⟩
      rcases hr.reason with rfl | rfl
      · exact .inl h
      · exact .inr h

/-- Settles O42: no command raises it, and the status a step leaves is a command's, IllegalCommand, `OK` or the one before. -/
theorem invalidTypeIsNeverRaised : Obligations.InvalidTypeIsNeverRaised := by
  refine ⟨fun i s t h => execOf_err_ne_invalidType (exec_eq_execOf i s ▸ h), fun s t hs h => ?_⟩
  cases hp : s.pending with
  | nil => exact Host.Outcome.next.inj ((stepWith_nil s hp).symm.trans h) ▸ hs
  | cons tr rest =>
    have hfrom : StatusFrom exec { s with pending := rest } (.next t) :=
      (step_cons hp).symm.trans h ▸ statusFrom_perform tr
    exact hfrom.err_ne hs (by decide) (by decide) fun i u hu => execOf_err_ne_invalidType (exec_eq_execOf i _ ▸ hu)

/-- Settles O50: every step keeps the invariant, and there is no fault. -/
theorem runsAreSafeUnlessRefused : Obligations.RunsAreSafeUnlessRefused := fun n _ hi => safeRun_or_refused n hi

end Sys2Proof.Machine
end

section
/-! The statements of 70_reset_and_hazards.md: the in-place commands beside the two-buffer ones onto their source (R235), and the steps of Reset and of an idle machine (R230, R216, R238). Both halves of R235 carry an answer of the in-place command over to the other by `Tracks`, the change being that `RES` is put back, which is no change of the state the command starts in. -/

namespace Sys2Proof.Machine

/-! ## One buffer as source and destination (R235) -/

section
variable {Cell α : Type} {C : Configuration Cell α}

theorem keepsStatusAndBuffers_setRes (v : Cell) : KeepsStatusAndBuffers fun s : State.Of C => s.setRes v :=
  ⟨fun _ _ => rfl, fun _ _ => rfl⟩

section
variable {g : State.Of C → State.Of C} (hg : KeepsStatusAndBuffers g) {s : State.Of C} {c : Idx}
  {k k' : List α → OutcomeOf C} (h : ∀ ys, Tracks g (k ys) (k' ys))
include hg h

theorem tracks_withConv {f : Idx} (hf : (g s).filterAt f = s.filterAt f) :
    Tracks g (withConv s f c k) (withConv (g s) f c k') :=
  tracks_withFilter hg hf fun _ => tracks_withSeq hg fun _ => tracks_require hg (tracks_validate hg (h _))

theorem tracks_withApply {w : Idx} (hw : (g s).windowAt w = s.windowAt w) :
    Tracks g (withApply s w c k) (withApply (g s) w c k') :=
  tracks_withWindow hg hw fun _ => tracks_withSeq hg fun _ => tracks_require hg (h _)

end

/-- Two completions that leave the same state but for a result: the second is the first with `RES` put back. -/
theorem tracks_complete_setResNat {s t : State.Of C} (ht : t.res = s.res) (n : Nat) :
    Tracks (·.setRes s.res) (complete (t.setResNat n)) (complete t) := by
  rw [← ht]
  exact .next _

/-- `CONV` of a buffer onto itself is `CONVIP` with `RES` as it was, errors and refusals included. -/
theorem tracks_execConvip_execConv (b f : Idx) (s : State.Of C) :
    Tracks (·.setRes s.res) (execConvip b f s) (execConv b f b s) :=
  tracks_withConv (keepsStatusAndBuffers_setRes s.res) (s := s)
    (fun ys => tracks_complete_setResNat (s.writeBuf_res b ys) _) rfl

/-- `WIN.APPLY` of a buffer onto itself is `WIN.APPLYIP` with `RES` as it was, errors and refusals included. -/
theorem tracks_execWinApplyip_execWinApply (b w : Idx) (s : State.Of C) :
    Tracks (·.setRes s.res) (execWinApplyip b w s) (execWinApply b w b s) :=
  tracks_withApply (keepsStatusAndBuffers_setRes s.res) (s := s)
    (fun ys => tracks_complete_setResNat (s.writeBuf_res b ys) _) rfl

end

/-- Settles O26: the two commands of each pair share their operands, tests and result, and differ in the write of `RES` alone. -/
theorem sameBufferEqualsInPlace : Obligations.SameBufferEqualsInPlace := fun s _ b x =>
  ⟨fun h => (tracks_execConvip_execConv b x s).eq_next h, fun h => (tracks_execWinApplyip_execWinApply b x s).eq_next h⟩

/-! ## Reset and idleness (R230, R216, R238) -/

/-- Settles O2: a step performs the transaction it takes, here `resetInput`, and without one answers the state itself. -/
theorem resetTransactionAndIdle : Obligations.ResetTransactionAndIdle := fun s _ =>
  ⟨fun hp => step_cons hp, fun hp => stepWith_nil s hp⟩

end Sys2Proof.Machine
end
